-- ==== Sys2Proof/Word.lean ====
section
/-! DEFINITION. The word types of HUFFENC: command words and registers (00_scope.md R10, R14), output
bytes (20_memory.md R90), bit sequences (00_scope.md R15), and the two index ranges of the internal
tables (10_state.md R42, R43). -/

namespace Sys2Proof

/-- A 32-bit command word or register value (R10 `CMD_BITS`, `REG_BITS`). -/
abbrev Word := BitVec 32

/-- An output byte, or the 8-bit VAL field of BYTE and WRBIT (R90, R116). -/
abbrev Byte := BitVec 8

/-- A bit sequence, first bit first (R15). -/
abbrev Bits := List Bool

/-- A symbol: an integer in [0, N) with N = 257 (R9, R18). -/
abbrev Symbol := Fin 257

/-- An index of the node arena: 0..512 (R10 `NMAX` = 513, R43). -/
abbrev NodeIdx := Fin 513

/-- The L bits of a bit vector as a code: most significant bit first (R15). -/
def readAsCode {L : Nat} (v : BitVec L) : Bits := List.ofFn fun k : Fin L => v.getMsb k

/-- The symbols 0, 1, ..., 256, in the order of `for s in 0..256` (R17). -/
def allSymbols : List Symbol := List.finRange 257

end Sys2Proof
end

