-- ==== Sys2Proof/Config.lean ====
section
/-! DEFINITION. The parameters of HUFFENC: those ICP fixes (00_scope.md R9), those the spec chooses
(R10), and the two the spec leaves open (R11, R12), which are constants without a body. -/

namespace Sys2Proof.Config

/-- `N`, the alphabet size (R9). -/
abbrev N : Nat := 257

/-- `EOS`, the end-of-stream symbol (R9). -/
abbrev EOS : Symbol := 256

/-- `HDR_FIELD_BITS`, the width of one header entry (R9). -/
abbrev HDR_FIELD_BITS : Nat := 8

/-- `HDR_BYTES`, the header's length in bytes (R9). -/
abbrev HDR_BYTES : Nat := 257

/-- `LEN_LIMIT`, the smallest length the header rejects (R9). -/
abbrev LEN_LIMIT : Nat := 256

/-- `LEN_BITS`, the width of a length-table entry (R10). -/
abbrev LEN_BITS : Nat := 9

/-- `NMAX`, the number of node-arena entries (R10). -/
abbrev NMAX : Nat := 513

/-- `IDX_BITS`, the width of a node-index field (R10). -/
abbrev IDX_BITS : Nat := 10

/-- `ROOT`, the arena index of the tree root (R10, R43). -/
abbrev ROOT : NodeIdx := 0

/-- `ID_VALUE`, what register ID reads (R10, R34). -/
abbrev ID_VALUE : Word := 0x48554631#32

/-- `REG_WINDOW`, the size of the register window in bytes (R10). -/
abbrev REG_WINDOW : Nat := 64

/-- One less than `OUT_FIFO_DEPTH`. OPEN: the spec fixes no value (R11, log 4), so it has no body. -/
opaque outFifoDepthLessOne : Nat

/-- `OUT_FIFO_DEPTH`: any integer of at least 1 (R11). -/
def OUT_FIFO_DEPTH : Nat := outFifoDepthLessOne + 1

/-- `FREQ_BITS`, the width of a real host's frequency counter. OPEN (R12, log 13), so it has no body. -/
opaque FREQ_BITS : Nat

end Sys2Proof.Config
end

