-- ==== Sys2Proof/Syntax.lean ====
section
/-! DEFINITION. The commands of HUFFENC, one constructor per row of spec/opcode_table.json
(30_encoding.md R119). An operand that picks a table entry is a natural number; an operand that is
data is a bit vector of its field's width (R111, R117). -/

namespace Sys2Proof

/-- The HUFFENC command set, version 1 (R2, R119). -/
inductive Instr where
  /-- NOP: no operation (R155). -/
  | nop
  /-- LDLEN sym, len: load one length-table entry (R160). -/
  | ldlen (sym : Nat) (len : BitVec 9)
  /-- LDLEAF idx, sym: write a leaf node into the arena (R165). -/
  | ldleaf (idx sym : Nat)
  /-- DERIVE: derive the length table from the node arena (R181). -/
  | derive
  /-- BUILD: build the canonical tree and the code table (R190). -/
  | build
  /-- HEADER: write the code-length table (R241). -/
  | header
  /-- BYTE b: encode one input byte (R245). -/
  | byte (b : Byte)
  /-- FINISH: write the end-of-stream code and close the stream (R250). -/
  | finish
  /-- WRBIT v: write one raw bit (R230). -/
  | wrbit (v : Byte)
  /-- SRESET: soft reset (R157). -/
  | sreset
  /-- LDINT idx, left, right: write an internal node into the arena (R170). -/
  | ldint (idx left right : Nat)
  deriving DecidableEq, Repr

end Sys2Proof
end

