-- ==== Sys2Proof/WellFormed.lean ====
section
/-! DEFINITION. Which commands can be written as a word: each operand fits its field's width
(30_encoding.md R111, R126). An operand that fits but is out of range (SYM 300) is well-formed; the
command raises its error when it executes (R118, R124). -/

namespace Sys2Proof

/-- A symbol operand fits its 9-bit field (R113, R114). -/
def fitsSym (sym : Nat) : Bool := decide (sym < 512)

/-- A node-index operand fits its 10-bit field (R114, R115). -/
def fitsIdx (idx : Nat) : Bool := decide (idx < 1024)

/-- Every operand fits its field (R126: "Each operand must fit its field width"). LEN and VAL fit by
their type. -/
def Instr.wellFormed : Instr → Bool
  | .nop => true
  | .ldlen sym _ => fitsSym sym
  | .ldleaf idx sym => fitsIdx idx && fitsSym sym
  | .derive => true
  | .build => true
  | .header => true
  | .byte _ => true
  | .finish => true
  | .wrbit _ => true
  | .sreset => true
  | .ldint idx left right => fitsIdx idx && fitsIdx left && fitsIdx right

end Sys2Proof
end

