-- ==== Sys2Proof/Decode.lean ====
section
/-! DEFINITION. Decoding of command words, total over all 2^32 words (30_encoding.md R120), and the
encoder written from the formats (R111 to R116, R127). -/

namespace Sys2Proof

/-- `w[hi:lo]`: the field of bits hi down to lo, read as an unsigned integer (R14). -/
def field (w : Word) (hi lo : Nat) : Nat := w.toNat / 2 ^ lo % 2 ^ (hi + 1 - lo)

/-- The illegal-command verdicts (R120), each with the argument the error reports. -/
inductive IllegalWord where
  /-- Sub-cause 1, RESERVED_OPCODE, with w[31:28] (R121). -/
  | reservedOpcode (op : Nat)
  /-- Sub-cause 2, RESERVED_BITS, with w[31:28] (R122). -/
  | reservedBits (op : Nat)
  deriving DecidableEq, Repr

/-- What decoding answers: a command or an illegal-command verdict (R120, R123). -/
inductive Decoded where
  | command (i : Instr)
  | illegal (v : IllegalWord)
  deriving DecidableEq, Repr

/-- The `need` of R120: the reserved fields are zero, or the word is illegal (R122). -/
def Decoded.need (op : Nat) (reservedZero : Prop) [Decidable reservedZero] (i : Instr) : Decoded :=
  if reservedZero then .command i else .illegal (.reservedBits op)

/-- `decode(w)` of R120. Format FI is told by bits 31:30 alone (R119); the opcodes 0xC to 0xF
therefore never reach the last line, which holds the two reserved opcodes (R121). -/
def decode (w : Word) : Decoded :=
  if field w 31 30 = 0b11 then
    .command (.ldint (field w 29 20) (field w 19 10) (field w 9 0))
  else
    let op := field w 31 28
    match op with
    | 0x0 => .need op (field w 27 0 = 0) .nop
    | 0x1 => .need op (field w 27 25 = 0 ∧ field w 15 9 = 0)
        (.ldlen (field w 24 16) (BitVec.ofNat 9 (field w 8 0)))
    | 0x2 => .need op (field w 27 26 = 0 ∧ field w 15 9 = 0) (.ldleaf (field w 25 16) (field w 8 0))
    | 0x3 => .need op (field w 27 0 = 0) .derive
    | 0x4 => .need op (field w 27 0 = 0) .build
    | 0x5 => .need op (field w 27 0 = 0) .header
    | 0x6 => .need op (field w 27 8 = 0) (.byte (BitVec.ofNat 8 (field w 7 0)))
    | 0x7 => .need op (field w 27 0 = 0) .finish
    | 0x8 => .need op (field w 27 8 = 0) (.wrbit (BitVec.ofNat 8 (field w 7 0)))
    | 0xB => .need op (field w 27 0 = 0) .sreset
    | _ => .illegal (.reservedOpcode op)

/-- The word with opcode `op` in bits 31:28 and the given field values at their lowest bits; the
fields of one format do not overlap, so their sum is the word (R111). -/
def placeFields (op : Nat) (fields : List (Nat × Nat)) : Word :=
  BitVec.ofNat 32 (op * 2 ^ 28 + (fields.map fun f => f.1 * 2 ^ f.2).sum)

/-- The word of a command, from the formats F0, FL, FN, FI and FB (R112 to R116, R127). -/
def encode : Instr → Word
  | .nop => placeFields 0x0 []
  | .ldlen sym len => placeFields 0x1 [(sym, 16), (len.toNat, 0)]
  | .ldleaf idx sym => placeFields 0x2 [(idx, 16), (sym, 0)]
  | .derive => placeFields 0x3 []
  | .build => placeFields 0x4 []
  | .header => placeFields 0x5 []
  | .byte b => placeFields 0x6 [(b.toNat, 0)]
  | .finish => placeFields 0x7 []
  | .wrbit v => placeFields 0x8 [(v.toNat, 0)]
  | .sreset => placeFields 0xB []
  | .ldint idx left right => placeFields 0xC [(idx, 20), (left, 10), (right, 0)]

/-- The instruction the decoder reads from the table's bits: a command is one word (R110), so bits
above `nbits` are 0 and nothing lies above bit 31 (log 12). -/
def decodeTableWord (nbits w : Nat) : Option Instr :=
  match decode (BitVec.ofNat 32 (w % 2 ^ nbits)) with
  | .command i => some i
  | .illegal _ => none

end Sys2Proof
end

