-- ==== Sys2Proof/Machine/State.lean ====
section
/-! DEFINITION. The state of HUFFENC, all of it (10_state.md R30), as plain data, its reset value
(R55), and the reasons a step can stop. -/

namespace Sys2Proof.Machine

/-- STATE, the control state: exactly these five values (R41). -/
inductive Ctl where
  /-- 0: tables may be loaded; no code exists. -/
  | idle
  /-- 1: the canonical code is built; the header has not been written. -/
  | ready
  /-- 2: the header is written; payload symbols may be encoded. -/
  | stream
  /-- 3: the end-of-stream code is written and the stream is closed. -/
  | done
  /-- 4: a command failed; only a reset leaves this state. -/
  | error
  deriving DecidableEq, Repr

/-- One entry of the node arena (R43). `empty` is a value of the entry, not an unwritten register. -/
inductive Node where
  /-- No node has been written here. -/
  | empty
  /-- A leaf owns exactly one symbol. -/
  | leaf (sym : Symbol)
  /-- An internal node owns exactly two children. -/
  | internal (left right : NodeIdx)
  deriving DecidableEq, Repr

/-- A full binary tree with symbols at its leaves: the canonical tree (R45, R191) and the host's
Huffman tree (R351). The left child of a node is the branch of bit 0 (R192). -/
inductive Tree where
  | leaf (sym : Symbol)
  | node (left right : Tree)
  deriving DecidableEq, Repr

/-- The fourteen causes of an error, with their arguments (60_exceptions.md R272). No other class and
sub-cause pair exists. -/
inductive ErrorCause where
  /-- INVALID_ARGUMENT 1, SYMBOL_RANGE: a symbol field above 256. -/
  | symbolRange (sym : Nat)
  /-- INVALID_ARGUMENT 2, NODE_RANGE: a node-index field above 512. -/
  | nodeRange (idx : Nat)
  /-- INVALID_ARGUMENT 3, BIT_VALUE: a WRBIT value above 1. -/
  | bitValue (v : Byte)
  /-- INVALID_ARGUMENT 4, NO_CODE: a symbol whose LEN is 0. -/
  | noCode (sym : Symbol)
  /-- FORMAT_CONSTRAINT 1, LENGTH_TOO_LONG: a symbol whose length is 256 or more. -/
  | lengthTooLong (sym : Symbol)
  /-- INTERNAL_INVARIANT 1, ROOT_NOT_INTERNAL. -/
  | rootNotInternal
  /-- INTERNAL_INVARIANT 2, EMPTY_NODE: the node index reached. -/
  | emptyNode (idx : NodeIdx)
  /-- INTERNAL_INVARIANT 3, NODE_REVISITED: the node index reached a second time. -/
  | nodeRevisited (idx : NodeIdx)
  /-- INTERNAL_INVARIANT 4, DUPLICATE_SYMBOL: the symbol met in a second leaf. -/
  | duplicateSymbol (sym : Symbol)
  /-- INTERNAL_INVARIANT 5, ODD_LEVEL: the level whose list is odd. -/
  | oddLevel (level : Nat)
  /-- INTERNAL_INVARIANT 6, ROOT_COUNT: the number of nodes left after level 1. -/
  | rootCount (count : Nat)
  /-- ILLEGAL_COMMAND 1, RESERVED_OPCODE: w[31:28]. -/
  | reservedOpcode (op : Nat)
  /-- ILLEGAL_COMMAND 2, RESERVED_BITS: w[31:28]. -/
  | reservedBits (op : Nat)
  /-- SEQUENCE 1, WRONG_STATE: the control state when the command ran. -/
  | wrongState (ctl : Ctl)
  deriving DecidableEq, Repr

/-- What the host can do to HUFFENC (80_host_interface.md R340). Addresses are byte offsets in the
register window (log 11). -/
inductive HostAction where
  /-- A bus write of `bytes` bytes at `offset`; a write of 4 bytes carries `data` (R35, R84, R89). -/
  | busWrite (bytes offset : Nat) (data : Word)
  /-- A bus read of `bytes` bytes at `offset` (R84, R89). -/
  | busRead (bytes offset : Nat)
  /-- The sink is ready for one output byte (R82, R343). -/
  | takeByte
  /-- The hardware reset is asserted between two commands (R310, R312). -/
  | hardReset
  deriving DecidableEq, Repr

/-- The host's side of the interface: the MODEL's own fields, none of them HUFFENC state (R30; log 1,
log 2). -/
structure HostSide where
  /-- What the host will do, in its program order (R93). -/
  queue : List HostAction
  /-- What the last bus read returned, if there was one (R84, R91). -/
  lastRead : Option Word
  /-- Every byte the sink has received since power-up; no reset recalls one (R82, R157, R312). -/
  received : List Byte
  deriving DecidableEq, Repr

end Sys2Proof.Machine

namespace Sys2Proof.Machine

/-- The complete state of HUFFENC (R30), under the spec's names, and the host's side of it. -/
structure State where
  /-- STATE (R41). -/
  state : Ctl
  /-- LEN, the length table (R42). -/
  len : Vector (BitVec 9) 257
  /-- NODE, the node arena (R43). -/
  node : Vector Node 513
  /-- CODE, the code table (R44). -/
  code : Vector Bits 257
  /-- The canonical tree CODE is read from (R45). -/
  tree : Option Tree
  /-- ACC, the bits of the partial byte, right-aligned (R46). -/
  acc : Byte
  /-- BITCNT, the number of bits in the partial byte (R46). -/
  bitcnt : BitVec 3
  /-- ERRCODE (R47, R271). -/
  errcode : BitVec 4
  /-- ERRSUB (R47, R272). -/
  errsub : BitVec 4
  /-- ERRARG (R47, R272). -/
  errarg : BitVec 10
  /-- ERRCMDREG, the word whose execution raised the first error (R38, R47). -/
  errcmdreg : Word
  /-- OUTCNT, the number of bytes emitted modulo 2^32 (R39). -/
  outcnt : Word
  /-- The output history, oldest first (R48). -/
  out : List Byte
  /-- How many bytes of `out` the sink has received; the rest wait undelivered (R82, R310; log 3). -/
  delivered : Nat
  /-- The host's side (log 1, log 2). -/
  host : HostSide
  deriving DecidableEq, Repr

/-- The state right after power-up or a hardware reset, with nothing queued by the host: every value
is R55's. -/
def State.reset : State where
  state := .idle
  len := Vector.replicate 257 0
  node := Vector.replicate 513 .empty
  code := Vector.replicate 257 []
  tree := none
  acc := 0
  bitcnt := 0
  errcode := 0
  errsub := 0
  errarg := 0
  errcmdreg := 0
  outcnt := 0
  out := []
  delivered := 0
  host := { queue := [], lastRead := none, received := [] }

/-- Why a step has no next state. HUFFENC's own errors are not among these: they enter the ERROR
state, which is a next state (60_exceptions.md R280; log 6). -/
inductive Fault where
  /-- Raised by `hostStep` for a bus access that is not an aligned 32-bit access inside the window: the
  spec gives it no step ("a model host that attempts one is stuck", R89). Safe (log 5). -/
  | busAccessNotAdmitted
  deriving DecidableEq, Repr

/-- Why an instruction has no meaning. No arm of `exec` answers one: every command of the table has
its meaning. -/
inductive Refusal where
  /-- Raised by an arm of `exec` for an instruction without a meaning yet. Safe. -/
  | notModelled (mnemonic : String)
  deriving DecidableEq, Repr

end Sys2Proof.Machine
end

