-- ==== Sys2Proof/Machine/Flags.lean ====
section
/-! DEFINITION. What the host sees: the numbers of the control states and error causes, the STATUS and
ERRINFO words, and the register window (10_state.md R33 to R41, 60_exceptions.md R271, R272). HUFFENC
has no condition codes (R49). -/

namespace Sys2Proof.Machine

/-- The number of a control state, as STATUS.STATE holds it (R36, R41). -/
def Ctl.number : Ctl → Nat
  | .idle => 0
  | .ready => 1
  | .stream => 2
  | .done => 3
  | .error => 4

/-- ERRCODE, the error class (R271). -/
def ErrorCause.errcode : ErrorCause → BitVec 4
  | .symbolRange _ | .nodeRange _ | .bitValue _ | .noCode _ => 1
  | .lengthTooLong _ => 2
  | .rootNotInternal | .emptyNode _ | .nodeRevisited _ | .duplicateSymbol _ => 3
  | .oddLevel _ | .rootCount _ => 3
  | .reservedOpcode _ | .reservedBits _ => 4
  | .wrongState _ => 5

/-- ERRSUB, the sub-cause within the class (R272). -/
def ErrorCause.errsub : ErrorCause → BitVec 4
  | .symbolRange _ => 1
  | .nodeRange _ => 2
  | .bitValue _ => 3
  | .noCode _ => 4
  | .lengthTooLong _ => 1
  | .rootNotInternal => 1
  | .emptyNode _ => 2
  | .nodeRevisited _ => 3
  | .duplicateSymbol _ => 4
  | .oddLevel _ => 5
  | .rootCount _ => 6
  | .reservedOpcode _ => 1
  | .reservedBits _ => 2
  | .wrongState _ => 1

/-- The argument of an error, before it is stored in the 10 bits of ERRARG (R272). -/
def ErrorCause.argument : ErrorCause → Nat
  | .symbolRange sym => sym
  | .nodeRange idx => idx
  | .bitValue v => v.toNat
  | .noCode sym => sym.val
  | .lengthTooLong sym => sym.val
  | .rootNotInternal => 0
  | .emptyNode idx => idx.val
  | .nodeRevisited idx => idx.val
  | .duplicateSymbol sym => sym.val
  | .oddLevel level => level
  | .rootCount count => count
  | .reservedOpcode op => op
  | .reservedBits op => op
  | .wrongState ctl => ctl.number

/-- ERRARG (R37, R272). -/
def ErrorCause.errarg (c : ErrorCause) : BitVec 10 := BitVec.ofNat 10 c.argument

/-- STATUS = {0x00, ACC, 0b00000, BITCNT, ERRCODE, ERR, STATE} (R36). -/
def statusWord (s : State) : Word :=
  0x00#8 ++ s.acc ++ 0b00000#5 ++ s.bitcnt ++ s.errcode ++ BitVec.ofBool (s.state = .error) ++
    BitVec.ofNat 3 s.state.number

/-- ERRINFO = {0x0000, ERRSUB, 0b00, ERRARG} (R37). -/
def errinfoWord (s : State) : Word :=
  0x0000#16 ++ s.errsub ++ 0b00#2 ++ s.errarg

/-- What a 32-bit read of the register at a byte offset returns (R33 to R40): CMD and the reserved
offsets read 0. -/
def readReg (s : State) (offset : Nat) : Word :=
  match offset with
  | 0x00 => Config.ID_VALUE
  | 0x04 => 0
  | 0x08 => statusWord s
  | 0x0C => errinfoWord s
  | 0x10 => s.errcmdreg
  | 0x14 => s.outcnt
  | _ => 0

/-- The host bus admits only 32-bit accesses at offsets that are multiples of 4 inside the window
(R89). -/
def admitted (bytes offset : Nat) : Bool :=
  bytes == 4 && offset % 4 == 0 && decide (offset < Config.REG_WINDOW)

end Sys2Proof.Machine
end

