-- ==== Sys2Proof/Machine/Operands.lean ====
section
/-! DEFINITION. The operand forms of the commands and their range checks at execution
(30_encoding.md R117, R118, R124). Every operand is an immediate; each form turns the field's value
into an index of its table, or answers the error the command raises. -/

namespace Sys2Proof.Machine

/-- A symbol operand: 0..256 is legal (R118). -/
def symOperand (sym : Nat) : Except ErrorCause Symbol :=
  if h : 256 < sym then .error (.symbolRange sym) else .ok ⟨sym, by omega⟩

/-- A node-index operand: 0..512 is legal (R118). -/
def idxOperand (idx : Nat) : Except ErrorCause NodeIdx :=
  if h : 512 < idx then .error (.nodeRange idx) else .ok ⟨idx, by omega⟩

/-- A WRBIT value operand: 0 and 1 are legal (R118, R230). -/
def bitOperand (v : Byte) : Except ErrorCause Bool :=
  if 1 < v.toNat then .error (.bitValue v) else .ok (v.toNat == 1)

/-- A BYTE operand names the symbol of its byte value; it cannot name EOS (R245, R260). -/
def byteSymbol (b : Byte) : Symbol := ⟨b.toNat, by have := b.isLt; omega⟩

end Sys2Proof.Machine
end

