-- ==== Sys2Proof/Machine/Ops.lean ====
section
/-! DEFINITION. The operations the commands share: which state accepts which command
(40_load_and_control.md R150, R152), entering the ERROR state (60_exceptions.md R280), leaving it by
reset (70_reset_and_hazards.md R310), and the bitpacker's primitives (42_bitwriter.md R221 to R224). -/

namespace Sys2Proof.Machine

/-- How a control state answers a command: the entries of R152's table. -/
inductive Acceptance where
  /-- "yes": the command performs. -/
  | performs
  /-- "SEQ": it raises Error(SEQUENCE, 1, STATE). -/
  | sequence
  /-- "ignored": nothing happens (R150's first branch, R283). -/
  | ignored
  deriving DecidableEq, Repr

/-- R152's rows for the table loads, DERIVE and BUILD: accepted in IDLE only. -/
def acceptIdle : Ctl → Acceptance
  | .idle => .performs
  | .ready | .stream | .done => .sequence
  | .error => .ignored

/-- R152's row for NOP: accepted in every state but ERROR. -/
def acceptNop : Ctl → Acceptance
  | .idle | .ready | .stream | .done => .performs
  | .error => .ignored

/-- R152's row for SRESET: accepted in every state, ERROR included. -/
def acceptSreset : Ctl → Acceptance
  | .idle | .ready | .stream | .done | .error => .performs

/-- R152's row for HEADER: accepted in READY only. -/
def acceptHeader : Ctl → Acceptance
  | .ready => .performs
  | .idle | .stream | .done => .sequence
  | .error => .ignored

/-- R152's row for WRBIT: accepted in READY and STREAM. -/
def acceptWrbit : Ctl → Acceptance
  | .ready | .stream => .performs
  | .idle | .done => .sequence
  | .error => .ignored

/-- R152's rows for BYTE and FINISH: accepted in STREAM only. -/
def acceptStream : Ctl → Acceptance
  | .stream => .performs
  | .idle | .ready | .done => .sequence
  | .error => .ignored

/-- R152's table, row by row. -/
def accepts : Instr → Ctl → Acceptance
  | .nop => acceptNop
  | .sreset => acceptSreset
  | .ldlen _ _ => acceptIdle
  | .ldleaf _ _ => acceptIdle
  | .ldint _ _ _ => acceptIdle
  | .derive => acceptIdle
  | .build => acceptIdle
  | .header => acceptHeader
  | .wrbit _ => acceptWrbit
  | .byte _ => acceptStream
  | .finish => acceptStream

/-- The three outcomes of a step of HUFFENC. -/
abbrev StepResult := Host.Outcome State Fault Refusal

/-- `raise Error(class, sub, arg)` during the execution of the command word `w` (R280): the error is
latched and STATE becomes ERROR; nothing else changes. This is how HUFFENC takes an exception: no
handler runs and no address is saved. -/
def raiseError (w : Word) (c : ErrorCause) (s : State) : State :=
  { s with
    state := .error
    errcode := c.errcode
    errsub := c.errsub
    errarg := c.errarg
    errcmdreg := w }

/-- `Reset()` (R310): every piece of HUFFENC state takes its value of R55, undelivered bytes are
discarded, and the host's side keeps what it has (R157, R312). It is the only way out of ERROR
(R284). -/
def resetCore (s : State) : State := { State.reset with host := s.host }

/-- The frame of `Execute(w)` around one command (R150): ignored in ERROR, Error(SEQUENCE, 1, STATE) in
a state that does not accept it, and otherwise the command's own effect, which ends in a state or in
an error raised at a state. A command's word is `encode i` (log 7). -/
def perform (i : Instr) (s : State) (effect : State → Except (ErrorCause × State) State) : StepResult :=
  match accepts i s.state with
  | .ignored => .next s
  | .sequence => .next (raiseError (encode i) (.wrongState s.state) s)
  | .performs =>
    match effect s with
    | .ok s' => .next s'
    | .error (c, s') => .next (raiseError (encode i) c s')

/-- A check that raises before any effect of the command: the error is raised at the state `s` the
command found (R151). -/
def checked {α : Type} (s : State) (check : Except ErrorCause α) :
    Except (ErrorCause × State) α :=
  match check with
  | .ok a => .ok a
  | .error c => .error (c, s)

/-- The entries of the length table with their symbols, s = 0, 1, ..., 256 (R17, R42): what the loops
`for s in 0..256` over LEN run through. -/
def lenEntries (len : Vector (BitVec 9) 257) : List (Symbol × BitVec 9) :=
  allSymbols.zip len.toList

/-- `EmitByte(x)` (R221): the only writer of `out` and OUTCNT. -/
def emitByte (s : State) (x : Byte) : State :=
  { s with out := s.out ++ [x], outcnt := s.outcnt + 1 }

/-- `PutBit(b)` (R222): the bit goes after those accumulated; the eighth bit emits the byte at once. -/
def putBit (s : State) (b : Bool) : State :=
  let acc := (s.acc <<< 1) ||| (BitVec.ofBool b).setWidth 8
  if s.bitcnt.toNat + 1 = 8 then
    { emitByte s acc with acc := 0, bitcnt := 0 }
  else
    { s with acc := acc, bitcnt := s.bitcnt + 1 }

/-- `PutBits(p)`: first bit first; `PutBits([])` does nothing (R223). -/
def putBits (s : State) (p : Bits) : State := p.foldl putBit s

/-- `CloseStream()` (R224): a partial byte is padded with zeros and emitted; an aligned stream gets no
padding byte. -/
def closeStream (s : State) : State :=
  if 0 < s.bitcnt.toNat then
    { emitByte s (s.acc <<< (8 - s.bitcnt.toNat)) with acc := 0, bitcnt := 0 }
  else s

end Sys2Proof.Machine
end

