-- ==== Sys2Proof/Machine/Bitpacker.lean ====
section
/-! DEFINITION. WRBIT (42_bitwriter.md R230). -/

namespace Sys2Proof.Machine

/-- WRBIT v: the value is checked, then PutBit(v) (R230). -/
def execWrbit (v : Byte) (s : State) : StepResult :=
  perform (.wrbit v) s fun s => do
    let b ← checked s (bitOperand v)
    .ok (putBit s b)

end Sys2Proof.Machine
end

