-- ==== Sys2Proof/Machine/Trees.lean ====
section
/-! DEFINITION. The two traversals of the canonicalizer, shared by DERIVE and BUILD:
`DeriveLengths` over the node arena (41_canonicalizer.md R182) and `CanonicalTree` with `Path` over
the length table (R191 to R193). -/

namespace Sys2Proof.Machine

/-- The scratch data of `DeriveLengths` (R182): the sets `visited` and `seen` and the table T. Depths
are naturals (R204a). -/
structure Walk where
  visited : List NodeIdx
  seen : List Symbol
  depths : Vector Nat 257
  deriving DecidableEq, Repr

/-- Nothing visited, nothing seen, all lengths 0 (R182). -/
def Walk.start : Walk := { visited := [], seen := [], depths := Vector.replicate 257 0 }

/-- `Visit(i, d)` (R182), pre-order and left first, with the first defect it meets. `fuel` bounds the
depth: a call with none left has 513 distinct nodes above it, so every node is visited already and
the answer is the one the visited check gives (log 10). -/
def visit (node : Vector Node 513) : Nat → NodeIdx → Nat → Walk → Except ErrorCause Walk
  | 0, i, _, _ => .error (.nodeRevisited i)
  | fuel + 1, i, d, k =>
    if i ∈ k.visited then .error (.nodeRevisited i)
    else
      match node[i] with
      | .empty => .error (.emptyNode i)
      | .leaf s =>
        if s ∈ k.seen then .error (.duplicateSymbol s)
        else .ok { visited := i :: k.visited, seen := s :: k.seen, depths := k.depths.set s d }
      | .internal l r =>
        match visit node fuel l (d + 1) { k with visited := i :: k.visited } with
        | .error e => .error e
        | .ok k' => visit node fuel r (d + 1) k'

/-- `DeriveLengths()` (R182): the root must be internal; then the walk from NODE[0]. -/
def deriveDepths (node : Vector Node 513) : Except ErrorCause (Vector Nat 257) :=
  match node[Config.ROOT] with
  | .internal _ _ => (visit node Config.NMAX Config.ROOT 0 Walk.start).map Walk.depths
  | .empty | .leaf _ => .error .rootNotInternal

/-- The table DERIVE commits: 9-bit entries (R42, R181); every depth that is committed is at most 256
(R184c). -/
def toLengths (depths : Vector Nat 257) : Vector (BitVec 9) 257 :=
  Vector.ofFn fun s => BitVec.ofNat 9 depths[s]

/-- M, the maximum observed length (R191). -/
def maxLength (len : Vector (BitVec 9) 257) : Nat :=
  (lenEntries len).foldl (fun m e => max m e.2.toNat) 0

/-- `leaves` of level L: the symbols of that length, in increasing order (R191). -/
def leavesAt (len : Vector (BitVec 9) 257) (L : Nat) : List Tree :=
  ((lenEntries len).filter fun e => e.2.toNat = L).map fun e => .leaf e.1

/-- Pairing left to right: the earlier node of each pair is the left child (R191, R192). -/
def pairUp : List Tree → List Tree
  | a :: b :: rest => .node a b :: pairUp rest
  | _ => []

/-- The loop `for L in M downto 1` of `CanonicalTree` (R191): internal nodes come before leaves. -/
def buildLevels (len : Vector (BitVec 9) 257) : Nat → List Tree → Except ErrorCause (List Tree)
  | 0, carried => .ok carried
  | L + 1, carried =>
    let lst := carried ++ leavesAt len (L + 1)
    if lst.length % 2 = 1 then .error (.oddLevel (L + 1))
    else buildLevels len L (pairUp lst)

/-- `CanonicalTree(LEN)` (R191): exactly one node must remain after level 1. -/
def canonicalTree (len : Vector (BitVec 9) 257) : Except ErrorCause Tree :=
  match buildLevels len (maxLength len) [] with
  | .error e => .error e
  | .ok [t] => .ok t
  | .ok carried => .error (.rootCount carried.length)

/-- `Path(T, s)`, `none` where the tree has no leaf for the symbol (R193). -/
def path : Tree → Symbol → Option Bits
  | .leaf t, s => if t = s then some [] else none
  | .node a b, s =>
    match path a s with
    | some p => some (false :: p)
    | none => (path b s).map (true :: ·)

/-- The code table read off a tree: `CODE[s] = Path(T, s)`, or [] where there is none (R193). -/
def codeTable (t : Tree) : Vector Bits 257 :=
  Vector.ofFn fun s => (path t s).getD []

end Sys2Proof.Machine
end

