-- ==== Sys2Proof/Machine/Canonicalizer.lean ====
section
/-! DEFINITION. DERIVE and BUILD (41_canonicalizer.md R181, R190). -/

namespace Sys2Proof.Machine

/-- DERIVE: LEN ← DeriveLengths(), all 257 entries or, on a defect, none (R181, R183). -/
def execDerive (s : State) : StepResult :=
  perform .derive s fun s => do
    let depths ← checked s (deriveDepths s.node)
    .ok { s with len := toLengths depths }

/-- BUILD: the canonical tree of LEN, CODE read off it, STATE ← READY (R190). -/
def execBuild (s : State) : StepResult :=
  perform .build s fun s => do
    let t ← checked s (canonicalTree s.len)
    .ok { s with tree := some t, code := codeTable t, state := .ready }

end Sys2Proof.Machine
end

