-- ==== Sys2Proof/Machine/Control.lean ====
section
/-! DEFINITION. The control commands NOP and SRESET (40_load_and_control.md R155, R157). -/

namespace Sys2Proof.Machine

/-- NOP: nothing (R155). -/
def execNop (s : State) : StepResult :=
  perform .nop s fun s => .ok s

/-- SRESET: `Reset()`, in every state (R157). -/
def execSreset (s : State) : StepResult :=
  perform .sreset s fun s => .ok (resetCore s)

end Sys2Proof.Machine
end

