-- ==== Sys2Proof/Machine/Encoder.lean ====
section
/-! DEFINITION. HEADER, BYTE and FINISH (43_encoder.md R241, R245, R250). -/

namespace Sys2Proof.Machine

/-- The loop of HEADER (R241): each entry is checked as it is written, so a failing symbol raises at
the state that already holds the bits of the entries before it. -/
def headerEntries : List (Symbol × BitVec 9) → State → Except (ErrorCause × State) State
  | [], s => .ok s
  | (sym, len) :: rest, s =>
    if Config.LEN_LIMIT ≤ len.toNat then .error (.lengthTooLong sym, s)
    else headerEntries rest (putBits s (readAsCode (len.setWidth 8)))

/-- HEADER: the 257 length entries, then STATE ← STREAM (R241). -/
def execHeader (s : State) : StepResult :=
  perform .header s fun s => do
    let s' ← headerEntries (lenEntries s.len) s
    .ok { s' with state := .stream }

/-- The check of BYTE and FINISH that a symbol has a code (R245, R250). -/
def codeOf (s : State) (sym : Symbol) : Except ErrorCause Bits :=
  if s.len[sym] = 0 then .error (.noCode sym) else .ok s.code[sym]

/-- BYTE b: the code of the byte's symbol (R245). -/
def execByte (b : Byte) (s : State) : StepResult :=
  perform (.byte b) s fun s => do
    let p ← checked s (codeOf s (byteSymbol b))
    .ok (putBits s p)

/-- FINISH: the end-of-stream code, then the stream is closed and STATE ← DONE (R250). -/
def execFinish (s : State) : StepResult :=
  perform .finish s fun s => do
    let p ← checked s (codeOf s Config.EOS)
    .ok { closeStream (putBits s p) with state := .done }

end Sys2Proof.Machine
end

