-- ==== Sys2Proof/Machine/Loads.lean ====
section
/-! DEFINITION. The table loads LDLEN, LDLEAF and LDINT (40_load_and_control.md R160, R165, R170). The
operand checks run in the order the rules list them, before the one table entry is written. -/

namespace Sys2Proof.Machine

/-- LDLEN sym, len: LEN[sym] ← len (R160). -/
def execLdlen (sym : Nat) (len : BitVec 9) (s : State) : StepResult :=
  perform (.ldlen sym len) s fun s => do
    let sym ← checked s (symOperand sym)
    .ok { s with len := s.len.set sym len }

/-- LDLEAF idx, sym: NODE[idx] ← Leaf(sym); the index is checked first (R165). -/
def execLdleaf (idx sym : Nat) (s : State) : StepResult :=
  perform (.ldleaf idx sym) s fun s => do
    let idx ← checked s (idxOperand idx)
    let sym ← checked s (symOperand sym)
    .ok { s with node := s.node.set idx (.leaf sym) }

/-- LDINT idx, left, right: NODE[idx] ← Internal(left, right); checked in the order idx, left, right
(R170). -/
def execLdint (idx left right : Nat) (s : State) : StepResult :=
  perform (.ldint idx left right) s fun s => do
    let idx ← checked s (idxOperand idx)
    let left ← checked s (idxOperand left)
    let right ← checked s (idxOperand right)
    .ok { s with node := s.node.set idx (.internal left right) }

end Sys2Proof.Machine
end

