-- ==== Sys2Proof/Machine/Dispatch.lean ====
section
/-! DEFINITION. One arm per command: `perform c` of 40_load_and_control.md R150, with the acceptance
check of R152 in each meaning. -/

namespace Sys2Proof.Machine

def exec (i : Instr) (s : State) : Host.Outcome State Fault Refusal :=
  match i with
  | .nop => Sys2Proof.Machine.execNop s
  | .ldlen sym len => Sys2Proof.Machine.execLdlen sym len s
  | .ldleaf idx sym => Sys2Proof.Machine.execLdleaf idx sym s
  | .derive => Sys2Proof.Machine.execDerive s
  | .build => Sys2Proof.Machine.execBuild s
  | .header => Sys2Proof.Machine.execHeader s
  | .byte b => Sys2Proof.Machine.execByte b s
  | .finish => Sys2Proof.Machine.execFinish s
  | .wrbit v => Sys2Proof.Machine.execWrbit v s
  | .sreset => Sys2Proof.Machine.execSreset s
  | .ldint idx left right => Sys2Proof.Machine.execLdint idx left right s

end Sys2Proof.Machine
end

