-- ==== Sys2Proof/Machine/Execute.lean ====
section
/-! DEFINITION. What a step does with the host's next action: executing a word written to CMD
(40_load_and_control.md R150), the other bus accesses (20_memory.md R84, R89), taking an output byte
(R82), and the hardware reset (70_reset_and_hazards.md R310). -/

namespace Sys2Proof.Machine

/-- The error an illegal word raises (30_encoding.md R120, R121, R122). -/
def illegalCause : IllegalWord → ErrorCause
  | .reservedOpcode op => .reservedOpcode op
  | .reservedBits op => .reservedBits op

/-- `Execute(w)` (R150). In ERROR only the word of SRESET does anything (R283); the states that do not
accept a command are told apart inside `exec`. -/
def executeWord (w : Word) (s : State) : StepResult :=
  if s.state = .error then
    if w = 0xB0000000#32 then .next (resetCore s) else .next s
  else
    match decode w with
    | .illegal v => .next (raiseError w (illegalCause v) s)
    | .command i => exec i s

/-- A bus write (R33, R35, R84): a write to CMD executes its word, a write anywhere else is ignored, and
an access that is not admitted has no step (R89). -/
def busWrite (bytes offset : Nat) (data : Word) (s : State) : StepResult :=
  if admitted bytes offset then
    if offset = 0x04 then executeWord data s else .next s
  else .fault .busAccessNotAdmitted

/-- A bus read (R84, R91): the register's value reaches the host and nothing of HUFFENC changes. -/
def busRead (bytes offset : Nat) (s : State) : StepResult :=
  if admitted bytes offset then
    .next { s with host := { s.host with lastRead := some (readReg s offset) } }
  else .fault .busAccessNotAdmitted

/-- The sink takes the oldest undelivered byte; while none waits it takes nothing (R82). -/
def takeByte (s : State) : State :=
  match s.out[s.delivered]? with
  | some x =>
    { s with
      delivered := s.delivered + 1
      host := { s.host with received := s.host.received ++ [x] } }
  | none => s

/-- One action of the host (80_host_interface.md R340). -/
def hostStep (a : HostAction) (s : State) : StepResult :=
  match a with
  | .busWrite bytes offset data => busWrite bytes offset data s
  | .busRead bytes offset => busRead bytes offset s
  | .takeByte => .next (takeByte s)
  | .hardReset => .next (resetCore s)

/-- The state with the host's remaining actions `rest`. -/
def withQueue (s : State) (rest : List HostAction) : State :=
  { s with host := { s.host with queue := rest } }

/-- The core performs the host's next action, in the host's order (R93); while there is none it waits
and holds all its state (R295, R311). -/
def nextAction (s : State) : StepResult :=
  match s.host.queue with
  | [] => .next s
  | a :: rest => hostStep a (withQueue s rest)

/-- The host's next action is to write the word to CMD: this is where the machine gets its next
command, for it fetches none (R32; log 1, log 12). -/
def queueCommand (s : State) (w : Word) : State :=
  withQueue s (.busWrite 4 0x04 w :: s.host.queue)

end Sys2Proof.Machine
end

