-- ==== Sys2Proof/Machine/Step.lean ====
section
/-! DEFINITION. The step function: the complete execution of one action of the host, a command word
among them (00_scope.md R7, 20_memory.md R93). -/

namespace Sys2Proof.Machine

/-- One step (R7). -/
def step (s : State) : Host.Outcome State Fault Refusal := nextAction s

/-- The state with the table's bits `w` as the word the host writes to CMD next (log 12). -/
def State.withFetchWord (s : State) (nbits w : Nat) : State :=
  queueCommand s (BitVec.ofNat 32 (w % 2 ^ nbits))

end Sys2Proof.Machine
end

