-- ==== Sys2Proof/Machine/Assembler.lean ====
section
/-! DEFINITION. The assembler of 30_encoding.md section 5: the line syntax (R126, R127), the
pseudo-instructions (R128 to R130) and the words of a program. Lines are lists of characters. -/

namespace Sys2Proof.Machine

/-- A line of a program: a command, or a pseudo-instruction (R126, R128 to R130). -/
inductive AsmLine where
  | command (i : Instr)
  /-- BYTES b1, ..., bk or BYTES "text" (R128). -/
  | bytes (bs : List Byte)
  /-- LDLENS s1:n1, ..., sk:nk (R129). -/
  | ldlens (entries : List (Nat × BitVec 9))
  /-- WRBITS "b1...bk" (R130). -/
  | wrbits (bits : Bits)
  deriving DecidableEq, Repr

/-- The commands a line stands for, in order (R128 to R130). -/
def AsmLine.expand : AsmLine → List Instr
  | .command i => [i]
  | .bytes bs => bs.map .byte
  | .ldlens entries => entries.map fun e => .ldlen e.1 e.2
  | .wrbits bits => bits.map fun b => .wrbit (if b then 1 else 0)

/-- The words of a line; an operand that does not fit its field is refused (R126). -/
def AsmLine.assemble (l : AsmLine) : Option (List Word) :=
  if l.expand.all Instr.wellFormed then some (l.expand.map encode) else none

/-- The tokens of a line (R126, R127, R129). -/
inductive AsmToken where
  | name (cs : List Char)
  | number (n : Nat)
  | text (cs : List Char)
  | comma
  | colon
  deriving DecidableEq, Repr

/-- Where the scanner stands in a line; the characters read so far are held newest first. -/
inductive ScanState where
  | between
  | word (cs : List Char)
  | text (cs : List Char)
  | quote
  | quoted (c : Char)
  | comment
  | bad
  deriving DecidableEq, Repr

/-- The value of a digit in base 10 or 16 (R126). -/
def digitValue (c : Char) : Option Nat :=
  if '0' ≤ c ∧ c ≤ '9' then some (c.toNat - 48)
  else if 'A' ≤ c ∧ c ≤ 'F' then some (c.toNat - 55)
  else if 'a' ≤ c ∧ c ≤ 'f' then some (c.toNat - 87)
  else none

/-- A digit sequence as a number in a base, `none` for a character that is no digit of it. -/
def numeral (base : Nat) (cs : List Char) : Option Nat :=
  cs.foldl (fun v c =>
    match v, digitValue c with
    | some v, some d => if d < base then some (v * base + d) else none
    | _, _ => none) (some 0)

/-- The token of a word: a hexadecimal number, a decimal number, or a name (R126). -/
def wordToken (cs : List Char) : AsmToken :=
  match cs with
  | '0' :: 'x' :: d :: ds =>
    match numeral 16 (d :: ds) with
    | some n => .number n
    | none => .name cs
  | _ =>
    match numeral 10 cs with
    | some n => .number n
    | none => .name cs

/-- A character of a name or a number. -/
def isWordChar (c : Char) : Bool :=
  decide ('0' ≤ c ∧ c ≤ '9') || decide ('A' ≤ c ∧ c ≤ 'Z') || decide ('a' ≤ c ∧ c ≤ 'z')

/-- An ASCII character, the only kind with a byte value (R126, R128). -/
def isAscii (c : Char) : Bool := decide (c.toNat < 128)

/-- A character read between two tokens; the tokens read so far are held newest first. -/
def scanBetween (toks : List AsmToken) (c : Char) : ScanState × List AsmToken :=
  if c = ';' then (.comment, toks)
  else if c = ' ' ∨ c = '\t' then (.between, toks)
  else if c = ',' then (.between, .comma :: toks)
  else if c = ':' then (.between, .colon :: toks)
  else if c = '"' then (.text [], toks)
  else if c = '\'' then (.quote, toks)
  else if isWordChar c then (.word [c], toks)
  else (.bad, toks)

/-- One character of a line (R126): a semicolon outside a literal starts a comment. -/
def scanStep (st : ScanState × List AsmToken) (c : Char) : ScanState × List AsmToken :=
  match st.1 with
  | .between => scanBetween st.2 c
  | .word cs =>
    if isWordChar c then (.word (c :: cs), st.2) else scanBetween (wordToken cs.reverse :: st.2) c
  | .text cs =>
    if c = '"' then (.between, .text cs.reverse :: st.2)
    else if isAscii c then (.text (c :: cs), st.2)
    else (.bad, st.2)
  | .quote => if isAscii c then (.quoted c, st.2) else (.bad, st.2)
  | .quoted d => if c = '\'' then (.between, .number d.toNat :: st.2) else (.bad, st.2)
  | .comment => (.comment, st.2)
  | .bad => (.bad, st.2)

/-- The tokens of a line, or `none` for a line with a malformed or unfinished token. -/
def scanLine (line : List Char) : Option (List AsmToken) :=
  match line.foldl scanStep (.between, []) with
  | (.between, toks) => some toks.reverse
  | (.comment, toks) => some toks.reverse
  | (.word cs, toks) => some (wordToken cs.reverse :: toks).reverse
  | _ => none

/-- The tokens between commas; there is no operand list with an empty place. -/
def splitCommas : List AsmToken → List (List AsmToken)
  | [] => [[]]
  | .comma :: rest => [] :: splitCommas rest
  | t :: rest =>
    match splitCommas rest with
    | [] => [[t]]
    | g :: gs => (t :: g) :: gs

/-- A plain numeric operand. -/
def numberOperand : List AsmToken → Option Nat
  | [.number n] => some n
  | _ => none

/-- A symbol operand: a number, or `EOS` for 256 (R127). -/
def symbolOperand : List AsmToken → Option Nat
  | [.name ['E', 'O', 'S']] => some 256
  | g => numberOperand g

/-- A number that fits a field of `w` bits, as that field's value (R126). -/
def fitField (w n : Nat) : Option (BitVec w) :=
  if n < 2 ^ w then some (BitVec.ofNat w n) else none

/-- One `s:n` entry of LDLENS (R129). -/
def ldlensEntry : List AsmToken → Option (Nat × BitVec 9)
  | [s, .colon, n] => do
    let s ← symbolOperand [s]
    let n ← numberOperand [n]
    let n ← fitField 9 n
    some (s, n)
  | _ => none

/-- One byte operand (R126, R128). -/
def byteOperand (g : List AsmToken) : Option Byte := numberOperand g >>= fitField 8

/-- One character of WRBITS (R130). -/
def wrbitsChar (c : Char) : Option Bool :=
  if c = '0' then some false else if c = '1' then some true else none

/-- A line by its mnemonic and operands, in the order of R127's table. -/
def parseCommand (name : List Char) (ops : List (List AsmToken)) : Option AsmLine :=
  match name, ops with
  | ['N', 'O', 'P'], [[]] => some (.command .nop)
  | ['D', 'E', 'R', 'I', 'V', 'E'], [[]] => some (.command .derive)
  | ['B', 'U', 'I', 'L', 'D'], [[]] => some (.command .build)
  | ['H', 'E', 'A', 'D', 'E', 'R'], [[]] => some (.command .header)
  | ['F', 'I', 'N', 'I', 'S', 'H'], [[]] => some (.command .finish)
  | ['S', 'R', 'E', 'S', 'E', 'T'], [[]] => some (.command .sreset)
  | ['L', 'D', 'L', 'E', 'N'], [s, n] => do
    let s ← symbolOperand s
    let n ← numberOperand n
    let n ← fitField 9 n
    some (.command (.ldlen s n))
  | ['L', 'D', 'L', 'E', 'A', 'F'], [i, s] => do
    let i ← numberOperand i
    let s ← symbolOperand s
    some (.command (.ldleaf i s))
  | ['L', 'D', 'I', 'N', 'T'], [i, l, r] => do
    let i ← numberOperand i
    let l ← numberOperand l
    let r ← numberOperand r
    some (.command (.ldint i l r))
  | ['B', 'Y', 'T', 'E'], [b] => (byteOperand b).map fun b => .command (.byte b)
  | ['W', 'R', 'B', 'I', 'T'], [v] => (byteOperand v).map fun v => .command (.wrbit v)
  | ['B', 'Y', 'T', 'E', 'S'], [[.text cs]] =>
    some (.bytes (cs.map fun c => BitVec.ofNat 8 c.toNat))
  | ['B', 'Y', 'T', 'E', 'S'], ops => (ops.mapM byteOperand).map .bytes
  | ['L', 'D', 'L', 'E', 'N', 'S'], ops => (ops.mapM ldlensEntry).map .ldlens
  | ['W', 'R', 'B', 'I', 'T', 'S'], [[.text cs]] => (cs.mapM wrbitsChar).map .wrbits
  | _, _ => none

/-- The words of one line of a program; an empty line has none (R126). -/
def assembleLine (line : List Char) : Option (List Word) := do
  let toks ← scanLine line
  match toks with
  | [] => some []
  | .name cs :: rest =>
    let l ← parseCommand cs (splitCommas rest)
    l.assemble
  | _ => none

end Sys2Proof.Machine
end

