-- ==== Sys2Proof/Machine/HostReference.lean ====
section
/-! DEFINITION. The host-side reference procedure (80_host_interface.md section 3): the FrequencyTable,
the Tree Builder, the arena layout of the test vectors and the host actions of a compression run (R345,
R350 to R354). It holds no HUFFENC state (00_scope.md R4). -/

namespace Sys2Proof.Machine

/-- `increment(symbol)` (R350). Counts are unbounded naturals (log 13). -/
def increment (f : Vector Nat 257) (s : Symbol) : Vector Nat 257 := f.set s (f[s] + 1)

/-- `Frequencies(data)`: one increment a byte, then the forced end-of-stream increment (R350). -/
def frequencies (data : List Byte) : Vector Nat 257 :=
  increment (data.foldl (fun f b => increment f (byteSymbol b)) (Vector.replicate 257 0)) Config.EOS

/-- An entry (freq, key, node) of the Tree Builder's queue (R351). -/
structure QueueEntry where
  freq : Nat
  key : Nat
  tree : Tree
  deriving DecidableEq, Repr

/-- The queue's order: frequency ascending, then key ascending (R351). -/
def QueueEntry.before (x y : QueueEntry) : Bool :=
  decide (x.freq < y.freq) || (decide (x.freq = y.freq) && decide (x.key < y.key))

/-- Insertion into the ordered queue, the least entry first (R351). -/
def enqueue (e : QueueEntry) : List QueueEntry → List QueueEntry
  | [] => [e]
  | x :: rest => if e.before x then e :: x :: rest else x :: enqueue e rest

/-- Step 1 of R351: a leaf for each symbol that occurs. -/
def leafQueue (f : Vector Nat 257) : List QueueEntry :=
  allSymbols.foldl
    (fun q s => if 0 < f[s] then enqueue { freq := f[s], key := s.val, tree := .leaf s } q else q) []

/-- Step 2 of R351: zero-frequency leaves in increasing symbol order while there are fewer than two
entries. -/
def padQueue (f : Vector Nat 257) : List Symbol → List QueueEntry → List QueueEntry
  | [], q => q
  | s :: rest, q =>
    if 2 ≤ q.length then q
    else padQueue f rest
      (if f[s] = 0 then enqueue { freq := 0, key := s.val, tree := .leaf s } q else q)

/-- The entry that replaces the two least: x, the first removed, is the left child (R351, R352; log
13). -/
def mergeEntries (x y : QueueEntry) : QueueEntry where
  freq := x.freq + y.freq
  key := min x.key y.key
  tree := .node x.tree y.tree

/-- Step 3 of R351, once per unit of `fuel`: the two least entries are merged while there are two. -/
def mergeQueue : Nat → List QueueEntry → List QueueEntry
  | fuel + 1, x :: y :: rest => mergeQueue fuel (enqueue (mergeEntries x y) rest)
  | _, q => q

/-- `BuildTree(f)` (R351). Each merge shortens the queue by one, so its length is fuel enough; the two
steps before it leave at least two entries, so one entry is left at the end. -/
def buildTree (f : Vector Nat 257) : Option Tree :=
  let q := padQueue f allSymbols (leafQueue f)
  match mergeQueue q.length q with
  | [e] => some e.tree
  | _ => none

/-- The symbols of the leaves, left to right. -/
def Tree.symbols : Tree → List Symbol
  | .leaf s => [s]
  | .node a b => a.symbols ++ b.symbols

/-- The depth of a tree. -/
def Tree.depth : Tree → Nat
  | .leaf _ => 0
  | .node a b => max a.depth b.depth + 1

/-- One depth of the breadth-first layout: the commands that load the nodes of this depth, left to
right, and the nodes of the next depth with the indices that follow (R353). -/
def loadLevel : List (Nat × Tree) → Nat → List Instr × List (Nat × Tree)
  | [], _ => ([], [])
  | (idx, .leaf s) :: rest, next =>
    let r := loadLevel rest next
    (.ldleaf idx s.val :: r.1, r.2)
  | (idx, .node a b) :: rest, next =>
    let r := loadLevel rest (next + 2)
    (.ldint idx next (next + 1) :: r.1, (next, a) :: (next + 1, b) :: r.2)

/-- The depths from a given one on; `fuel` counts the depths left. -/
def loadLevels : Nat → List (Nat × Tree) → Nat → List Instr
  | 0, _, _ => []
  | fuel + 1, level, next =>
    let r := loadLevel level next
    r.1 ++ loadLevels fuel r.2 (next + r.2.length)

/-- Loading a tree into the arena in the breadth-first order of the test vectors: the root is 0, and
the nodes of each depth are numbered left to right after those of the depth above (R353). -/
def loadTree (t : Tree) : List Instr := loadLevels (t.depth + 1) [(0, t)] 1

/-- The depth of a symbol's leaf, 0 where there is none (R345). -/
def symbolDepth (t : Tree) (s : Symbol) : Nat := ((path t s).getD []).length

/-- The length path of R345: one LDLEN for each symbol of positive depth. -/
def loadLengths (t : Tree) : List Instr :=
  (allSymbols.filter fun s => 0 < symbolDepth t s).map fun s =>
    .ldlen s.val (BitVec.ofNat 9 (symbolDepth t s))

/-- The commands after the loads: BUILD, HEADER, one BYTE per input byte, FINISH (R316, R345). -/
def encodeCommands (data : List Byte) : List Instr :=
  [.build, .header] ++ data.map .byte ++ [.finish]

/-- The two ways R345 starts a run: the word of SRESET, or the hardware reset. -/
inductive RunStart where
  | sreset
  | hardReset
  deriving DecidableEq, Repr

/-- The two load paths of R345. -/
inductive LoadPath where
  /-- The tree goes into NODE, and DERIVE takes the lengths from it. -/
  | tree
  /-- The host loads the depths with LDLEN. -/
  | lengths
  deriving DecidableEq, Repr

/-- The commands that bring the lengths of a tree into LEN along a load path (R345). -/
def loadCommands : LoadPath → Tree → List Instr
  | .tree, t => loadTree t ++ [.derive]
  | .lengths, t => loadLengths t

/-- Writing the word of a command to CMD (R35). -/
def issueCommand (i : Instr) : HostAction := .busWrite 4 0x04 (encode i)

/-- The first action of a run (R345). -/
def RunStart.action : RunStart → HostAction
  | .sreset => issueCommand .sreset
  | .hardReset => .hardReset

/-- Reading STATUS. It returns the state after the last completed command (20_memory.md R91), so one
read is the "wait for STATUS" of R345. -/
def readStatus : HostAction := .busRead 4 0x08

/-- STATUS.STATE == DONE, of a word read from STATUS (R36, R345). -/
def reportsDone (status : Word) : Bool := field status 2 0 == Ctl.done.number

/-- `Compress(data)` (R345): the start, the loads along one of the two paths, BUILD, HEADER, the bytes,
FINISH, and the read of STATUS. -/
def compress (start : RunStart) (load : LoadPath) (data : List Byte) : Option (List HostAction) :=
  (buildTree (frequencies data)).map fun t =>
    start.action :: (loadCommands load t ++ encodeCommands data).map issueCommand ++ [readStatus]

/-- `Compress(data)` along the tree path (R345). -/
def compressByTree (start : RunStart) (data : List Byte) : Option (List HostAction) :=
  compress start .tree data

/-- `Compress(data)` along the length path (R345). -/
def compressByLengths (start : RunStart) (data : List Byte) : Option (List HostAction) :=
  compress start .lengths data

end Sys2Proof.Machine
end

