-- ==== Sys2Proof/Machine/Stream.lean ====
section
/-! DEFINITION. The serialized format, apart from the machine that writes it: the packing of bits into
bytes (42_bitwriter.md R225, R226), the completed stream (43_encoder.md R240, R253), and the three
steps of a decoder that R255 gives. -/

namespace Sys2Proof.Machine

/-- A bit sequence read as a number, most significant bit first (R15). -/
def bitsToNat (p : Bits) : Nat := p.foldl (fun v b => 2 * v + b.toNat) 0

/-- Up to 8 bits as a byte, the first of them bit 7, zero-padded in the low positions (R225, R226). -/
def byteOfBits (p : Bits) : Byte :=
  BitVec.ofNat 8 (bitsToNat (p ++ List.replicate (8 - p.length) false))

/-- `pack(p)`: the ceil(|p|/8) bytes of R225, zero-padded (R226, R253). -/
def pack (p : Bits) : List Byte :=
  (List.range ((p.length + 7) / 8)).map fun k => byteOfBits ((p.drop (8 * k)).take 8)

/-- The bits of a byte sequence, bit 7 of each byte first (R83). -/
def unpack (bytes : List Byte) : Bits := bytes.flatMap readAsCode

/-- The header entry of a length: its low 8 bits, bit 7 first (R241). -/
def headerBits (len : Vector (BitVec 9) 257) : Bits :=
  (lenEntries len).flatMap fun e => readAsCode (e.2.setWidth 8)

/-- The payload: the codes of the input bytes in order, then the end-of-stream code (R240). -/
def payloadBits (code : Vector Bits 257) (data : List Byte) : Bits :=
  (data.flatMap fun b => code[byteSymbol b]) ++ code[Config.EOS]

/-- What a stream needs beside a BUILD that succeeds (R253): every length is below 256, and EOS and
every input byte have a code. -/
def encodable (len : Vector (BitVec 9) 257) (data : List Byte) : Bool :=
  (allSymbols.all fun s => decide (len[s].toNat < Config.LEN_LIMIT)) &&
  decide (len[Config.EOS] ≠ 0) && data.all fun b => decide (len[byteSymbol b] ≠ 0)

/-- `Encode(LEN, b_1..b_n)`, where it exists (R253). CODE is the one of `CanonicalTree(LEN)`. -/
def encodeStream (len : Vector (BitVec 9) 257) (data : List Byte) : Option (List Byte) :=
  if encodable len data then
    match canonicalTree len with
    | .ok t => some (pack (headerBits len ++ payloadBits (codeTable t) data))
    | .error _ => none
  else none

/-- The first step of R255: the 257 header bytes as a length table. -/
def readHeader (bytes : List Byte) : Vector (BitVec 9) 257 :=
  Vector.ofFn fun s => (bytes.getD s.val 0).setWidth 9

/-- Following bits from a node down to a leaf, and the bits that remain (R255). -/
def descend : Tree → Bits → Option (Symbol × Bits)
  | .leaf s, p => some (s, p)
  | .node a _, false :: p => descend a p
  | .node _ b, true :: p => descend b p
  | .node _ _, [] => none

/-- The third step of R255: a symbol at each leaf until EOS; `fuel` bounds the number of symbols. -/
def decodePayload (t : Tree) : Nat → Bits → Option (List Byte)
  | 0, _ => none
  | fuel + 1, p =>
    match descend t p with
    | none => none
    | some (s, rest) =>
      if s = Config.EOS then some []
      else (decodePayload t fuel rest).map (BitVec.ofNat 8 s.val :: ·)

/-- The decoder R255 describes: read LEN, build `CanonicalTree(LEN)`, follow the payload bits to EOS.
Every symbol takes at least one bit, so the number of bits is fuel enough. -/
def decodeStream (bytes : List Byte) : Option (List Byte) :=
  match canonicalTree (readHeader bytes) with
  | .ok t =>
    let p := unpack (bytes.drop Config.HDR_BYTES)
    decodePayload t (p.length + 1) p
  | .error _ => none

end Sys2Proof.Machine
end

