-- ==== Sys2Proof/Safety.lean ====
section
/-! DEFINITION. The terms in which claims about HUFFENC are made: what a run shows (00_scope.md R8), when
it has ended and when it succeeded (80_host_interface.md R345, R346), which errors a command raises
(60_exceptions.md R272), the invariants of 10_state.md R50, Kraft equality (41_canonicalizer.md R196),
R182's `Visit`, and the tree an arena holds (R184). -/

namespace Sys2Proof.Safety

open Sys2Proof.Machine

/-- The observation of a run (R8): the emitted bytes and the host-visible registers. -/
structure Observation where
  out : List Byte
  id : Word
  status : Word
  errinfo : Word
  errcmd : Word
  outcount : Word
  deriving DecidableEq, Repr

/-- What can be observed of a state (R8). -/
def observe (s : State) : Observation where
  out := s.out
  id := readReg s 0x00
  status := readReg s 0x08
  errinfo := readReg s 0x0C
  errcmd := readReg s 0x10
  outcount := readReg s 0x14

/-- The run has ended (R346): STATE is DONE or ERROR and the sink has received every byte. -/
def ended (s : State) : Bool :=
  (s.state == .done || s.state == .error) && s.delivered == s.out.length

/-- What the host concludes at the end of `Compress` (R345): the last read, that of STATUS, returned
STATE = DONE. Whether the sink has every byte by then is `ended` (R346). -/
def succeeded (s : State) : Bool := s.host.lastRead.any reportsDone

/-- A command that went from `s` to `t` waits for the sink when the bytes it leaves undelivered do not
fit the FIFO, unless the sink drains meanwhile (20_memory.md R82, 70_reset_and_hazards.md R322; log 4).
The step itself always completes. -/
def waitsForSink (t : State) : Prop := Config.OUT_FIFO_DEPTH < t.out.length - t.delivered

/-- A real host's counters hold the counts (R12, R350; log 13). -/
def countersHold (f : Vector Nat 257) : Prop := ∀ s : Symbol, f[s] < 2 ^ Config.FREQ_BITS

/-- R152's table by rows: the states in which a command performs. ERROR is in SRESET's row alone. -/
def acceptingStates : Instr → List Ctl
  | .nop => [.idle, .ready, .stream, .done]
  | .sreset => [.idle, .ready, .stream, .done, .error]
  | .ldlen _ _ | .ldleaf _ _ | .ldint _ _ _ | .derive | .build => [.idle]
  | .header => [.ready]
  | .wrbit _ => [.ready, .stream]
  | .byte _ | .finish => [.stream]

/-- Which error a command raises from a state, and the state at which it raises it: the Errors lines of
the commands' rules in 40_load_and_control.md to 43_encoder.md, with the operands as arguments. DERIVE,
BUILD and HEADER raise what their traversals answer (R182, R191, R241). -/
def Raised : Instr → State → ErrorCause → State → Prop
  | .nop, _, _, _ => False
  | .sreset, _, _, _ => False
  | .ldlen sym _, s, c, u => u = s ∧ 256 < sym ∧ c = .symbolRange sym
  | .ldleaf idx sym, s, c, u => u = s ∧ ((512 < idx ∧ c = .nodeRange idx) ∨
      (idx ≤ 512 ∧ 256 < sym ∧ c = .symbolRange sym))
  | .ldint idx left right, s, c, u => u = s ∧ ((512 < idx ∧ c = .nodeRange idx) ∨
      (idx ≤ 512 ∧ 512 < left ∧ c = .nodeRange left) ∨
      (idx ≤ 512 ∧ left ≤ 512 ∧ 512 < right ∧ c = .nodeRange right))
  | .derive, s, c, u => u = s ∧ deriveDepths s.node = .error c
  | .build, s, c, u => u = s ∧ canonicalTree s.len = .error c
  | .header, s, c, u => headerEntries (lenEntries s.len) s = .error (c, u)
  | .byte b, s, c, u => u = s ∧ s.len[byteSymbol b] = 0 ∧ c = .noCode (byteSymbol b)
  | .finish, s, c, u => u = s ∧ s.len[Config.EOS] = 0 ∧ c = .noCode Config.EOS
  | .wrbit v, s, c, u => u = s ∧ 1 < v.toNat ∧ c = .bitValue v

/-- The Kraft sum: the sum of 2^(-LEN[s]) over the symbols of non-zero length, in exact rational
arithmetic (R18, R196). -/
def kraftSum (len : Vector (BitVec 9) 257) : ℚ :=
  ((lenEntries len).map fun e => if e.2 = 0 then 0 else 1 / 2 ^ e.2.toNat).sum

/-- The bits of the partial byte, oldest first (10_state.md R46). -/
def pendingBits (s : State) : Bits :=
  (List.range s.bitcnt.toNat).reverse.map fun k => s.acc.getLsbD k

/-- Every bit passed to PutBit since reset, as `out` and the partial byte hold them (R225). -/
def bitStream (s : State) : Bits := unpack s.out ++ pendingBits s

/-- The effect of a command that only passes bits on, as a relation between the state before and
after: the bits `p` are appended to the stream, OUTCNT counts the bytes emitted, and nothing else but
ACC, BITCNT and `out` changes (R49, R220). -/
structure Appends (s : State) (p : Bits) (t : State) : Prop where
  stream : bitStream t = bitStream s ++ p
  outcnt : t.outcnt = s.outcnt + BitVec.ofNat 32 (t.out.length - s.out.length)
  history : s.out <+: t.out
  partialByte : s.acc.toNat < 2 ^ s.bitcnt.toNat → t.acc.toNat < 2 ^ t.bitcnt.toNat
  frame : t = { s with acc := t.acc, bitcnt := t.bitcnt, out := t.out, outcnt := t.outcnt }

/-- The number of symbols of a length: c_L of R194. -/
def lengthCount (len : Vector (BitVec 9) 257) (L : Nat) : Nat :=
  (allSymbols.filter fun s => len[s].toNat = L).length

/-- The rank of a symbol within its length class: r of R194. -/
def rank (len : Vector (BitVec 9) 257) (s : Symbol) : Nat :=
  (allSymbols.filter fun t => t < s ∧ len[t] = len[s]).length

/-- The sum over j > L of c_j * 2^(L - j), with M = 511 the largest length an entry can hold: I_L of
R194, as an exact rational. -/
def startCode (len : Vector (BitVec 9) 257) (L : Nat) : ℚ :=
  ((List.range 512).map fun j =>
    if L < j then (lengthCount len j : ℚ) * (2 ^ L / 2 ^ j) else 0).sum

/-- A tree with the arena index of each of its nodes: what the arena holds below a node (R184). -/
inductive ArenaTree where
  | leaf (idx : NodeIdx) (sym : Symbol)
  | node (idx : NodeIdx) (left right : ArenaTree)
  deriving DecidableEq, Repr

namespace ArenaTree

/-- The arena index of the root. -/
def root : ArenaTree → NodeIdx
  | .leaf idx _ => idx
  | .node idx _ _ => idx

/-- Every arena index of the tree. -/
def indices : ArenaTree → List NodeIdx
  | .leaf idx _ => [idx]
  | .node idx l r => idx :: (l.indices ++ r.indices)

/-- The leaves with their depths, from a root at depth `d`. -/
def leaves : ArenaTree → Nat → List (Symbol × Nat)
  | .leaf _ sym, d => [(sym, d)]
  | .node _ l r, d => l.leaves (d + 1) ++ r.leaves (d + 1)

/-- The tree without its arena indices. -/
def shape : ArenaTree → Tree
  | .leaf _ sym => .leaf sym
  | .node _ l r => .node l.shape r.shape

/-- The number of internal nodes. -/
def internals : ArenaTree → Nat
  | .leaf _ _ => 0
  | .node _ l r => l.internals + r.internals + 1

/-- The arena holds this tree, entry by entry. -/
def storedIn (node : Vector Node 513) : ArenaTree → Prop
  | .leaf idx sym => node[idx] = .leaf sym
  | .node idx l r => node[idx] = .internal l.root r.root ∧ l.storedIn node ∧ r.storedIn node

end ArenaTree

/-- The arena holds a proper tree at NODE[0]: the root is internal, no node is reached twice and the
leaves carry distinct symbols (R182, R184). -/
structure HoldsTree (node : Vector Node 513) (a : ArenaTree) : Prop where
  stored : a.storedIn node
  atRoot : a.root = Config.ROOT
  internal : 0 < a.internals
  noSharing : a.indices.Nodup
  distinctSymbols : ((a.leaves 0).map Prod.fst).Nodup

/-- `Visit(i, d)` as R182 writes it, a call of any depth, related to its outcome: the error it raises, or
the scratch data it leaves. The checks come in the rule's order, and the right child is visited with what
the left one left, only when that raised nothing. -/
inductive Visits (node : Vector Node 513) : NodeIdx → Nat → Walk → Except ErrorCause Walk → Prop where
  | revisited {i : NodeIdx} {d : Nat} {k : Walk} : i ∈ k.visited →
      Visits node i d k (.error (.nodeRevisited i))
  | empty {i : NodeIdx} {d : Nat} {k : Walk} : i ∉ k.visited → node[i] = .empty →
      Visits node i d k (.error (.emptyNode i))
  | duplicate {i : NodeIdx} {d : Nat} {k : Walk} {s : Symbol} : i ∉ k.visited → node[i] = .leaf s →
      s ∈ k.seen → Visits node i d k (.error (.duplicateSymbol s))
  | leaf {i : NodeIdx} {d : Nat} {k : Walk} {s : Symbol} : i ∉ k.visited → node[i] = .leaf s →
      s ∉ k.seen → Visits node i d k
        (.ok { visited := i :: k.visited, seen := s :: k.seen, depths := k.depths.set s d })
  | leftRaises {i l r : NodeIdx} {d : Nat} {k : Walk} {c : ErrorCause} : i ∉ k.visited →
      node[i] = .internal l r → Visits node l (d + 1) { k with visited := i :: k.visited } (.error c) →
      Visits node i d k (.error c)
  | leftThenRight {i l r : NodeIdx} {d : Nat} {k k' : Walk} {result : Except ErrorCause Walk} :
      i ∉ k.visited → node[i] = .internal l r →
      Visits node l (d + 1) { k with visited := i :: k.visited } (.ok k') →
      Visits node r (d + 1) k' result → Visits node i d k result

/-- The arena indices reachable from NODE[0] (R185). -/
inductive Reachable (node : Vector Node 513) : NodeIdx → Prop where
  | root : Reachable node Config.ROOT
  | left {i l r : NodeIdx} : Reachable node i → node[i] = .internal l r → Reachable node l
  | right {i l r : NodeIdx} : Reachable node i → node[i] = .internal l r → Reachable node r

/-- The invariants of R50, clause by clause, and what the model's own fields keep: the tree CODE is
read from (R45), the lengths after a completed HEADER (R200, R241), and the bytes the sink has
received (R82). -/
structure Inv (s : State) : Prop where
  /-- R50(a). -/
  errorIffCode : s.state = .error ↔ s.errcode ≠ 0
  /-- R50(b). -/
  latchClear : s.state ≠ .error → s.errsub = 0 ∧ s.errarg = 0 ∧ s.errcmdreg = 0
  /-- R50(c). -/
  partialByte : s.acc.toNat < 2 ^ s.bitcnt.toNat
  /-- R50(d). -/
  idleEmpty : s.state = .idle → s.bitcnt = 0 ∧ s.out = []
  /-- R50(e). -/
  doneAligned : s.state = .done → s.bitcnt = 0
  /-- R50(f). -/
  coded : s.state = .ready ∨ s.state = .stream ∨ s.state = .done →
    kraftSum s.len = 1 ∧ ∀ sym : Symbol, s.code[sym].length = s.len[sym].toNat
  /-- R50(g). -/
  outcount : s.outcnt = BitVec.ofNat 32 s.out.length
  /-- R45: CODE is read off the canonical tree of LEN. -/
  codeOfTree : s.state = .ready ∨ s.state = .stream ∨ s.state = .done →
    ∃ t, canonicalTree s.len = .ok t ∧ s.tree = some t ∧ s.code = codeTable t
  /-- R241: a completed HEADER has met no length of 256 or more. -/
  headerPassed : s.state = .stream ∨ s.state = .done →
    ∀ sym : Symbol, s.len[sym].toNat < Config.LEN_LIMIT
  /-- R82: the sink has received a prefix of `out`, after what it received in earlier runs. -/
  sinkPrefix : s.delivered ≤ s.out.length ∧
    ∃ earlier, s.host.received = earlier ++ s.out.take s.delivered

/-- The most bytes a command can emit (70_reset_and_hazards.md R323). -/
def emissionBound : Instr → Nat
  | .header => 257
  | .byte _ => 32
  | .finish => 33
  | .wrbit _ => 1
  | .nop | .sreset | .ldlen _ _ | .ldleaf _ _ | .ldint _ _ _ | .derive | .build => 0

/-- Executing commands one after another, as the host's words do (20_memory.md R93). -/
def runCommands : List Instr → State → StepResult
  | [], s => .next s
  | i :: rest, s =>
    match exec i s with
    | .next t => runCommands rest t
    | .fault e => .fault e
    | .refused e => .refused e

end Sys2Proof.Safety
end

