-- ==== Sys2Proof/Certificates/Slice0/Obligations.lean ====
section
/-! DEFINITION. The statements about HUFFENC for the provers. Each docstring names the rule of spec/ it
formalises. "t is a next state" always means that `exec` or `step` answers `.next t`. -/

open Sys2Proof Sys2Proof.Machine Sys2Proof.Safety

/-! ### Encoding -/

/-- R131: each of its eight lines assembles to the word beside it, and the word decodes to the command of
the line. -/
def Obligations.SpecExampleWordsDecode : Prop :=
  decode 0x10610001#32 = .command (.ldlen 97 1) ∧
  decode 0x11000003#32 = .command (.ldlen 256 3) ∧
  decode 0x20010061#32 = .command (.ldleaf 1 97) ∧
  decode 0x20050100#32 = .command (.ldleaf 5 256) ∧
  decode 0xC0000402#32 = .command (.ldint 0 1 2) ∧
  decode 0xE007FDFE#32 = .command (.ldint 512 511 510) ∧
  decode 0x60000072#32 = .command (.byte 114) ∧
  decode 0x80000001#32 = .command (.wrbit 1) ∧
  assembleLine ['L', 'D', 'L', 'E', 'N', ' ', '9', '7', ',', ' ', '1'] =
    some [0x10610001#32] ∧
  assembleLine ['L', 'D', 'L', 'E', 'N', ' ', 'E', 'O', 'S', ',', ' ', '3'] =
    some [0x11000003#32] ∧
  assembleLine ['L', 'D', 'L', 'E', 'A', 'F', ' ', '1', ',', ' ', '\'', 'a', '\''] =
    some [0x20010061#32] ∧
  assembleLine ['L', 'D', 'L', 'E', 'A', 'F', ' ', '5', ',', ' ', 'E', 'O', 'S'] =
    some [0x20050100#32] ∧
  assembleLine ['L', 'D', 'I', 'N', 'T', ' ', '0', ',', ' ', '1', ',', ' ', '2'] =
    some [0xC0000402#32] ∧
  assembleLine ['L', 'D', 'I', 'N', 'T', ' ', '5', '1', '2', ',', ' ', '5', '1', '1', ',', ' ', '5', '1', '0'] =
    some [0xE007FDFE#32] ∧
  assembleLine ['B', 'Y', 'T', 'E', ' ', '\'', 'r', '\''] =
    some [0x60000072#32] ∧
  assembleLine ['W', 'R', 'B', 'I', 'T', ' ', '1'] =
    some [0x80000001#32]

/-- Decoding the word of a well-formed command gives the command back, every operand at every value its
field admits (R111, R120). -/
def Obligations.DecodeOfEncodeIsIdentity : Prop :=
  ∀ i : Instr, i.wellFormed = true → decode (encode i) = .command i

/-- A word that decodes to a command is the word of that command, and the command is well-formed: each
command has exactly one word (R120, R123). -/
def Obligations.DecodedWordIsTheEncoding : Prop :=
  ∀ (w : Word) (i : Instr), decode w = .command i → i.wellFormed = true ∧ encode i = w

/-- R121: opcodes 0x9 and 0xA are illegal, with sub-cause 1 and w[31:28] as argument, and nothing of
the word executes. -/
def Obligations.ReservedOpcodesAreIllegal : Prop :=
  ∀ w : Word, field w 31 28 = 0x9 ∨ field w 31 28 = 0xA →
    decode w = .illegal (.reservedOpcode (field w 31 28)) ∧
    ∀ s : State, s.state ≠ .error →
      ∃ t, executeWord w s = .next t ∧ t = raiseError w (.reservedOpcode (field w 31 28)) s ∧
        t.errcode = 4 ∧ t.errsub = 1 ∧ t.errarg.toNat = field w 31 28

/-- R122: a defined opcode with a reserved field that is not all zeros is illegal, with sub-cause 2, in
every format but FI; nothing of the command executes. -/
def Obligations.NonzeroReservedBitsAreIllegal : Prop :=
  ∀ w : Word,
    (field w 31 28 ∈ [0x0, 0x3, 0x4, 0x5, 0x7, 0xB] ∧ field w 27 0 ≠ 0) ∨
    (field w 31 28 = 0x1 ∧ (field w 27 25 ≠ 0 ∨ field w 15 9 ≠ 0)) ∨
    (field w 31 28 = 0x2 ∧ (field w 27 26 ≠ 0 ∨ field w 15 9 ≠ 0)) ∨
    (field w 31 28 ∈ [0x6, 0x8] ∧ field w 27 8 ≠ 0) →
    decode w = .illegal (.reservedBits (field w 31 28)) ∧
    ∀ s : State, s.state ≠ .error →
      ∃ t, executeWord w s = .next t ∧ t = raiseError w (.reservedBits (field w 31 28)) s ∧
        t.errcode = 4 ∧ t.errsub = 2 ∧ t.errarg.toNat = field w 31 28

/-- The pseudo-instructions of R128 to R130 expand in order, and the rules' examples assemble to the
words they give. -/
def Obligations.PseudoInstructionsExpandInOrder : Prop :=
  (∀ bs : List Byte, (AsmLine.bytes bs).expand = bs.map Instr.byte) ∧
  (∀ es : List (Nat × BitVec 9),
    (AsmLine.ldlens es).expand = es.map fun e => Instr.ldlen e.1 e.2) ∧
  (∀ bits : Bits, (AsmLine.wrbits bits).expand = bits.map fun b => Instr.wrbit (if b then 1 else 0)) ∧
  assembleLine ['B', 'Y', 'T', 'E', 'S', ' ', '"', 'a', 'b', '"'] =
    some [0x60000061#32, 0x60000062#32] ∧
  assembleLine ['L', 'D', 'L', 'E', 'N', 'S', ' ', '0', ':', '1', ',', ' ', 'E', 'O', 'S', ':', '1'] =
    some [0x10000001#32, 0x11000001#32] ∧
  assembleLine ['W', 'R', 'B', 'I', 'T', 'S', ' ', '"', '1', '0', '"'] =
    some [0x80000001#32, 0x80000000#32]

/-! ### Steps, bus accesses and reset -/

/-- A step runs the decoded command: when the host's next action writes a word that decodes to a
command, the step is `exec` of it once the action is taken off the queue, in every state (R150). -/
def Obligations.StepRunsTheDecodedCommand : Prop :=
  ∀ (s : State) (w : Word) (i : Instr) (rest : List HostAction),
    s.host.queue = .busWrite 4 0x04 w :: rest → decode w = .command i →
    step s = exec i (withQueue s rest)

/-- With nothing from the host the core waits and holds all its state (R295, R311); that the host's
actions come from a queue in State is the model's choice (log 1). -/
def Obligations.WaitingCoreHoldsItsState : Prop :=
  ∀ s : State, s.host.queue = [] → step s = .next s

/-- Every command has a next state from every state, and so has every one of the 2^32 words (R123,
R340: "any word, the result is always defined"). -/
def Obligations.EveryWordHasANextState : Prop :=
  (∀ (i : Instr) (s : State), ∃ t, exec i s = .next t) ∧
  ∀ (w : Word) (s : State), ∃ t, executeWord w s = .next t

/-- R55: what reset leaves, piece by piece, and what the registers then read. -/
def Obligations.ResetLeavesEveryStatedValue : Prop :=
  State.reset.state = .idle ∧
  (∀ s : Symbol, State.reset.len[s] = 0) ∧
  (∀ i : NodeIdx, State.reset.node[i] = .empty) ∧
  (∀ s : Symbol, State.reset.code[s] = []) ∧
  State.reset.tree = none ∧ State.reset.acc = 0 ∧ State.reset.bitcnt = 0 ∧
  State.reset.errcode = 0 ∧ State.reset.errsub = 0 ∧ State.reset.errarg = 0 ∧
  State.reset.errcmdreg = 0 ∧ State.reset.outcnt = 0 ∧ State.reset.out = [] ∧
  observe State.reset =
    { out := [], id := 0x48554631, status := 0, errinfo := 0, errcmd := 0, outcount := 0 }

/-- R310: the hardware reset and the word of SRESET have the same effect, from every state: every piece
of HUFFENC state takes its reset value, undelivered bytes are discarded, and what the sink has received
stays with it. -/
def Obligations.BothResetsGiveTheResetState : Prop :=
  ∀ (s : State) (rest : List HostAction) (a : HostAction),
    a = .hardReset ∨ a = .busWrite 4 0x04 0xB0000000#32 → s.host.queue = a :: rest →
    ∃ t, step s = .next t ∧ t = { State.reset with host := { s.host with queue := rest } } ∧
      t.state = .idle ∧ (∀ sym : Symbol, t.len[sym] = 0 ∧ t.code[sym] = []) ∧
      (∀ i : NodeIdx, t.node[i] = .empty) ∧ t.acc = 0 ∧ t.bitcnt = 0 ∧
      t.errcode = 0 ∧ t.errsub = 0 ∧ t.errarg = 0 ∧ t.errcmdreg = 0 ∧ t.outcnt = 0 ∧ t.out = []

/-- R36: the STATUS word, field by field; ERR is 1 exactly in ERROR. -/
def Obligations.StatusHoldsItsFields : Prop :=
  ∀ s : State,
    field (readReg s 0x08) 2 0 =
      (match s.state with | .idle => 0 | .ready => 1 | .stream => 2 | .done => 3 | .error => 4) ∧
    (field (readReg s 0x08) 3 3 = 1 ↔ s.state = .error) ∧
    field (readReg s 0x08) 7 4 = s.errcode.toNat ∧
    field (readReg s 0x08) 10 8 = s.bitcnt.toNat ∧
    field (readReg s 0x08) 15 11 = 0 ∧
    field (readReg s 0x08) 23 16 = s.acc.toNat ∧
    field (readReg s 0x08) 31 24 = 0

/-- The other registers of the window (R33 to R35, R37 to R40): ID is hard-wired, CMD and the reserved
offsets read 0, ERRINFO holds its fields, ERRCMD and OUTCOUNT read their registers. -/
def Obligations.OtherRegistersRead : Prop :=
  ∀ s : State,
    readReg s 0x00 = 0x48554631#32 ∧ readReg s 0x04 = 0 ∧
    field (readReg s 0x0C) 9 0 = s.errarg.toNat ∧
    field (readReg s 0x0C) 11 10 = 0 ∧
    field (readReg s 0x0C) 15 12 = s.errsub.toNat ∧
    field (readReg s 0x0C) 31 16 = 0 ∧
    readReg s 0x10 = s.errcmdreg ∧ readReg s 0x14 = s.outcnt ∧
    ∀ offset, 0x18 ≤ offset → readReg s offset = 0

/-- R84: an admitted read returns the register and changes nothing of HUFFENC; reading again returns
the same; an admitted write has an effect only at CMD. -/
def Obligations.ReadsAndOtherWritesChangeNothing : Prop :=
  (∀ (s : State) (offset : Nat) (rest : List HostAction), offset % 4 = 0 → offset < 64 →
    s.host.queue = .busRead 4 offset :: rest →
    ∃ t, step s = .next t ∧ t.host.lastRead = some (readReg s offset) ∧
      readReg t offset = readReg s offset ∧ t = { s with host := t.host } ∧
      t.host.queue = rest ∧ t.host.received = s.host.received) ∧
  (∀ (s : State) (offset : Nat) (data : Word) (rest : List HostAction), offset % 4 = 0 → offset < 64 →
    offset ≠ 0x04 → s.host.queue = .busWrite 4 offset data :: rest →
    step s = .next (withQueue s rest))

/-- R89: only 32-bit accesses at multiples of 4 inside the window are admitted; any other has no step,
and no admitted access is stopped. -/
def Obligations.OnlyAlignedWordAccessesAreAdmitted : Prop :=
  ∀ (s : State) (bytes offset : Nat) (data : Word) (rest : List HostAction) (a : HostAction),
    a = .busRead bytes offset ∨ a = .busWrite bytes offset data → s.host.queue = a :: rest →
    ((bytes = 4 ∧ offset % 4 = 0 ∧ offset < 64) → ∃ t, step s = .next t) ∧
    (¬ (bytes = 4 ∧ offset % 4 = 0 ∧ offset < 64) → step s = .fault .busAccessNotAdmitted)

/-- R82: the sink takes the oldest undelivered byte, once. That a ready sink with no byte waiting takes
nothing and nothing changes is the model's choice (log 3, DEDUCED), no rule of the spec. -/
def Obligations.SinkTakesBytesInOrder : Prop :=
  ∀ (s : State) (rest : List HostAction), s.host.queue = .takeByte :: rest →
    (∀ h : s.delivered < s.out.length,
      step s = .next { s with
        delivered := s.delivered + 1
        host := { s.host with queue := rest, received := s.host.received ++ [s.out[s.delivered]] } }) ∧
    (s.out.length ≤ s.delivered → step s = .next (withQueue s rest))

/-! ### Errors -/

/-- R280: raising an error latches its class, sub-cause, argument and command word, enters ERROR and
changes nothing else; STATUS then reads STATE = 4, ERR = 1 and the class, with BITCNT and ACC
unchanged. -/
def Obligations.RaisingAnErrorLatchesIt : Prop :=
  ∀ (w : Word) (c : ErrorCause) (s : State),
    raiseError w c s =
      { s with state := .error, errcode := c.errcode, errsub := c.errsub, errarg := c.errarg,
               errcmdreg := w } ∧
    field (readReg (raiseError w c s) 0x08) 2 0 = 4 ∧
    field (readReg (raiseError w c s) 0x08) 3 3 = 1 ∧
    field (readReg (raiseError w c s) 0x08) 7 4 = c.errcode.toNat ∧
    field (readReg (raiseError w c s) 0x08) 10 8 = field (readReg s 0x08) 10 8 ∧
    field (readReg (raiseError w c s) 0x08) 23 16 = field (readReg s 0x08) 23 16 ∧
    readReg (raiseError w c s) 0x10 = w

/-- The numbers of the classes, sub-causes and arguments, row by row of R272's table, and of the
control states (R41, R271). -/
def Obligations.ErrorNumbersAreTheTables : Prop :=
  (∀ n, (ErrorCause.symbolRange n).errcode = 1 ∧ (ErrorCause.symbolRange n).errsub = 1 ∧
    (ErrorCause.symbolRange n).argument = n) ∧
  (∀ n, (ErrorCause.nodeRange n).errcode = 1 ∧ (ErrorCause.nodeRange n).errsub = 2 ∧
    (ErrorCause.nodeRange n).argument = n) ∧
  (∀ v, (ErrorCause.bitValue v).errcode = 1 ∧ (ErrorCause.bitValue v).errsub = 3 ∧
    (ErrorCause.bitValue v).argument = v.toNat) ∧
  (∀ s, (ErrorCause.noCode s).errcode = 1 ∧ (ErrorCause.noCode s).errsub = 4 ∧
    (ErrorCause.noCode s).argument = s.val) ∧
  (∀ s, (ErrorCause.lengthTooLong s).errcode = 2 ∧ (ErrorCause.lengthTooLong s).errsub = 1 ∧
    (ErrorCause.lengthTooLong s).argument = s.val) ∧
  (ErrorCause.rootNotInternal.errcode = 3 ∧ ErrorCause.rootNotInternal.errsub = 1 ∧
    ErrorCause.rootNotInternal.argument = 0) ∧
  (∀ i, (ErrorCause.emptyNode i).errcode = 3 ∧ (ErrorCause.emptyNode i).errsub = 2 ∧
    (ErrorCause.emptyNode i).argument = i.val) ∧
  (∀ i, (ErrorCause.nodeRevisited i).errcode = 3 ∧ (ErrorCause.nodeRevisited i).errsub = 3 ∧
    (ErrorCause.nodeRevisited i).argument = i.val) ∧
  (∀ s, (ErrorCause.duplicateSymbol s).errcode = 3 ∧ (ErrorCause.duplicateSymbol s).errsub = 4 ∧
    (ErrorCause.duplicateSymbol s).argument = s.val) ∧
  (∀ n, (ErrorCause.oddLevel n).errcode = 3 ∧ (ErrorCause.oddLevel n).errsub = 5 ∧
    (ErrorCause.oddLevel n).argument = n) ∧
  (∀ n, (ErrorCause.rootCount n).errcode = 3 ∧ (ErrorCause.rootCount n).errsub = 6 ∧
    (ErrorCause.rootCount n).argument = n) ∧
  (∀ n, (ErrorCause.reservedOpcode n).errcode = 4 ∧ (ErrorCause.reservedOpcode n).errsub = 1 ∧
    (ErrorCause.reservedOpcode n).argument = n) ∧
  (∀ n, (ErrorCause.reservedBits n).errcode = 4 ∧ (ErrorCause.reservedBits n).errsub = 2 ∧
    (ErrorCause.reservedBits n).argument = n) ∧
  (∀ c, (ErrorCause.wrongState c).errcode = 5 ∧ (ErrorCause.wrongState c).errsub = 1 ∧
    (ErrorCause.wrongState c).argument =
      (match c with | .idle => 0 | .ready => 1 | .stream => 2 | .done => 3 | .error => 4))

/-- R152: in a state of its row a command performs, that is, it is not turned away as SEQUENCE; outside
it raises Error(SEQUENCE, 1, STATE) and does nothing else; in ERROR it is ignored. -/
def Obligations.EachStateAcceptsItsCommands : Prop :=
  ∀ (i : Instr) (s : State),
    (s.state ∈ acceptingStates i →
      ∃ t, exec i s = .next t ∧ t ≠ raiseError (encode i) (.wrongState s.state) s) ∧
    (s.state ∉ acceptingStates i → s.state ≠ .error →
      exec i s = .next (raiseError (encode i) (.wrongState s.state) s)) ∧
    (s.state ∉ acceptingStates i → s.state = .error → exec i s = .next s)

/-- R283: in ERROR every word but exactly 0xB0000000 has no effect, and host reads return the frozen
state. -/
def Obligations.ErrorStateIgnoresEveryOtherWord : Prop :=
  ∀ (s : State) (rest : List HostAction), s.state = .error →
    (∀ w : Word, w ≠ 0xB0000000#32 → s.host.queue = .busWrite 4 0x04 w :: rest →
      step s = .next (withQueue s rest)) ∧
    (∀ offset, offset % 4 = 0 → offset < 64 → s.host.queue = .busRead 4 offset :: rest →
      step s = .next { s with host := { s.host with queue := rest, lastRead := some (readReg s offset) } })

/-- R284: SRESET and the hardware reset leave ERROR, and every step that leaves ERROR is one of the two
and gives the reset state. -/
def Obligations.OnlyAResetLeavesError : Prop :=
  ∀ s : State, s.state = .error →
    (∀ (rest : List HostAction) (a : HostAction), a = .hardReset ∨ a = .busWrite 4 0x04 0xB0000000#32 →
      s.host.queue = a :: rest →
      ∃ t, step s = .next t ∧ t.state = .idle ∧
        t = { State.reset with host := { s.host with queue := rest } }) ∧
    (∀ t : State, step s = .next t → t.state ≠ .error →
      (∃ rest, s.host.queue = .hardReset :: rest ∨
        s.host.queue = .busWrite 4 0x04 0xB0000000#32 :: rest) ∧
      t = { State.reset with host := { s.host with queue := s.host.queue.tail } })

/-- R285: while STATE stays ERROR the latch keeps the first error. -/
def Obligations.FirstErrorIsKept : Prop :=
  ∀ s t : State, s.state = .error → step s = .next t → t.state = .error →
    t.errcode = s.errcode ∧ t.errsub = s.errsub ∧ t.errarg = s.errarg ∧ t.errcmdreg = s.errcmdreg

/-- A command other than HEADER that fails has no effect apart from the error entry (R151, R281); what a
failing HEADER leaves is `HeaderStopsAtTheFirstLongLength`. -/
def Obligations.ErrorsArePrecise : Prop :=
  ∀ (i : Instr) (s t : State), i ≠ .header → s.state ≠ .error → exec i s = .next t →
    t.state = .error → ∃ c, t = raiseError (encode i) c s

/-- The argument of an error that a word or a well-formed command raises always fits the 10 bits of
ERRARG, so ERRARG holds it unchanged, and ROOT_COUNT is at most 128 (R272). The error is the one raised:
SEQUENCE outside the accepting states, and inside them the one the command's own checks give
(`Safety.Raised`). -/
def Obligations.ErrorArgumentsFitErrarg : Prop :=
  (∀ (i : Instr) (s u : State) (c : ErrorCause), i.wellFormed = true → Raised i s c u →
    c.argument < 1024 ∧ ∀ n, c = .rootCount n → n ≤ 128) ∧
  (∀ (i : Instr) (s t : State), i.wellFormed = true → s.state ≠ .error → exec i s = .next t →
    t.state = .error →
    ∃ c u, ((s.state ∉ acceptingStates i ∧ c = .wrongState s.state ∧ u = s) ∨
        (s.state ∈ acceptingStates i ∧ Raised i s c u)) ∧
      t = raiseError (encode i) c u ∧ t.errarg.toNat = c.argument) ∧
  ∀ (w : Word) (v : IllegalWord), decode w = .illegal v → (illegalCause v).argument < 16

/-! ### Control commands and table loads -/

/-- NOP changes nothing, in every state (R155). -/
def Obligations.NopChangesNothing : Prop :=
  ∀ s : State, exec .nop s = .next s

/-- SRESET performs in every state, ERROR included: every piece of HUFFENC state takes its reset value,
and the host's side is unchanged (R157). -/
def Obligations.SresetResetsFromEveryState : Prop :=
  ∀ s : State, ∃ t, exec .sreset s = .next t ∧ t = { State.reset with host := s.host } ∧
    readReg t 0x08 = 0 ∧ readReg t 0x0C = 0 ∧ readReg t 0x10 = 0 ∧ readReg t 0x14 = 0

/-- LDLEN writes one length-table entry and nothing else; a symbol above 256 raises SYMBOL_RANGE and
nothing is written (R160). -/
def Obligations.LdlenWritesOneLength : Prop :=
  ∀ (s : State) (len : BitVec 9), s.state = .idle →
    (∀ sym : Symbol, ∃ t, exec (.ldlen sym.val len) s = .next t ∧ t.len[sym] = len ∧
      (∀ j : Symbol, j ≠ sym → t.len[j] = s.len[j]) ∧ t = { s with len := t.len }) ∧
    (∀ sym : Nat, 256 < sym → exec (.ldlen sym len) s =
      .next (raiseError (encode (.ldlen sym len)) (.symbolRange sym) s))

/-- LDLEAF writes one arena entry and nothing else; the index is checked before the symbol (R165). -/
def Obligations.LdleafWritesOneLeaf : Prop :=
  ∀ s : State, s.state = .idle →
    (∀ (idx : NodeIdx) (sym : Symbol), ∃ t, exec (.ldleaf idx.val sym.val) s = .next t ∧
      t.node[idx] = .leaf sym ∧ (∀ j : NodeIdx, j ≠ idx → t.node[j] = s.node[j]) ∧
      t = { s with node := t.node }) ∧
    (∀ idx sym : Nat, 512 < idx → exec (.ldleaf idx sym) s =
      .next (raiseError (encode (.ldleaf idx sym)) (.nodeRange idx) s)) ∧
    (∀ idx sym : Nat, idx ≤ 512 → 256 < sym → exec (.ldleaf idx sym) s =
      .next (raiseError (encode (.ldleaf idx sym)) (.symbolRange sym) s))

/-- LDINT writes one arena entry and nothing else; the fields are checked in the order idx, left, right
(R170). -/
def Obligations.LdintWritesOneInternalNode : Prop :=
  ∀ s : State, s.state = .idle →
    (∀ idx left right : NodeIdx, ∃ t, exec (.ldint idx.val left.val right.val) s = .next t ∧
      t.node[idx] = .internal left right ∧ (∀ j : NodeIdx, j ≠ idx → t.node[j] = s.node[j]) ∧
      t = { s with node := t.node }) ∧
    (∀ idx left right : Nat, 512 < idx → exec (.ldint idx left right) s =
      .next (raiseError (encode (.ldint idx left right)) (.nodeRange idx) s)) ∧
    (∀ idx left right : Nat, idx ≤ 512 → 512 < left → exec (.ldint idx left right) s =
      .next (raiseError (encode (.ldint idx left right)) (.nodeRange left) s)) ∧
    (∀ idx left right : Nat, idx ≤ 512 → left ≤ 512 → 512 < right → exec (.ldint idx left right) s =
      .next (raiseError (encode (.ldint idx left right)) (.nodeRange right) s))

/-! ### The canonicalizer -/

/-- DERIVE completes exactly on an arena that holds a proper tree at NODE[0], and then every LEN entry
is the depth of its symbol's leaf, or 0 where there is none; nothing else changes (R181, R182). -/
def Obligations.DeriveGivesLeafDepths : Prop :=
  ∀ s : State, s.state = .idle →
    (∀ a : ArenaTree, HoldsTree s.node a →
      ∃ t, exec .derive s = .next t ∧ t = { s with len := t.len } ∧
        (∀ sym d, (sym, d) ∈ a.leaves 0 → t.len[sym].toNat = d) ∧
        (∀ sym : Symbol, sym ∉ (a.leaves 0).map Prod.fst → t.len[sym] = 0)) ∧
    ((¬ ∃ a : ArenaTree, HoldsTree s.node a) →
      ∃ c, exec .derive s = .next (raiseError (encode .derive) c s) ∧ c.errcode = 3 ∧
        c.errsub.toNat ≤ 4)

/-- DERIVE raises the first defect it meets in pre-order, left first, at any depth (R182): a root that is
not internal first; below an internal root, `Visit(0, 0)` of the rule has an outcome and DERIVE answers
it, the error it raises or the lengths it leaves. The last six clauses spell out the defects of the root
and its children. -/
def Obligations.DeriveRaisesTheFirstDefect : Prop :=
  ∀ s : State, s.state = .idle →
    (s.node[(0 : NodeIdx)] = .empty ∨ (∃ sym, s.node[(0 : NodeIdx)] = .leaf sym) →
      exec .derive s = .next (raiseError (encode .derive) .rootNotInternal s)) ∧
    (∀ l r, s.node[(0 : NodeIdx)] = .internal l r →
      (∃ result, Visits s.node 0 0 Walk.start result) ∧
      (∀ c, Visits s.node 0 0 Walk.start (.error c) →
        exec .derive s = .next (raiseError (encode .derive) c s)) ∧
      ∀ k, Visits s.node 0 0 Walk.start (.ok k) →
        exec .derive s = .next { s with len := toLengths k.depths }) ∧
    (∀ l r, s.node[(0 : NodeIdx)] = .internal l r → l = 0 →
      exec .derive s = .next (raiseError (encode .derive) (.nodeRevisited 0) s)) ∧
    (∀ l r, s.node[(0 : NodeIdx)] = .internal l r → l ≠ 0 → s.node[l] = .empty →
      exec .derive s = .next (raiseError (encode .derive) (.emptyNode l) s)) ∧
    (∀ l r a, s.node[(0 : NodeIdx)] = .internal l r → l ≠ 0 → s.node[l] = .leaf a → r = l →
      exec .derive s = .next (raiseError (encode .derive) (.nodeRevisited l) s)) ∧
    (∀ l r a, s.node[(0 : NodeIdx)] = .internal l r → l ≠ 0 → s.node[l] = .leaf a → r = 0 →
      exec .derive s = .next (raiseError (encode .derive) (.nodeRevisited 0) s)) ∧
    (∀ l r a, s.node[(0 : NodeIdx)] = .internal l r → l ≠ 0 → s.node[l] = .leaf a → r ≠ 0 → r ≠ l →
      s.node[r] = .empty → exec .derive s = .next (raiseError (encode .derive) (.emptyNode r) s)) ∧
    (∀ l r a, s.node[(0 : NodeIdx)] = .internal l r → l ≠ 0 → s.node[l] = .leaf a → r ≠ 0 → r ≠ l →
      s.node[r] = .leaf a → exec .derive s = .next (raiseError (encode .derive) (.duplicateSymbol a) s))

/-- R185: arena entries not reachable from NODE[0] have no effect on DERIVE, whatever they hold. -/
def Obligations.UnreachableArenaEntriesHaveNoEffect : Prop :=
  ∀ (s : State) (node : Vector Node 513),
    (∀ i : NodeIdx, Reachable s.node i → node[i] = s.node[i]) →
    ∃ t, exec .derive s = .next t ∧ exec .derive { s with node := node } = .next { t with node := node }

/-- R184: when DERIVE succeeds, (a) the reachable nodes form a full binary tree with no sharing, (b) of
distinct symbols, at most 257 leaves and 256 internal nodes, (c) every length is at most 256, (d) LEN
satisfies Kraft equality and a following BUILD succeeds, and (e) at least two symbols have a non-zero
length. -/
def Obligations.DerivedLengthsFormACompleteCode : Prop :=
  ∀ s t : State, s.state = .idle → exec .derive s = .next t → t.state ≠ .error →
    (∃ a : ArenaTree, HoldsTree s.node a ∧ (a.leaves 0).length ≤ 257 ∧ a.internals ≤ 256 ∧
      (∀ e ∈ a.leaves 0, e.2 ≤ 256 ∧ t.len[e.1].toNat = e.2) ∧
      ∀ i : NodeIdx, Reachable s.node i ↔ i ∈ a.indices) ∧
    (∀ sym : Symbol, t.len[sym].toNat ≤ 256) ∧
    kraftSum t.len = 1 ∧
    (∃ u, exec .build t = .next u ∧ u.state = .ready) ∧
    (∃ a b : Symbol, a ≠ b ∧ t.len[a] ≠ 0 ∧ t.len[b] ≠ 0)

/-- DERIVE uses the tree only through its depths: two arenas whose trees give every symbol the same
depth give the same LEN, whatever the child order and the layout (R186). -/
def Obligations.DeriveUsesOnlyTheDepths : Prop :=
  ∀ (s s' : State) (a a' : ArenaTree), s.state = .idle → s'.state = .idle →
    HoldsTree s.node a → HoldsTree s'.node a' →
    (∀ e, e ∈ a.leaves 0 ↔ e ∈ a'.leaves 0) →
    ∃ t t', exec .derive s = .next t ∧ exec .derive s' = .next t' ∧ t.len = t'.len

/-- R196: BUILD succeeds exactly when LEN satisfies Kraft equality; otherwise it raises. -/
def Obligations.BuildSucceedsExactlyOnKraftEquality : Prop :=
  ∀ s : State, s.state = .idle →
    ((∃ t, exec .build s = .next t ∧ t.state = .ready) ↔ kraftSum s.len = 1) ∧
    (kraftSum s.len ≠ 1 → ∃ c, exec .build s = .next (raiseError (encode .build) c s) ∧
      ((∃ L, c = .oddLevel L) ∨ ∃ n, c = .rootCount n ∧ n ≠ 1))

/-- BUILD on a table that satisfies Kraft equality completes: CODE[s] is the path to the leaf of s in
the canonical tree, and [] where it has no leaf; STATE becomes READY; nothing else changes, ACC and
BITCNT among it (R190, R193). -/
def Obligations.BuildReadsCodeOffTheCanonicalTree : Prop :=
  ∀ s : State, s.state = .idle → kraftSum s.len = 1 →
    ∃ t T, exec .build s = .next t ∧ canonicalTree s.len = .ok T ∧
      t = { s with tree := some T, code := t.code, state := .ready } ∧
      ∀ sym : Symbol, t.code[sym] = (path T sym).getD []

/-- R198: after a successful BUILD the leaf of each symbol in use is at depth LEN[s] of the canonical
tree, CODE[s] has LEN[s] bits, and the lengths derived from the canonical tree are LEN again, whatever
arena layout holds it. -/
def Obligations.CanonicalDepthsEqualTheLengths : Prop :=
  ∀ s t : State, s.state = .idle → exec .build s = .next t → t.state = .ready →
    ∃ T, t.tree = some T ∧
      (∀ sym : Symbol, s.len[sym] ≠ 0 → ∃ p, path T sym = some p ∧ p.length = s.len[sym].toNat) ∧
      (∀ sym : Symbol, t.code[sym].length = s.len[sym].toNat) ∧
      ∀ (node : Vector Node 513) (a : ArenaTree), HoldsTree node a → a.shape = T →
        (deriveDepths node).map toLengths = .ok s.len

/-- The closed form of the code (R194): the code of a symbol of length L is I_L + r as an L-bit code,
most significant bit first, and I_L is an integer. -/
def Obligations.CodeIsStartCodePlusRank : Prop :=
  ∀ s t : State, s.state = .idle → exec .build s = .next t → t.state = .ready →
    ∀ sym : Symbol, s.len[sym] ≠ 0 →
      ∃ start : Nat, (start : ℚ) = startCode s.len s.len[sym].toNat ∧
        start + rank s.len sym < 2 ^ s.len[sym].toNat ∧
        t.code[sym] = readAsCode (BitVec.ofNat s.len[sym].toNat (start + rank s.len sym))

/-- Properties of the code after a successful BUILD (R199a to c): it is prefix-free; within one length,
codes increase with the symbol; a code is greater than the first bits of every longer code. -/
def Obligations.CodeIsPrefixFreeAndOrdered : Prop :=
  ∀ s t : State, s.state = .idle → exec .build s = .next t → t.state = .ready →
    ∀ a b : Symbol, s.len[a] ≠ 0 → s.len[b] ≠ 0 →
      (a ≠ b → ¬ t.code[a] <+: t.code[b]) ∧
      (s.len[a] = s.len[b] → a < b → bitsToNat t.code[a] < bitsToNat t.code[b]) ∧
      (s.len[a].toNat < s.len[b].toNat →
        bitsToNat (t.code[b].take s.len[a].toNat) < bitsToNat t.code[a])

/-- A table with any length above 256 always fails BUILD, with ODD_LEVEL or ROOT_COUNT; so no code is
longer than 256 bits (R197, R200). -/
def Obligations.LengthsAbove256FailBuild : Prop :=
  (∀ (s : State) (sym : Symbol), s.state = .idle → 256 < s.len[sym].toNat →
    ∃ c, exec .build s = .next (raiseError (encode .build) c s) ∧
      ((∃ L, c = .oddLevel L) ∨ ∃ n, c = .rootCount n)) ∧
  ∀ s t : State, s.state = .idle → exec .build s = .next t → t.state = .ready →
    ∀ sym : Symbol, t.code[sym].length ≤ 256

/-! ### The bitpacker -/

/-- R221: EmitByte appends one byte, counts it modulo 2^32, and changes nothing else. -/
def Obligations.EmitByteAppendsAndCounts : Prop :=
  ∀ (s : State) (x : Byte), ∃ t, emitByte s x = t ∧ t.out = s.out ++ [x] ∧
    t.outcnt.toNat = (s.outcnt.toNat + 1) % 2 ^ 32 ∧ t = { s with out := t.out, outcnt := t.outcnt }

/-- R222: with BITCNT below 7 the bit is shifted into ACC and nothing is emitted; the eighth bit emits
the byte at once and empties the bitpacker. -/
def Obligations.TheEighthBitEmitsTheByte : Prop :=
  ∀ (s : State) (b : Bool), s.acc.toNat < 2 ^ s.bitcnt.toNat →
    (s.bitcnt.toNat < 7 → ∃ t, putBit s b = t ∧ t.acc.toNat = 2 * s.acc.toNat + b.toNat ∧
      t.bitcnt.toNat = s.bitcnt.toNat + 1 ∧ t = { s with acc := t.acc, bitcnt := t.bitcnt }) ∧
    (s.bitcnt.toNat = 7 → ∃ x : Byte, x.toNat = 2 * s.acc.toNat + b.toNat ∧
      putBit s b =
        { s with acc := 0, bitcnt := 0, out := s.out ++ [x], outcnt := s.outcnt + 1 })

/-- R224: CloseStream equals PutBit(0) until BITCNT returns to 0; it emits nothing when BITCNT is 0,
and one byte otherwise, whose remaining low bits are 0. -/
def Obligations.CloseStreamPadsWithZeroBits : Prop :=
  ∀ s : State,
    closeStream s = putBits s (List.replicate ((8 - s.bitcnt.toNat) % 8) false) ∧
    (closeStream s).bitcnt = 0 ∧
    (s.bitcnt = 0 → closeStream s = s) ∧
    (s.bitcnt ≠ 0 → (closeStream s).out = s.out ++ [s.acc <<< (8 - s.bitcnt.toNat)] ∧
      (closeStream s).acc = 0)

/-- R225 and R226: of n bits passed since reset, |out| = n / 8 bytes are emitted, BITCNT = n mod 8 and
ACC holds the rest; after CloseStream there are ceil(n / 8) bytes, and bit k is bit 7 - (k mod 8) of
byte k / 8, with zeros after the last. -/
def Obligations.BitsArePackedMostSignificantFirst : Prop :=
  ∀ (s : State) (p : Bits), s.out = [] → s.bitcnt = 0 → s.acc = 0 →
    (putBits s p).out.length = p.length / 8 ∧
    (putBits s p).bitcnt.toNat = p.length % 8 ∧
    (putBits s p).acc.toNat = bitsToNat (p.drop (8 * (p.length / 8))) ∧
    (closeStream (putBits s p)).out = pack p ∧
    (pack p).length = (p.length + 7) / 8 ∧
    (∀ k, k < 8 * ((p.length + 7) / 8) →
      ((pack p).getD (k / 8) 0).getLsbD (7 - k % 8) = p.getD k false) ∧
    (∀ k, k < 8 * (p.length / 8) →
      ((putBits s p).out.getD (k / 8) 0).getLsbD (7 - k % 8) = p.getD k false)

/-- WRBIT appends one bit and changes nothing else; a value above 1 raises BIT_VALUE and nothing is
written (R230). -/
def Obligations.WrbitAppendsOneBit : Prop :=
  ∀ (s : State) (v : Byte), s.state = .ready ∨ s.state = .stream →
    (v.toNat ≤ 1 → ∃ t, exec (.wrbit v) s = .next t ∧ Appends s [v == 1] t) ∧
    (1 < v.toNat → exec (.wrbit v) s = .next (raiseError (encode (.wrbit v)) (.bitValue v) s))

/-! ### The encoder -/

/-- HEADER on a table without a length of 256 or more completes: the 257 entries of 8 bits are appended,
STATE becomes STREAM, BITCNT is as before and 257 bytes are emitted (R241; log 9 on ACC). -/
def Obligations.HeaderWritesTheLengthTable : Prop :=
  ∀ s : State, s.state = .ready → (∀ sym : Symbol, s.len[sym].toNat < 256) →
    ∃ t, exec .header s = .next { t with state := .stream } ∧ Appends s (headerBits s.len) t ∧
      t.bitcnt = s.bitcnt ∧ t.out.length = s.out.length + 257

/-- HEADER stops at the first symbol whose length is 256 or more: the bits of the entries before it have
been appended, and FORMAT_CONSTRAINT is raised (R241, R151). -/
def Obligations.HeaderStopsAtTheFirstLongLength : Prop :=
  ∀ (s : State) (sym : Symbol), s.state = .ready → 256 ≤ s.len[sym].toNat →
    (∀ j : Symbol, j < sym → s.len[j].toNat < 256) →
    ∃ t, exec .header s = .next (raiseError (encode .header) (.lengthTooLong sym) t) ∧
      Appends s ((headerBits s.len).take (8 * sym.val)) t

/-- R242: a HEADER that starts with BITCNT = 0 appends one byte a symbol, equal to LEN[s], and leaves the
payload to start at a whole byte; BITCNT is 0 and nothing has been emitted when no WRBIT ran in READY, that
is in the state BUILD leaves, so that header byte s is then byte s of the stream. -/
def Obligations.AlignedHeaderBytesAreTheLengths : Prop :=
  (∀ s : State, Inv s → s.state = .ready → s.bitcnt = 0 → (∀ sym : Symbol, s.len[sym].toNat < 256) →
    ∃ u, exec .header s = .next u ∧ u.out.length = s.out.length + 257 ∧ u.bitcnt = 0 ∧ u.acc = 0 ∧
      ∀ sym : Symbol, (u.out.getD (s.out.length + sym.val) 0).toNat = s.len[sym].toNat) ∧
  ∀ s t : State, Inv s → s.state = .idle → exec .build s = .next t → t.state = .ready →
    t.bitcnt = 0 ∧ t.out = [] ∧ t.len = s.len

/-- BYTE appends the code of its byte and changes nothing else; a symbol with no code raises NO_CODE and
nothing is emitted (R245). -/
def Obligations.ByteAppendsItsCode : Prop :=
  ∀ (s : State) (b : Byte), s.state = .stream →
    (s.len[byteSymbol b] ≠ 0 →
      ∃ t, exec (.byte b) s = .next t ∧ Appends s s.code[byteSymbol b] t) ∧
    (s.len[byteSymbol b] = 0 →
      exec (.byte b) s = .next (raiseError (encode (.byte b)) (.noCode (byteSymbol b)) s))

/-- FINISH appends the end-of-stream code and 0 to 7 zero bits, up to a whole byte; BITCNT becomes 0 and
so does ACC; STATE becomes DONE; without an end-of-stream code it raises NO_CODE and nothing is emitted
(R250). -/
def Obligations.FinishClosesTheStream : Prop :=
  ∀ s : State, s.state = .stream →
    (s.len[Config.EOS] ≠ 0 →
      ∃ t pad, exec .finish s = .next { t with state := .done } ∧ pad < 8 ∧
        Appends s (s.code[Config.EOS] ++ List.replicate pad false) t ∧ t.bitcnt = 0 ∧
        (s.acc.toNat < 2 ^ s.bitcnt.toNat → t.acc = 0)) ∧
    (s.len[Config.EOS] = 0 →
      exec .finish s = .next (raiseError (encode .finish) (.noCode Config.EOS) s))

/-- R253: from IDLE, BUILD, HEADER, one BYTE per input byte and FINISH give exactly `Encode(LEN, data)`,
of length 257 + ceil((sum of LEN[b_i] + LEN[256]) / 8), when BUILD succeeds, every byte and EOS has a
code and every length is below 256; otherwise no stream exists and the run ends in ERROR. -/
def Obligations.CompletedStreamIsTheEncoding : Prop :=
  ∀ (s : State) (data : List Byte), Inv s → s.state = .idle →
    ((kraftSum s.len = 1 ∧ (∀ sym : Symbol, s.len[sym].toNat < 256) ∧ s.len[Config.EOS] ≠ 0 ∧
        ∀ b ∈ data, s.len[byteSymbol b] ≠ 0) →
      ∃ t, runCommands (encodeCommands data) s = .next t ∧ t.state = .done ∧
        encodeStream s.len data = some t.out ∧
        t.out.length = 257 + ((data.map fun b => s.len[byteSymbol b].toNat).sum +
          s.len[Config.EOS].toNat + 7) / 8) ∧
    (¬ (kraftSum s.len = 1 ∧ (∀ sym : Symbol, s.len[sym].toNat < 256) ∧ s.len[Config.EOS] ≠ 0 ∧
        ∀ b ∈ data, s.len[byteSymbol b] ≠ 0) →
      encodeStream s.len data = none ∧
      ∃ t, runCommands (encodeCommands data) s = .next t ∧ t.state = .error)

/-- R255: the stream determines the input: from every stream that exists (R253) the decoder's three steps
recover the input bytes exactly, zero-length input included. -/
def Obligations.StreamDeterminesTheInput : Prop :=
  ∀ (len : Vector (BitVec 9) 257) (data stream : List Byte),
    encodeStream len data = some stream → decodeStream stream = some data

/-! ### Whole-machine rules -/

/-- The invariants of R50, with what the model adds to them (`Safety.Inv`), hold at reset. -/
def Obligations.InvariantsHoldAtReset : Prop := Inv State.reset

/-- R50: every step keeps the invariants, whatever the host does. -/
def Obligations.EveryStepKeepsTheInvariants : Prop :=
  ∀ s t : State, Inv s → step s = .next t → Inv t

/-- R81, who writes which table: LEN only LDLEN and DERIVE, NODE only LDLEAF and LDINT, CODE only BUILD,
and SRESET all of them. -/
def Obligations.TablesChangeOnlyByTheirWriters : Prop :=
  ∀ (i : Instr) (s t : State), i ≠ .sreset → exec i s = .next t →
    (t.len ≠ s.len → (∃ sym len, i = .ldlen sym len) ∨ i = .derive) ∧
    (t.node ≠ s.node → (∃ idx sym, i = .ldleaf idx sym) ∨ ∃ idx l r, i = .ldint idx l r) ∧
    (t.code ≠ s.code ∨ t.tree ≠ s.tree → i = .build)

/-- R81, who reads which table: a command outside the table's readers answers the same whatever the
table holds, in everything but that table. -/
def Obligations.TablesAreReadOnlyByTheirReaders : Prop :=
  (∀ (i : Instr) (s : State) (len : Vector (BitVec 9) 257),
    i ≠ .build → i ≠ .header → (∀ b, i ≠ .byte b) → i ≠ .finish →
    ∃ t t', exec i s = .next t ∧ exec i { s with len := len } = .next t' ∧ t' = { t with len := t'.len }) ∧
  (∀ (i : Instr) (s : State) (node : Vector Node 513), i ≠ .derive →
    ∃ t t', exec i s = .next t ∧ exec i { s with node := node } = .next t' ∧
      t' = { t with node := t'.node }) ∧
  (∀ (i : Instr) (s : State) (code : Vector Bits 257), (∀ b, i ≠ .byte b) → i ≠ .finish →
    ∃ t t', exec i s = .next t ∧ exec i { s with code := code } = .next t' ∧
      t' = { t with code := t'.code })

/-- The bitpacker and the output change only by HEADER, BYTE, FINISH and WRBIT, apart from reset, and
bytes are only ever appended (R48, R220). -/
def Obligations.OutputChangesOnlyByTheEncoder : Prop :=
  ∀ (i : Instr) (s t : State), i ≠ .sreset → exec i s = .next t →
    s.out <+: t.out ∧
    ((t.out ≠ s.out ∨ t.acc ≠ s.acc ∨ t.bitcnt ≠ s.bitcnt ∨ t.outcnt ≠ s.outcnt) →
      i = .header ∨ (∃ b, i = .byte b) ∨ i = .finish ∨ ∃ v, i = .wrbit v)

/-- STATE changes only by the success transitions of BUILD, HEADER and FINISH, by error entry and by
reset (R262, R41). The last line speaks of the model's own fields (log 2, log 3): no command changes the
host's side, whose received bytes no reset recalls (R82, R157), and none but SRESET the count of delivered
bytes. -/
def Obligations.StateChangesOnlyByTheTransitions : Prop :=
  ∀ (i : Instr) (s t : State), exec i s = .next t →
    (t.state = s.state ∨ (s.state ≠ .error ∧ t.state = .error) ∨
      (i = .build ∧ s.state = .idle ∧ t.state = .ready) ∨
      (i = .header ∧ s.state = .ready ∧ t.state = .stream) ∨
      (i = .finish ∧ s.state = .stream ∧ t.state = .done) ∨
      (i = .sreset ∧ t.state = .idle)) ∧
    t.host = s.host ∧ (i ≠ .sreset → t.delivered = s.delivered)

/-- The most bytes a command can emit: HEADER 257, BYTE 32, FINISH 33, WRBIT 1, any other none (R323). -/
def Obligations.EmissionIsBounded : Prop :=
  ∀ (i : Instr) (s t : State), Inv s → exec i s = .next t →
    t.out.length ≤ s.out.length + emissionBound i

/-! ### The host-side reference procedure -/

/-- The Tree Builder always gives a tree with an internal root and distinct symbols at its leaves, a leaf
for every symbol that occurs among them (R351, R354: step 2 leaves at least two entries), and for empty
input it is Internal(Leaf 0, Leaf 256). -/
def Obligations.TreeBuilderAlwaysGivesATree : Prop :=
  (∀ f : Vector Nat 257, ∃ a b, buildTree f = some (.node a b) ∧ (a.symbols ++ b.symbols).Nodup ∧
    ∀ s : Symbol, 0 < f[s] → ∃ p, path (.node a b) s = some p) ∧
  buildTree (frequencies []) = some (.node (.leaf 0) (.leaf 256))
end

