-- ==== Sys2Proof/Laws/State.lean ====
section
/-! SUPPORT. One lemma per field for each named update of the state, true by `rfl` and tagged `@[simp]`,
so that no proof unfolds a record update. -/

namespace Sys2Proof.Machine

/-! ### Error entry -/

@[simp] theorem raiseError_state (w : Word) (c : ErrorCause) (s : State) : (raiseError w c s).state = .error := rfl
@[simp] theorem raiseError_len (w : Word) (c : ErrorCause) (s : State) : (raiseError w c s).len = s.len := rfl
@[simp] theorem raiseError_node (w : Word) (c : ErrorCause) (s : State) : (raiseError w c s).node = s.node := rfl
@[simp] theorem raiseError_code (w : Word) (c : ErrorCause) (s : State) : (raiseError w c s).code = s.code := rfl
@[simp] theorem raiseError_tree (w : Word) (c : ErrorCause) (s : State) : (raiseError w c s).tree = s.tree := rfl
@[simp] theorem raiseError_acc (w : Word) (c : ErrorCause) (s : State) : (raiseError w c s).acc = s.acc := rfl
@[simp] theorem raiseError_bitcnt (w : Word) (c : ErrorCause) (s : State) : (raiseError w c s).bitcnt = s.bitcnt := rfl
@[simp] theorem raiseError_errcode (w : Word) (c : ErrorCause) (s : State) : (raiseError w c s).errcode = c.errcode := rfl
@[simp] theorem raiseError_errsub (w : Word) (c : ErrorCause) (s : State) : (raiseError w c s).errsub = c.errsub := rfl
@[simp] theorem raiseError_errarg (w : Word) (c : ErrorCause) (s : State) : (raiseError w c s).errarg = c.errarg := rfl
@[simp] theorem raiseError_errcmdreg (w : Word) (c : ErrorCause) (s : State) : (raiseError w c s).errcmdreg = w := rfl
@[simp] theorem raiseError_outcnt (w : Word) (c : ErrorCause) (s : State) : (raiseError w c s).outcnt = s.outcnt := rfl
@[simp] theorem raiseError_out (w : Word) (c : ErrorCause) (s : State) : (raiseError w c s).out = s.out := rfl
@[simp] theorem raiseError_delivered (w : Word) (c : ErrorCause) (s : State) : (raiseError w c s).delivered = s.delivered := rfl
@[simp] theorem raiseError_host (w : Word) (c : ErrorCause) (s : State) : (raiseError w c s).host = s.host := rfl

/-! ### Reset -/

@[simp] theorem resetCore_state (s : State) : (resetCore s).state = State.reset.state := rfl
@[simp] theorem resetCore_len (s : State) : (resetCore s).len = State.reset.len := rfl
@[simp] theorem resetCore_node (s : State) : (resetCore s).node = State.reset.node := rfl
@[simp] theorem resetCore_code (s : State) : (resetCore s).code = State.reset.code := rfl
@[simp] theorem resetCore_tree (s : State) : (resetCore s).tree = State.reset.tree := rfl
@[simp] theorem resetCore_acc (s : State) : (resetCore s).acc = State.reset.acc := rfl
@[simp] theorem resetCore_bitcnt (s : State) : (resetCore s).bitcnt = State.reset.bitcnt := rfl
@[simp] theorem resetCore_errcode (s : State) : (resetCore s).errcode = State.reset.errcode := rfl
@[simp] theorem resetCore_errsub (s : State) : (resetCore s).errsub = State.reset.errsub := rfl
@[simp] theorem resetCore_errarg (s : State) : (resetCore s).errarg = State.reset.errarg := rfl
@[simp] theorem resetCore_errcmdreg (s : State) : (resetCore s).errcmdreg = State.reset.errcmdreg := rfl
@[simp] theorem resetCore_outcnt (s : State) : (resetCore s).outcnt = State.reset.outcnt := rfl
@[simp] theorem resetCore_out (s : State) : (resetCore s).out = State.reset.out := rfl
@[simp] theorem resetCore_delivered (s : State) : (resetCore s).delivered = State.reset.delivered := rfl
@[simp] theorem resetCore_host (s : State) : (resetCore s).host = s.host := rfl

/-! ### Emitting a byte -/

@[simp] theorem emitByte_state (s : State) (x : Byte) : (emitByte s x).state = s.state := rfl
@[simp] theorem emitByte_len (s : State) (x : Byte) : (emitByte s x).len = s.len := rfl
@[simp] theorem emitByte_node (s : State) (x : Byte) : (emitByte s x).node = s.node := rfl
@[simp] theorem emitByte_code (s : State) (x : Byte) : (emitByte s x).code = s.code := rfl
@[simp] theorem emitByte_tree (s : State) (x : Byte) : (emitByte s x).tree = s.tree := rfl
@[simp] theorem emitByte_acc (s : State) (x : Byte) : (emitByte s x).acc = s.acc := rfl
@[simp] theorem emitByte_bitcnt (s : State) (x : Byte) : (emitByte s x).bitcnt = s.bitcnt := rfl
@[simp] theorem emitByte_errcode (s : State) (x : Byte) : (emitByte s x).errcode = s.errcode := rfl
@[simp] theorem emitByte_errsub (s : State) (x : Byte) : (emitByte s x).errsub = s.errsub := rfl
@[simp] theorem emitByte_errarg (s : State) (x : Byte) : (emitByte s x).errarg = s.errarg := rfl
@[simp] theorem emitByte_errcmdreg (s : State) (x : Byte) : (emitByte s x).errcmdreg = s.errcmdreg := rfl
@[simp] theorem emitByte_outcnt (s : State) (x : Byte) : (emitByte s x).outcnt = s.outcnt + 1 := rfl
@[simp] theorem emitByte_out (s : State) (x : Byte) : (emitByte s x).out = s.out ++ [x] := rfl
@[simp] theorem emitByte_delivered (s : State) (x : Byte) : (emitByte s x).delivered = s.delivered := rfl
@[simp] theorem emitByte_host (s : State) (x : Byte) : (emitByte s x).host = s.host := rfl

/-! ### The host's queue -/

@[simp] theorem withQueue_state (s : State) (rest : List HostAction) : (withQueue s rest).state = s.state := rfl
@[simp] theorem withQueue_len (s : State) (rest : List HostAction) : (withQueue s rest).len = s.len := rfl
@[simp] theorem withQueue_node (s : State) (rest : List HostAction) : (withQueue s rest).node = s.node := rfl
@[simp] theorem withQueue_code (s : State) (rest : List HostAction) : (withQueue s rest).code = s.code := rfl
@[simp] theorem withQueue_tree (s : State) (rest : List HostAction) : (withQueue s rest).tree = s.tree := rfl
@[simp] theorem withQueue_acc (s : State) (rest : List HostAction) : (withQueue s rest).acc = s.acc := rfl
@[simp] theorem withQueue_bitcnt (s : State) (rest : List HostAction) : (withQueue s rest).bitcnt = s.bitcnt := rfl
@[simp] theorem withQueue_errcode (s : State) (rest : List HostAction) : (withQueue s rest).errcode = s.errcode := rfl
@[simp] theorem withQueue_errsub (s : State) (rest : List HostAction) : (withQueue s rest).errsub = s.errsub := rfl
@[simp] theorem withQueue_errarg (s : State) (rest : List HostAction) : (withQueue s rest).errarg = s.errarg := rfl
@[simp] theorem withQueue_errcmdreg (s : State) (rest : List HostAction) : (withQueue s rest).errcmdreg = s.errcmdreg := rfl
@[simp] theorem withQueue_outcnt (s : State) (rest : List HostAction) : (withQueue s rest).outcnt = s.outcnt := rfl
@[simp] theorem withQueue_out (s : State) (rest : List HostAction) : (withQueue s rest).out = s.out := rfl
@[simp] theorem withQueue_delivered (s : State) (rest : List HostAction) : (withQueue s rest).delivered = s.delivered := rfl
@[simp] theorem withQueue_host (s : State) (rest : List HostAction) : (withQueue s rest).host = { s.host with queue := rest } := rfl

/-! ### The reset state -/

@[simp] theorem reset_state : State.reset.state = .idle := rfl
@[simp] theorem reset_acc : State.reset.acc = 0 := rfl
@[simp] theorem reset_bitcnt : State.reset.bitcnt = 0 := rfl
@[simp] theorem reset_tree : State.reset.tree = none := rfl
@[simp] theorem reset_errcode : State.reset.errcode = 0 := rfl
@[simp] theorem reset_errsub : State.reset.errsub = 0 := rfl
@[simp] theorem reset_errarg : State.reset.errarg = 0 := rfl
@[simp] theorem reset_errcmdreg : State.reset.errcmdreg = 0 := rfl
@[simp] theorem reset_outcnt : State.reset.outcnt = 0 := rfl
@[simp] theorem reset_out : State.reset.out = [] := rfl
@[simp] theorem reset_delivered : State.reset.delivered = 0 := rfl

theorem reset_len (s : Symbol) : State.reset.len[s] = 0 := by
  simp only [State.reset, Fin.getElem_fin, Vector.getElem_replicate]

theorem reset_node (i : NodeIdx) : State.reset.node[i] = .empty := by
  simp only [State.reset, Fin.getElem_fin, Vector.getElem_replicate]

theorem reset_code (s : Symbol) : State.reset.code[s] = [] := by
  simp only [State.reset, Fin.getElem_fin, Vector.getElem_replicate]

end Sys2Proof.Machine
end

