-- ==== Sys2Proof/Laws/Ops.lean ====
section
/-! SUPPORT. What the shared operations can do, one lemma each: operand checks, the frame of a command
(`perform`), and what a command can answer at all. -/

namespace Sys2Proof.Machine

/-! ### Operands -/

theorem symOperand_eq_ok (sym : Symbol) : symOperand sym.val = .ok sym := by
  have h : ¬ 256 < sym.val := by omega
  simp [symOperand, h]

theorem symOperand_eq_error {sym : Nat} (h : 256 < sym) : symOperand sym = .error (.symbolRange sym) := by
  simp [symOperand, h]

theorem idxOperand_eq_ok (idx : NodeIdx) : idxOperand idx.val = .ok idx := by
  have h : ¬ 512 < idx.val := by omega
  simp [idxOperand, h]

theorem idxOperand_eq_error {idx : Nat} (h : 512 < idx) : idxOperand idx = .error (.nodeRange idx) := by
  simp [idxOperand, h]

/-- A legal index in the form the range checks speak of. -/
theorem idxOperand_of_le {idx : Nat} (h : idx ≤ 512) : idxOperand idx = .ok ⟨idx, by omega⟩ :=
  idxOperand_eq_ok ⟨idx, by omega⟩

theorem symOperand_of_le {sym : Nat} (h : sym ≤ 256) : symOperand sym = .ok ⟨sym, by omega⟩ :=
  symOperand_eq_ok ⟨sym, by omega⟩

theorem bitOperand_eq_ok {v : Byte} (h : v.toNat ≤ 1) : bitOperand v = .ok (v == 1) := by
  have h' : ¬ 1 < v.toNat := by omega
  simp only [bitOperand, h', if_false, Except.ok.injEq]
  rw [Bool.eq_iff_iff]
  simp [← BitVec.toNat_inj]

theorem bitOperand_eq_error {v : Byte} (h : 1 < v.toNat) : bitOperand v = .error (.bitValue v) := by
  simp [bitOperand, h]

@[simp] theorem checked_ok {α : Type} (s : State) (a : α) : checked s (.ok a) = .ok a := rfl

@[simp] theorem checked_error {α : Type} (s : State) (c : ErrorCause) :
    checked s (.error c : Except ErrorCause α) = .error (c, s) := rfl

/-! ### The frame of a command -/

/-- A command always answers a next state (R123, R340). -/
theorem perform_next (i : Instr) (s : State) (f : State → Except (ErrorCause × State) State) :
    ∃ t, perform i s f = .next t := by
  unfold perform
  split
  · exact ⟨_, rfl⟩
  · exact ⟨_, rfl⟩
  · split <;> exact ⟨_, rfl⟩

/-- What a command can do (R150): be ignored, be turned away, take its effect, or raise. -/
theorem perform_cases {i : Instr} {s t : State} {f : State → Except (ErrorCause × State) State}
    (h : perform i s f = .next t) :
    (accepts i s.state = .ignored ∧ t = s) ∨
    (accepts i s.state = .sequence ∧ t = raiseError (encode i) (.wrongState s.state) s) ∨
    (accepts i s.state = .performs ∧ f s = .ok t) ∨
    (accepts i s.state = .performs ∧ ∃ c u, f s = .error (c, u) ∧ t = raiseError (encode i) c u) := by
  unfold perform at h
  split at h
  · next ha => exact .inl ⟨ha, (Host.Outcome.next.inj h).symm⟩
  · next ha => exact .inr (.inl ⟨ha, (Host.Outcome.next.inj h).symm⟩)
  · next ha =>
    split at h
    · next hf => exact .inr (.inr (.inl ⟨ha, by rw [hf, Host.Outcome.next.inj h]⟩))
    · next c u hf => exact .inr (.inr (.inr ⟨ha, c, u, hf, (Host.Outcome.next.inj h).symm⟩))

theorem perform_ok {i : Instr} {s t : State} {f : State → Except (ErrorCause × State) State}
    (ha : accepts i s.state = .performs) (hf : f s = .ok t) : perform i s f = .next t := by
  simp [perform, ha, hf]

theorem perform_error {i : Instr} {s u : State} {c : ErrorCause}
    {f : State → Except (ErrorCause × State) State}
    (ha : accepts i s.state = .performs) (hf : f s = .error (c, u)) :
    perform i s f = .next (raiseError (encode i) c u) := by
  simp [perform, ha, hf]

theorem perform_sequence {i : Instr} {s : State} {f : State → Except (ErrorCause × State) State}
    (ha : accepts i s.state = .sequence) :
    perform i s f = .next (raiseError (encode i) (.wrongState s.state) s) := by
  simp [perform, ha]

theorem perform_ignored {i : Instr} {s : State} {f : State → Except (ErrorCause × State) State}
    (ha : accepts i s.state = .ignored) : perform i s f = .next s := by
  simp [perform, ha]

/-- The effect of each command, as `perform` takes it. -/
def effectOf : Instr → State → Except (ErrorCause × State) State
  | .nop, s => .ok s
  | .sreset, s => .ok (resetCore s)
  | .ldlen sym len, s =>
    (checked s (symOperand sym)).map fun sym : Symbol => { s with len := s.len.set sym len }
  | .ldleaf idx sym, s =>
    (checked s (idxOperand idx)).bind fun idx : NodeIdx =>
      (checked s (symOperand sym)).map fun sym : Symbol =>
        { s with node := s.node.set idx (.leaf sym) }
  | .ldint idx left right, s =>
    (checked s (idxOperand idx)).bind fun idx : NodeIdx =>
      (checked s (idxOperand left)).bind fun left : NodeIdx =>
        (checked s (idxOperand right)).map fun right : NodeIdx =>
          { s with node := s.node.set idx (.internal left right) }
  | .derive, s => (checked s (deriveDepths s.node)).map fun d => { s with len := toLengths d }
  | .build, s =>
    (checked s (canonicalTree s.len)).map fun t =>
      { s with tree := some t, code := codeTable t, state := .ready }
  | .header, s => (headerEntries (lenEntries s.len) s).map fun s' => { s' with state := .stream }
  | .byte b, s => (checked s (codeOf s (byteSymbol b))).map fun p => putBits s p
  | .finish, s =>
    (checked s (codeOf s Config.EOS)).map fun p => { closeStream (putBits s p) with state := .done }
  | .wrbit v, s => (checked s (bitOperand v)).map fun b => putBit s b

/-- Every command is `perform` of its effect: the one place where `exec` is unfolded. -/
theorem exec_eq_perform (i : Instr) (s : State) : exec i s = perform i s (effectOf i) := by
  cases i <;> rfl

/-- Every command answers a next state from every state. -/
theorem exec_next (i : Instr) (s : State) : ∃ t, exec i s = .next t := by
  rw [exec_eq_perform]
  exact perform_next i s _

end Sys2Proof.Machine
end

