-- ==== Sys2Proof/Laws/Bitpacker.lean ====
section
/-! SUPPORT. The bitpacker's primitives as appends to one bit stream (42_bitwriter.md R222 to R226). -/

namespace Sys2Proof.Machine

open Sys2Proof.Safety

/-! ### Bits of a byte -/

@[simp] theorem readAsCode_length {L : Nat} (v : BitVec L) : (readAsCode v).length = L := by
  simp [readAsCode]

/-- A byte's bits, bit 7 first. -/
theorem readAsCode_byte (v : Byte) : readAsCode v = (List.range 8).reverse.map fun k => v.getLsbD k := by
  simp [readAsCode, List.ofFn_succ, List.range_succ, BitVec.getMsb, BitVec.getLsb_eq_getElem,
    BitVec.getLsbD_eq_getElem]

@[simp] theorem unpack_nil : unpack [] = [] := rfl

@[simp] theorem unpack_append (a b : List Byte) : unpack (a ++ b) = unpack a ++ unpack b := by
  simp [unpack]

@[simp] theorem unpack_singleton (x : Byte) : unpack [x] = readAsCode x := by
  simp [unpack]

theorem unpack_length (l : List Byte) : (unpack l).length = 8 * l.length := by
  induction l with
  | nil => rfl
  | cons x l ih =>
    have : unpack (x :: l) = readAsCode x ++ unpack l := rfl
    simp only [this, List.length_append, readAsCode_length, ih, List.length_cons]
    omega

@[simp] theorem pendingBits_length (s : State) : (pendingBits s).length = s.bitcnt.toNat := by
  simp [pendingBits]

theorem bitStream_length (s : State) :
    (bitStream s).length = 8 * s.out.length + s.bitcnt.toNat := by
  simp [bitStream, unpack_length]

/-- The accumulator with one more bit shifted in (R222). -/
def shiftIn (acc : Byte) (b : Bool) : Byte := (acc <<< 1) ||| (BitVec.ofBool b).setWidth 8

theorem shiftIn_zero (acc : Byte) (b : Bool) : (shiftIn acc b).getLsbD 0 = b := by
  cases b <;> simp [shiftIn]

theorem shiftIn_succ (acc : Byte) (b : Bool) {k : Nat} (h : k < 7) :
    (shiftIn acc b).getLsbD (k + 1) = acc.getLsbD k := by
  have h8 : k + 1 < 8 := by omega
  have hb : ((BitVec.ofBool b).setWidth 8).getLsbD (k + 1) = false := by
    simp [BitVec.getLsbD_setWidth]
  simp only [shiftIn, BitVec.getLsbD_or, BitVec.getLsbD_shiftLeft, hb, Bool.or_false]
  simp [h8]

/-- The low bits of the accumulator after a shift: the old ones, then the new one. -/
theorem shiftIn_bits (acc : Byte) (b : Bool) {n : Nat} (h : n ≤ 7) :
    (List.range (n + 1)).reverse.map (fun k => (shiftIn acc b).getLsbD k) =
      ((List.range n).reverse.map fun k => acc.getLsbD k) ++ [b] := by
  rw [List.range_succ_eq_map, List.reverse_cons, List.map_append, List.map_singleton, shiftIn_zero]
  congr 1
  rw [← List.map_reverse, List.map_map]
  refine List.map_congr_left fun k hk => ?_
  have hk : k < n := by simpa using hk
  exact shiftIn_succ acc b (by omega)

theorem shiftIn_lt {acc : Byte} {b : Bool} {n : Nat} (h : acc.toNat < 2 ^ n) (hn : n < 7) :
    (shiftIn acc b).toNat < 2 ^ (n + 1) := by
  have hp : 2 ^ n ≤ 2 ^ 7 := Nat.pow_le_pow_right (by omega) (by omega)
  have hs : (acc <<< 1).toNat = 2 * acc.toNat := by
    rw [BitVec.toNat_shiftLeft, Nat.shiftLeft_eq]
    omega
  have hb : ((BitVec.ofBool b).setWidth 8).toNat ≤ 1 := by cases b <;> decide
  rw [shiftIn, BitVec.toNat_or, hs]
  refine Nat.or_lt_two_pow ?_ ?_ <;> (rw [Nat.pow_succ]; omega)

/-! ### PutBit, PutBits -/

/-- PutBit with its last position taken: the byte is emitted at once. -/
theorem putBit_full {s : State} (b : Bool) (h : s.bitcnt.toNat = 7) :
    putBit s b = { emitByte s (shiftIn s.acc b) with acc := 0, bitcnt := 0 } := by
  simp [putBit, shiftIn, h]

theorem putBit_partial {s : State} (b : Bool) (h : s.bitcnt.toNat < 7) :
    putBit s b = { s with acc := shiftIn s.acc b, bitcnt := s.bitcnt + 1 } := by
  have h' : ¬ s.bitcnt.toNat + 1 = 8 := by omega
  simp [putBit, shiftIn, h']

theorem bitcnt_lt (s : State) : s.bitcnt.toNat < 8 := s.bitcnt.isLt

/-- Everything PutBit does: the bit goes to the end of the bit stream, and nothing else but ACC,
BITCNT, OUTCNT and `out` changes. -/
theorem putBit_appends (s : State) (b : Bool) : Appends s [b] (putBit s b) := by
  rcases Nat.lt_or_ge s.bitcnt.toNat 7 with h | h
  · rw [putBit_partial b h]
    have hc : (s.bitcnt + 1).toNat = s.bitcnt.toNat + 1 := by
      rw [BitVec.toNat_add]; simp; omega
    refine ⟨?_, by simp, List.prefix_rfl, fun ha => ?_, rfl⟩
    · simp only [bitStream, pendingBits, hc]
      rw [shiftIn_bits s.acc b (show s.bitcnt.toNat ≤ 7 by omega), List.append_assoc]
    · rw [hc]
      exact shiftIn_lt ha h
  · have h7 : s.bitcnt.toNat = 7 := by have := bitcnt_lt s; omega
    rw [putBit_full b h7]
    refine ⟨?_, by simp, by simp, fun _ => by simp, rfl⟩
    have := shiftIn_bits s.acc b (n := 7) (by omega)
    simp [bitStream, pendingBits, h7, readAsCode_byte, this]

theorem appends_refl (s : State) : Appends s [] s :=
  ⟨by simp, by simp, List.prefix_rfl, id, rfl⟩

theorem appends_trans {s t u : State} {p q : Bits} (h : Appends s p t) (k : Appends t q u) :
    Appends s (p ++ q) u := by
  refine ⟨?_, ?_, h.history.trans k.history, fun ha => k.partialByte (h.partialByte ha), ?_⟩
  · rw [k.stream, h.stream, List.append_assoc]
  · have h1 := h.history.length_le
    have h2 := k.history.length_le
    rw [k.outcnt, h.outcnt, BitVec.add_assoc, ← BitVec.ofNat_add]
    congr 2
    omega
  · rw [k.frame, h.frame]

/-- Everything PutBits does (R223). -/
theorem putBits_appends (s : State) (p : Bits) : Appends s p (putBits s p) := by
  induction p generalizing s with
  | nil => exact appends_refl s
  | cons b p ih => exact appends_trans (putBit_appends s b) (ih (putBit s b))

theorem putBits_append (s : State) (p q : Bits) : putBits s (p ++ q) = putBits (putBits s p) q :=
  List.foldl_append

/-- How many bytes a run of bits emits, and how many bits remain (R226). -/
theorem appends_lengths {s t : State} {p : Bits} (h : Appends s p t) :
    t.out.length = s.out.length + (s.bitcnt.toNat + p.length) / 8 ∧
    t.bitcnt.toNat = (s.bitcnt.toNat + p.length) % 8 := by
  have hl := congrArg List.length h.stream
  rw [List.length_append, bitStream_length, bitStream_length] at hl
  have := bitcnt_lt s
  have := bitcnt_lt t
  omega

end Sys2Proof.Machine
end

