-- ==== Sys2Proof/Laws/Tables.lean ====
section
/-! SUPPORT. The loops over the length table: `lenEntries` (R17) and HEADER's loop (43_encoder.md
R241). -/

namespace Sys2Proof.Machine

open Sys2Proof.Safety

/-- The entries are the symbols in order, each with its length. -/
theorem lenEntries_eq (len : Vector (BitVec 9) 257) :
    lenEntries len = allSymbols.map fun s => (s, len[s]) := by
  refine List.ext_getElem (by simp [lenEntries, allSymbols]) fun i h1 h2 => ?_
  simp [lenEntries, allSymbols]

theorem mem_lenEntries {len : Vector (BitVec 9) 257} {e : Symbol × BitVec 9} :
    e ∈ lenEntries len ↔ len[e.1] = e.2 := by
  rw [lenEntries_eq, List.mem_map]
  constructor
  · rintro ⟨s, _, rfl⟩
    rfl
  · intro h
    exact ⟨e.1, by simp [allSymbols], by rw [h]⟩

/-- HEADER's loop without a long length: the bits of all entries are appended. -/
theorem headerEntries_eq_ok {es : List (Symbol × BitVec 9)} (s : State)
    (h : ∀ e ∈ es, e.2.toNat < 256) :
    headerEntries es s = .ok (putBits s (es.flatMap fun e => readAsCode (e.2.setWidth 8))) := by
  induction es generalizing s with
  | nil => rfl
  | cons e es ih =>
    have h1 : ¬ Config.LEN_LIMIT ≤ e.2.toNat := by
      have := h e (by simp)
      simp only [Config.LEN_LIMIT]
      omega
    rw [headerEntries, if_neg h1, ih _ fun e he => h e (by simp [he]), ← putBits_append]
    rfl

/-- HEADER's loop with a long length: it stops at the first one, after the entries before it. -/
theorem headerEntries_eq_error {pre post : List (Symbol × BitVec 9)} {sym : Symbol} {l : BitVec 9}
    (s : State) (h : ∀ e ∈ pre, e.2.toNat < 256) (hl : 256 ≤ l.toNat) :
    headerEntries (pre ++ (sym, l) :: post) s =
      .error (.lengthTooLong sym, putBits s (pre.flatMap fun e => readAsCode (e.2.setWidth 8))) := by
  induction pre generalizing s with
  | nil => rw [List.nil_append, headerEntries, if_pos hl]; rfl
  | cons e es ih =>
    have h1 : ¬ Config.LEN_LIMIT ≤ e.2.toNat := by
      have := h e (by simp)
      simp only [Config.LEN_LIMIT]
      omega
    rw [List.cons_append, headerEntries, if_neg h1, ih _ fun e he => h e (by simp [he]),
      List.flatMap_cons, putBits_append]

theorem flatMap_entry_length (es : List (Symbol × BitVec 9)) :
    (es.flatMap fun e => readAsCode (e.2.setWidth 8)).length = 8 * es.length := by
  induction es with
  | nil => rfl
  | cons e es ih =>
    simp only [List.flatMap_cons, List.length_append, readAsCode_length, ih, List.length_cons]
    omega

theorem headerBits_length (len : Vector (BitVec 9) 257) : (headerBits len).length = 2056 := by
  rw [headerBits, flatMap_entry_length, lenEntries_eq]
  simp [allSymbols]

/-- What HEADER's loop can do: all entries, or those before the first long length. -/
theorem headerEntries_cases (es : List (Symbol × BitVec 9)) (s : State) :
    (∃ t p, headerEntries es s = .ok t ∧ Appends s p t ∧ p.length = 8 * es.length ∧
      ∀ e ∈ es, e.2.toNat < 256) ∨
    (∃ sym t p, headerEntries es s = .error (.lengthTooLong sym, t) ∧ Appends s p t ∧
      p.length ≤ 8 * es.length ∧ ∃ e ∈ es, e.1 = sym ∧ 256 ≤ e.2.toNat) := by
  induction es generalizing s with
  | nil => exact .inl ⟨s, [], rfl, appends_refl s, rfl, by simp⟩
  | cons e es ih =>
    by_cases h : Config.LEN_LIMIT ≤ e.2.toNat
    · exact .inr ⟨e.1, s, [], by rw [headerEntries, if_pos h], appends_refl s, by simp, e, by simp, rfl, h⟩
    · rw [headerEntries, if_neg h]
      have h' : e.2.toNat < 256 := Nat.lt_of_not_le h
      have a := putBits_appends s (readAsCode (e.2.setWidth 8))
      rcases ih (putBits s (readAsCode (e.2.setWidth 8))) with
        ⟨t, p, he, ha, hp, hl⟩ | ⟨sym, t, p, he, ha, hp, e', he', hs, hl⟩
      · refine .inl ⟨t, _, he, appends_trans a ha, ?_, fun x hx => ?_⟩
        · rw [List.length_append, readAsCode_length, hp, List.length_cons]
          omega
        · rcases List.mem_cons.mp hx with rfl | hx
          · exact h'
          · exact hl x hx
      · refine .inr ⟨sym, t, _, he, appends_trans a ha, ?_, e', by simp [he'], hs, hl⟩
        rw [List.length_append, readAsCode_length, List.length_cons]
        omega

theorem lenEntries_length (len : Vector (BitVec 9) 257) : (lenEntries len).length = 257 := by
  rw [lenEntries_eq]
  simp [allSymbols]

end Sys2Proof.Machine
end

