-- ==== Sys2Proof/Laws/Commands.lean ====
section
/-! SUPPORT. The inversion lemmas of the commands: what the effect of each command can be when it
completes, and which errors it can raise (40_load_and_control.md to 43_encoder.md). Provers cite these
instead of unfolding a meaning. -/

namespace Sys2Proof.Machine

open Sys2Proof.Safety

/-- What a completed command did. -/
def Completed : Instr → State → State → Prop
  | .nop, s, t => t = s
  | .sreset, s, t => t = resetCore s
  | .ldlen sym len, s, t => ∃ k : Symbol, k.val = sym ∧ t = { s with len := s.len.set k len }
  | .ldleaf idx sym, s, t => ∃ (i : NodeIdx) (k : Symbol), i.val = idx ∧ k.val = sym ∧
      t = { s with node := s.node.set i (.leaf k) }
  | .ldint idx left right, s, t => ∃ i l r : NodeIdx, i.val = idx ∧ l.val = left ∧ r.val = right ∧
      t = { s with node := s.node.set i (.internal l r) }
  | .derive, s, t => ∃ d, deriveDepths s.node = .ok d ∧ t = { s with len := toLengths d }
  | .build, s, t => ∃ T, canonicalTree s.len = .ok T ∧
      t = { s with tree := some T, code := codeTable T, state := .ready }
  | .header, s, t => ∃ u, headerEntries (lenEntries s.len) s = .ok u ∧ t = { u with state := .stream }
  | .byte b, s, t => s.len[byteSymbol b] ≠ 0 ∧ t = putBits s s.code[byteSymbol b]
  | .finish, s, t => s.len[Config.EOS] ≠ 0 ∧
      t = { closeStream (putBits s s.code[Config.EOS]) with state := .done }
  | .wrbit v, s, t => v.toNat ≤ 1 ∧ t = putBit s (v == 1)

theorem checked_map_ok {α : Type} {s t : State} {r : Except ErrorCause α} {f : α → State}
    (h : (checked s r).map f = .ok t) : ∃ a, r = .ok a ∧ t = f a := by
  cases r with
  | error c => simp [Except.map] at h
  | ok a => exact ⟨a, rfl, (Except.ok.inj h).symm⟩

theorem checked_map_error {α : Type} {s u : State} {c : ErrorCause} {r : Except ErrorCause α}
    {f : α → State} (h : (checked s r).map f = .error (c, u)) : u = s ∧ r = .error c := by
  cases r with
  | error c' =>
    simp only [checked_error, Except.map, Except.error.injEq, Prod.mk.injEq] at h
    exact ⟨h.2.symm, by rw [h.1]⟩
  | ok a => simp [Except.map] at h

theorem codeOf_eq_ok {s : State} {sym : Symbol} {p : Bits} (h : codeOf s sym = .ok p) :
    s.len[sym] ≠ 0 ∧ p = s.code[sym] := by
  unfold codeOf at h
  split at h
  · simp at h
  · exact ⟨‹_›, (Except.ok.inj h).symm⟩

theorem codeOf_eq_error {s : State} {sym : Symbol} {c : ErrorCause} (h : codeOf s sym = .error c) :
    s.len[sym] = 0 ∧ c = .noCode sym := by
  unfold codeOf at h
  split at h
  · exact ⟨‹_›, (Except.error.inj h).symm⟩
  · simp at h

/-- Everything the effect of a command can do when it completes. -/
theorem effectOf_ok {i : Instr} {s t : State} (h : effectOf i s = .ok t) : Completed i s t := by
  cases i with
  | nop => exact (Except.ok.inj h).symm
  | sreset => exact (Except.ok.inj h).symm
  | ldlen sym len =>
    rcases Nat.lt_or_ge 256 sym with hs | hs
    · simp [effectOf, symOperand_eq_error hs, Except.map] at h
    · simp only [effectOf, symOperand_of_le hs, checked_ok, Except.map, Except.ok.injEq] at h
      exact ⟨⟨sym, by omega⟩, rfl, h.symm⟩
  | ldleaf idx sym =>
    rcases Nat.lt_or_ge 512 idx with hi | hi
    · simp [effectOf, idxOperand_eq_error hi, Except.bind] at h
    rcases Nat.lt_or_ge 256 sym with hs | hs
    · simp [effectOf, idxOperand_of_le hi, symOperand_eq_error hs, Except.map, Except.bind] at h
    · simp only [effectOf, idxOperand_of_le hi, symOperand_of_le hs, checked_ok, Except.map,
        Except.bind, Except.ok.injEq] at h
      exact ⟨⟨idx, by omega⟩, ⟨sym, by omega⟩, rfl, rfl, h.symm⟩
  | ldint idx left right =>
    rcases Nat.lt_or_ge 512 idx with hi | hi
    · simp [effectOf, idxOperand_eq_error hi, Except.bind] at h
    rcases Nat.lt_or_ge 512 left with hl | hl
    · simp [effectOf, idxOperand_of_le hi, idxOperand_eq_error hl, Except.bind] at h
    rcases Nat.lt_or_ge 512 right with hr | hr
    · simp [effectOf, idxOperand_of_le hi, idxOperand_of_le hl, idxOperand_eq_error hr, Except.map,
        Except.bind] at h
    · simp only [effectOf, idxOperand_of_le hi, idxOperand_of_le hl, idxOperand_of_le hr, checked_ok,
        Except.map, Except.bind, Except.ok.injEq] at h
      exact ⟨⟨idx, by omega⟩, ⟨left, by omega⟩, ⟨right, by omega⟩, rfl, rfl, rfl, h.symm⟩
  | derive =>
    obtain ⟨d, hd, rfl⟩ := checked_map_ok h
    exact ⟨d, hd, rfl⟩
  | build =>
    obtain ⟨T, hT, rfl⟩ := checked_map_ok h
    exact ⟨T, hT, rfl⟩
  | header =>
    rcases hh : headerEntries (lenEntries s.len) s with e | u
    · simp [effectOf, hh, Except.map] at h
    · simp only [effectOf, hh, Except.map, Except.ok.injEq] at h
      exact ⟨u, hh, h.symm⟩
  | byte b =>
    obtain ⟨p, hp, rfl⟩ := checked_map_ok h
    obtain ⟨h0, rfl⟩ := codeOf_eq_ok hp
    exact ⟨h0, rfl⟩
  | finish =>
    obtain ⟨p, hp, rfl⟩ := checked_map_ok h
    obtain ⟨h0, rfl⟩ := codeOf_eq_ok hp
    exact ⟨h0, rfl⟩
  | wrbit v =>
    obtain ⟨b, hb, rfl⟩ := checked_map_ok h
    rcases Nat.lt_or_ge 1 v.toNat with hv | hv
    · rw [bitOperand_eq_error hv] at hb
      cases hb
    · rw [bitOperand_eq_ok hv] at hb
      exact ⟨hv, by rw [← Except.ok.inj hb]⟩

/-- Everything the effect of a command can raise, and at which state. -/
theorem effectOf_error {i : Instr} {s u : State} {c : ErrorCause}
    (h : effectOf i s = .error (c, u)) : Raised i s c u := by
  cases i with
  | nop => cases h
  | sreset => cases h
  | ldlen sym len =>
    obtain ⟨hu, hc⟩ := checked_map_error h
    rcases Nat.lt_or_ge 256 sym with hs | hs
    · rw [symOperand_eq_error hs] at hc
      exact ⟨hu, hs, (Except.error.inj hc).symm⟩
    · rw [symOperand_of_le hs] at hc
      cases hc
  | ldleaf idx sym =>
    rcases Nat.lt_or_ge 512 idx with hi | hi
    · simp only [effectOf, idxOperand_eq_error hi, checked_error, Except.bind, Except.error.injEq,
        Prod.mk.injEq] at h
      exact ⟨h.2.symm, .inl ⟨hi, h.1.symm⟩⟩
    · simp only [effectOf, idxOperand_of_le hi, checked_ok, Except.bind] at h
      obtain ⟨hu, hc⟩ := checked_map_error h
      rcases Nat.lt_or_ge 256 sym with hs | hs
      · rw [symOperand_eq_error hs] at hc
        exact ⟨hu, .inr ⟨hi, hs, (Except.error.inj hc).symm⟩⟩
      · rw [symOperand_of_le hs] at hc
        cases hc
  | ldint idx left right =>
    rcases Nat.lt_or_ge 512 idx with hi | hi
    · simp only [effectOf, idxOperand_eq_error hi, checked_error, Except.bind, Except.error.injEq,
        Prod.mk.injEq] at h
      exact ⟨h.2.symm, .inl ⟨hi, h.1.symm⟩⟩
    rcases Nat.lt_or_ge 512 left with hl | hl
    · simp only [effectOf, idxOperand_of_le hi, idxOperand_eq_error hl, checked_ok, checked_error,
        Except.bind, Except.error.injEq, Prod.mk.injEq] at h
      exact ⟨h.2.symm, .inr (.inl ⟨hi, hl, h.1.symm⟩)⟩
    · simp only [effectOf, idxOperand_of_le hi, idxOperand_of_le hl, checked_ok, Except.bind] at h
      obtain ⟨hu, hc⟩ := checked_map_error h
      rcases Nat.lt_or_ge 512 right with hr | hr
      · rw [idxOperand_eq_error hr] at hc
        exact ⟨hu, .inr (.inr ⟨hi, hl, hr, (Except.error.inj hc).symm⟩)⟩
      · rw [idxOperand_of_le hr] at hc
        cases hc
  | derive => exact checked_map_error h
  | build => exact checked_map_error h
  | header =>
    rcases hh : headerEntries (lenEntries s.len) s with e | t
    · simp only [effectOf, hh, Except.map, Except.error.injEq] at h
      exact hh.trans (congrArg _ h)
    · simp [effectOf, hh, Except.map] at h
  | byte b =>
    obtain ⟨hu, hc⟩ := checked_map_error h
    exact ⟨hu, codeOf_eq_error hc⟩
  | finish =>
    obtain ⟨hu, hc⟩ := checked_map_error h
    exact ⟨hu, codeOf_eq_error hc⟩
  | wrbit v =>
    obtain ⟨hu, hc⟩ := checked_map_error h
    rcases Nat.lt_or_ge 1 v.toNat with hv | hv
    · rw [bitOperand_eq_error hv] at hc
      exact ⟨hu, hv, (Except.error.inj hc).symm⟩
    · rw [bitOperand_eq_ok hv] at hc
      cases hc

/-- Every command but HEADER performs all its checks before its first effect (R151). -/
theorem raised_at {i : Instr} {s u : State} {c : ErrorCause} (h : Raised i s c u) (hi : i ≠ .header) :
    u = s := by
  cases i <;> first | exact h.1 | exact absurd rfl hi | exact h.elim

/-- What a command can answer: it is ignored, turned away, completed, or it raises. -/
theorem exec_cases {i : Instr} {s t : State} (h : exec i s = .next t) :
    (accepts i s.state = .ignored ∧ t = s) ∨
    (accepts i s.state = .sequence ∧ t = raiseError (encode i) (.wrongState s.state) s) ∨
    (accepts i s.state = .performs ∧ Completed i s t) ∨
    (accepts i s.state = .performs ∧ ∃ c u, Raised i s c u ∧ t = raiseError (encode i) c u) := by
  rw [exec_eq_perform] at h
  rcases perform_cases h with h | h | ⟨ha, hf⟩ | ⟨ha, c, u, hf, ht⟩
  · exact .inl h
  · exact .inr (.inl h)
  · exact .inr (.inr (.inl ⟨ha, effectOf_ok hf⟩))
  · exact .inr (.inr (.inr ⟨ha, c, u, effectOf_error hf, ht⟩))

theorem exec_completes {i : Instr} {s t : State} (ha : accepts i s.state = .performs)
    (hf : effectOf i s = .ok t) : exec i s = .next t := by
  rw [exec_eq_perform]
  exact perform_ok ha hf

theorem exec_raises {i : Instr} {s u : State} {c : ErrorCause} (ha : accepts i s.state = .performs)
    (hf : effectOf i s = .error (c, u)) : exec i s = .next (raiseError (encode i) c u) := by
  rw [exec_eq_perform]
  exact perform_error ha hf

/-- In ERROR, SRESET resets and every other command is ignored (R283, R284). -/
theorem exec_of_error {s : State} (h : s.state = .error) (i : Instr) :
    exec i s = .next (if i = .sreset then resetCore s else s) := by
  rw [exec_eq_perform]
  cases i <;> simp [perform, accepts, h, acceptIdle, acceptNop, acceptSreset, acceptHeader,
    acceptWrbit, acceptStream, effectOf]

end Sys2Proof.Machine
end

