-- ==== Sys2Proof/Laws/Trees.lean ====
section
/-! SUPPORT. The traversals of the canonicalizer: which errors they raise, how the walk of DERIVE
unfolds at each kind of node, and how pairing changes the length of a level's list
(41_canonicalizer.md R182, R191). -/

namespace Sys2Proof.Machine

open Sys2Proof.Safety

/-! ### DERIVE's walk -/

theorem visit_visited {node : Vector Node 513} {fuel : Nat} {i : NodeIdx} {d : Nat} {k : Walk}
    (h : i ∈ k.visited) : visit node (fuel + 1) i d k = .error (.nodeRevisited i) := by
  simp [visit, h]

theorem visit_empty {node : Vector Node 513} {fuel : Nat} {i : NodeIdx} {d : Nat} {k : Walk}
    (h : i ∉ k.visited) (hn : node[i] = .empty) :
    visit node (fuel + 1) i d k = .error (.emptyNode i) := by
  simp only [visit, h, if_false, hn]

theorem visit_leaf {node : Vector Node 513} {fuel : Nat} {i : NodeIdx} {d : Nat} {k : Walk} {s : Symbol}
    (h : i ∉ k.visited) (hn : node[i] = .leaf s) :
    visit node (fuel + 1) i d k =
      if s ∈ k.seen then .error (.duplicateSymbol s)
      else .ok { visited := i :: k.visited, seen := s :: k.seen, depths := k.depths.set s d } := by
  simp only [visit, h, if_false, hn]

theorem visit_internal {node : Vector Node 513} {fuel : Nat} {i : NodeIdx} {d : Nat} {k : Walk}
    {l r : NodeIdx} (h : i ∉ k.visited) (hn : node[i] = .internal l r) :
    visit node (fuel + 1) i d k =
      match visit node fuel l (d + 1) { k with visited := i :: k.visited } with
      | .error e => .error e
      | .ok k' => visit node fuel r (d + 1) k' := by
  simp only [visit, h, if_false, hn] <;> rfl

/-- The walk raises INTERNAL_INVARIANT with sub-causes 2 to 4 only, and the argument fits ERRARG. -/
theorem visit_error {node : Vector Node 513} {fuel : Nat} {i : NodeIdx} {d : Nat} {k : Walk}
    {c : ErrorCause} (h : visit node fuel i d k = .error c) :
    c.errcode = 3 ∧ c.errsub.toNat ≤ 4 ∧ c.argument < 1024 ∧ ∀ n, c ≠ .rootCount n := by
  induction fuel generalizing i d k with
  | zero =>
    cases h
    exact ⟨rfl, by simp [ErrorCause.errsub], by simp only [ErrorCause.argument]; omega, by simp⟩
  | succ fuel ih =>
    by_cases hv : i ∈ k.visited
    · rw [visit_visited hv] at h
      cases h
      exact ⟨rfl, by simp [ErrorCause.errsub], by simp only [ErrorCause.argument]; omega, by simp⟩
    rcases hn : node[i] with _ | s | ⟨l, r⟩
    · rw [visit_empty hv hn] at h
      cases h
      exact ⟨rfl, by simp [ErrorCause.errsub], by simp only [ErrorCause.argument]; omega, by simp⟩
    · rw [visit_leaf hv hn] at h
      split at h
      · cases h
        exact ⟨rfl, by simp [ErrorCause.errsub], by simp only [ErrorCause.argument]; omega, by simp⟩
      · cases h
    · rw [visit_internal hv hn] at h
      split at h
      · next e he =>
        cases h
        exact ih he
      · exact ih h

/-- DERIVE raises INTERNAL_INVARIANT with sub-causes 1 to 4 only (R181). -/
theorem deriveDepths_error {node : Vector Node 513} {c : ErrorCause} (h : deriveDepths node = .error c) :
    c.errcode = 3 ∧ c.errsub.toNat ≤ 4 ∧ c.argument < 1024 ∧ ∀ n, c ≠ .rootCount n := by
  unfold deriveDepths at h
  split at h
  · rcases hv : visit node Config.NMAX Config.ROOT 0 Walk.start with e | k
    · rw [hv] at h
      cases h
      exact visit_error hv
    · rw [hv] at h
      cases h
  · cases h
    exact ⟨rfl, by decide, by decide, by simp⟩
  · cases h
    exact ⟨rfl, by decide, by decide, by simp⟩

/-! ### BUILD's levels -/

theorem pairUp_length : (l : List Tree) → (pairUp l).length = l.length / 2
  | [] => rfl
  | [_] => by simp [pairUp]
  | _ :: _ :: rest => by
    simp only [pairUp, List.length_cons, pairUp_length rest]
    omega

theorem buildLevels_odd {len : Vector (BitVec 9) 257} {L : Nat} {carried : List Tree}
    (h : (carried ++ leavesAt len (L + 1)).length % 2 = 1) :
    buildLevels len (L + 1) carried = .error (.oddLevel (L + 1)) := by
  simp only [buildLevels, h, if_true]

theorem buildLevels_even {len : Vector (BitVec 9) 257} {L : Nat} {carried : List Tree}
    (h : (carried ++ leavesAt len (L + 1)).length % 2 = 0) :
    buildLevels len (L + 1) carried =
      buildLevels len L (pairUp (carried ++ leavesAt len (L + 1))) := by
  have h' : ¬ (carried ++ leavesAt len (L + 1)).length % 2 = 1 := by omega
  simp only [buildLevels, h', if_false]

/-- A level that fails is one of the levels still to be done. -/
theorem buildLevels_error {len : Vector (BitVec 9) 257} {M : Nat} {carried : List Tree}
    {c : ErrorCause} (h : buildLevels len M carried = .error c) :
    ∃ L, c = .oddLevel L ∧ 1 ≤ L ∧ L ≤ M := by
  induction M generalizing carried with
  | zero => cases h
  | succ M ih =>
    rcases Nat.mod_two_eq_zero_or_one (carried ++ leavesAt len (M + 1)).length with h2 | h2
    · rw [buildLevels_even h2] at h
      obtain ⟨L, hc, h1, hM⟩ := ih h
      exact ⟨L, hc, h1, by omega⟩
    · rw [buildLevels_odd h2] at h
      cases h
      exact ⟨M + 1, rfl, by omega, by omega⟩

/-- BUILD raises ODD_LEVEL or ROOT_COUNT only (R190, R191). -/
theorem canonicalTree_error {len : Vector (BitVec 9) 257} {c : ErrorCause}
    (h : canonicalTree len = .error c) :
    (∃ L, c = .oddLevel L ∧ 1 ≤ L ∧ L ≤ maxLength len) ∨
    ∃ carried, c = .rootCount carried.length ∧ carried.length ≠ 1 ∧
      buildLevels len (maxLength len) [] = .ok carried := by
  unfold canonicalTree at h
  split at h
  · next e he =>
    cases h
    exact .inl (buildLevels_error he)
  · cases h
  · next carried hne hb =>
    cases h
    refine .inr ⟨carried, rfl, fun h1 => ?_, hb⟩
    obtain ⟨t, rfl⟩ := List.length_eq_one_iff.mp h1
    exact hne t rfl

/-- The class of an error a command raises is one of ICP's three (R272). -/
theorem raised_errcode {i : Instr} {s u : State} {c : ErrorCause} (h : Raised i s c u) :
    c.errcode = 1 ∨ c.errcode = 2 ∨ c.errcode = 3 := by
  cases i with
  | nop => exact h.elim
  | sreset => exact h.elim
  | ldlen => obtain ⟨-, -, rfl⟩ := h; exact .inl rfl
  | ldleaf => obtain ⟨-, ⟨-, rfl⟩ | ⟨-, -, rfl⟩⟩ := h <;> exact .inl rfl
  | ldint => obtain ⟨-, ⟨-, rfl⟩ | ⟨-, -, rfl⟩ | ⟨-, -, -, rfl⟩⟩ := h <;> exact .inl rfl
  | derive => exact .inr (.inr (deriveDepths_error h.2).1)
  | build =>
    rcases canonicalTree_error h.2 with ⟨L, rfl, -⟩ | ⟨l, rfl, -⟩ <;> exact .inr (.inr rfl)
  | header =>
    rcases headerEntries_cases (lenEntries s.len) s with ⟨t, p, ht, -⟩ | ⟨sym, t, p, ht, -⟩
    · rw [Raised, ht] at h
      cases h
    · rw [Raised, ht] at h
      cases h
      exact .inr (.inl rfl)
  | byte => obtain ⟨-, -, rfl⟩ := h; exact .inl rfl
  | finish => obtain ⟨-, -, rfl⟩ := h; exact .inl rfl
  | wrbit => obtain ⟨-, -, rfl⟩ := h; exact .inl rfl

end Sys2Proof.Machine
end

