-- ==== Sys2Proof/Laws/Arena.lean ====
section
/-! SUPPORT. The walk of DERIVE against the trees an arena holds (41_canonicalizer.md R182, R184): what it
answers below a node that holds a tree, that it answers only there, and that it is R182's `Visit`. -/

namespace Sys2Proof.Machine

open Sys2Proof.Safety

/-! ### Leaves, indices and counts -/

/-- The symbols of the leaves, left to right. -/
def symbolsOf (a : ArenaTree) : List Symbol := (a.leaves 0).map Prod.fst

theorem leaves_symbols (a : ArenaTree) (d : Nat) : (a.leaves d).map Prod.fst = symbolsOf a := by
  have key : ∀ d e, (a.leaves d).map Prod.fst = (a.leaves e).map Prod.fst := by
    induction a with
    | leaf => exact fun _ _ => rfl
    | node i l r ihl ihr =>
      intro d e
      simp only [ArenaTree.leaves, List.map_append]
      rw [ihl _ (e + 1), ihr _ (e + 1)]
  exact key d 0

theorem symbolsOf_leaf (i : NodeIdx) (s : Symbol) : symbolsOf (.leaf i s) = [s] := rfl

theorem symbolsOf_node (i : NodeIdx) (l r : ArenaTree) :
    symbolsOf (.node i l r) = symbolsOf l ++ symbolsOf r := by
  simp only [symbolsOf, ArenaTree.leaves, List.map_append]
  rw [leaves_symbols, leaves_symbols]
  rfl

/-- A full binary tree has one leaf more than it has internal nodes. -/
theorem tree_counts (a : ArenaTree) :
    a.indices.length = 2 * a.internals + 1 ∧ (symbolsOf a).length = a.internals + 1 := by
  induction a with
  | leaf => exact ⟨rfl, rfl⟩
  | node i l r ihl ihr =>
    rw [symbolsOf_node]
    simp only [ArenaTree.indices, ArenaTree.internals, List.length_cons, List.length_append]
    omega

theorem internals_le {a : ArenaTree} (h : a.indices.Nodup) : a.internals ≤ 256 := by
  have h1 := tree_counts a
  have h2 : a.indices.length ≤ 513 := by simpa using List.Nodup.length_le_card h
  omega

/-- A leaf is no deeper than there are internal nodes. -/
theorem leaf_depth_le (a : ArenaTree) (d : Nat) (e : Symbol × Nat) (h : e ∈ a.leaves d) :
    e.2 ≤ d + a.internals := by
  induction a generalizing d with
  | leaf =>
    simp only [ArenaTree.leaves, List.mem_singleton] at h
    simp [h]
  | node i l r ihl ihr =>
    simp only [ArenaTree.leaves, List.mem_append, ArenaTree.internals] at *
    rcases h with h | h
    · have := ihl _ h
      omega
    · have := ihr _ h
      omega

/-- The leaves below a node at depth d weigh what the node weighs (R184). -/
theorem leaves_weight (a : ArenaTree) (d : Nat) :
    ((a.leaves d).map fun e => (1 / 2 ^ e.2 : ℚ)).sum = 1 / 2 ^ d := by
  induction a generalizing d with
  | leaf => simp [ArenaTree.leaves]
  | node i l r ihl ihr =>
    simp only [ArenaTree.leaves, List.map_append, List.sum_append, ihl, ihr, pow_succ]
    field_simp
    norm_num

/-! ### The walk -/

/-- Below a node that holds a tree with fresh nodes and fresh symbols, the walk visits exactly the tree and
writes the depth of each of its leaves (R182). -/
theorem visit_stored {node : Vector Node 513} (a : ArenaTree) {fuel d : Nat} {k : Walk}
    (hs : a.storedIn node) (hf : a.internals < fuel) (hn : a.indices.Nodup)
    (hv : ∀ i ∈ a.indices, i ∉ k.visited) (hy : (symbolsOf a).Nodup) (hk : ∀ s ∈ symbolsOf a, s ∉ k.seen) :
    ∃ k', visit node fuel a.root d k = .ok k' ∧
      (∀ i, i ∈ k'.visited ↔ i ∈ a.indices ∨ i ∈ k.visited) ∧
      (∀ s, s ∈ k'.seen ↔ s ∈ symbolsOf a ∨ s ∈ k.seen) ∧
      (∀ s e, (s, e) ∈ a.leaves d → k'.depths[s] = e) ∧
      (∀ s, s ∉ symbolsOf a → k'.depths[s] = k.depths[s]) := by
  induction a generalizing fuel d k with
  | leaf i s =>
    obtain ⟨f, rfl⟩ : ∃ f, fuel = f + 1 := ⟨fuel - 1, by omega⟩
    have h1 : i ∉ k.visited := hv i (by simp [ArenaTree.indices])
    have h2 : s ∉ k.seen := hk s (by simp [symbolsOf_leaf])
    refine ⟨_, by rw [ArenaTree.root, visit_leaf h1 hs, if_neg h2], by simp [ArenaTree.indices],
      by simp [symbolsOf_leaf], by simp [ArenaTree.leaves], fun t ht => ?_⟩
    have h3 : s.val ≠ t.val := fun h => ht (by simp [symbolsOf_leaf, Fin.ext h])
    simp [Vector.getElem_set_ne _ _ h3]
  | node i l r ihl ihr =>
    obtain ⟨f, rfl⟩ : ∃ f, fuel = f + 1 := ⟨fuel - 1, by omega⟩
    simp only [ArenaTree.internals] at hf
    obtain ⟨h0, hsl, hsr⟩ := hs
    simp only [ArenaTree.indices, List.nodup_cons, List.mem_append, not_or, List.nodup_append] at hn
    rw [symbolsOf_node, List.nodup_append] at hy
    have hi : i ∉ k.visited := hv i (by simp [ArenaTree.indices])
    obtain ⟨k1, e1, v1, s1, d1, n1⟩ := ihl (fuel := f) (d := d + 1)
      (k := { k with visited := i :: k.visited }) hsl (by omega) hn.2.1
      (fun j hj => by
        simp only [List.mem_cons, not_or]
        exact ⟨fun h => hn.1.1 (h ▸ hj), hv j (by simp [ArenaTree.indices, hj])⟩)
      hy.1 (fun s hs => hk s (by rw [symbolsOf_node]; simp [hs]))
    obtain ⟨k2, e2, v2, s2, d2, n2⟩ := ihr (fuel := f) (d := d + 1) (k := k1) hsr (by omega) hn.2.2.1
      (fun j hj => by
        rw [v1]
        rintro (h | h)
        · exact hn.2.2.2 j h j hj rfl
        · rcases List.mem_cons.mp h with rfl | h
          · exact hn.1.2 hj
          · exact hv j (by simp [ArenaTree.indices, hj]) h)
      hy.2.1
      (fun s hs => by
        rw [s1]
        rintro (h | h)
        · exact hy.2.2 s h s hs rfl
        · exact hk s (by rw [symbolsOf_node]; simp [hs]) h)
    refine ⟨k2, by rw [ArenaTree.root, visit_internal hi h0, e1]; exact e2, fun j => ?_, fun s => ?_,
      fun s e he => ?_, fun s hs => ?_⟩
    · rw [v2, v1]
      simp only [ArenaTree.indices, List.mem_cons, List.mem_append]
      tauto
    · rw [s2, s1, symbolsOf_node, List.mem_append]
      tauto
    · simp only [ArenaTree.leaves, List.mem_append] at he
      rcases he with he | he
      · rw [n2 s, d1 s e he]
        intro h
        have hl : s ∈ symbolsOf l := by
          rw [← leaves_symbols l (d + 1)]
          exact List.mem_map.mpr ⟨_, he, rfl⟩
        exact hy.2.2 s hl s h rfl
      · exact d2 s e he
    · rw [symbolsOf_node, List.mem_append, not_or] at hs
      rw [n2 s hs.2, n1 s hs.1]

/-- A walk that returns has walked a tree with fresh nodes and fresh symbols (R182, R184). -/
theorem visit_ok {node : Vector Node 513} {fuel : Nat} {i : NodeIdx} {d : Nat} {k k' : Walk}
    (h : visit node fuel i d k = .ok k') :
    ∃ a : ArenaTree, a.storedIn node ∧ a.root = i ∧ a.indices.Nodup ∧ (∀ j ∈ a.indices, j ∉ k.visited) ∧
      (symbolsOf a).Nodup ∧ (∀ s ∈ symbolsOf a, s ∉ k.seen) ∧
      (∀ i, i ∈ k'.visited ↔ i ∈ a.indices ∨ i ∈ k.visited) ∧
      (∀ s, s ∈ k'.seen ↔ s ∈ symbolsOf a ∨ s ∈ k.seen) := by
  induction fuel generalizing i d k k' with
  | zero => cases h
  | succ f ih =>
    by_cases hi : i ∈ k.visited
    · rw [visit_visited hi] at h
      cases h
    rcases hn : node[i] with _ | s | ⟨l, r⟩
    · rw [visit_empty hi hn] at h
      cases h
    · rw [visit_leaf hi hn] at h
      split at h
      · cases h
      · next hs =>
        cases h
        exact ⟨.leaf i s, hn, rfl, by simp [ArenaTree.indices], by simpa [ArenaTree.indices],
          by simp [symbolsOf_leaf], by simpa [symbolsOf_leaf], by simp [ArenaTree.indices],
          by simp [symbolsOf_leaf]⟩
    · rw [visit_internal hi hn] at h
      split at h
      · cases h
      · next k1 h1 =>
        obtain ⟨a, sa, ra, na, va, ya, ka, v1, s1⟩ := ih h1
        obtain ⟨b, sb, rb, nb, vb, yb, kb, v2, s2⟩ := ih h
        refine ⟨.node i a b, ⟨by rw [ra, rb]; exact hn, sa, sb⟩, rfl, ?_, fun j hj => ?_, ?_, fun s hs => ?_,
          fun j => ?_, fun s => ?_⟩
        · simp only [ArenaTree.indices, List.nodup_cons, List.mem_append, not_or, List.nodup_append]
          refine ⟨⟨fun h => va i h (by simp), fun h => vb i h ((v1 i).mpr (by simp))⟩, na, nb, ?_⟩
          rintro x hx y hy rfl
          exact vb x hy ((v1 x).mpr (.inl hx))
        · simp only [ArenaTree.indices, List.mem_cons, List.mem_append] at hj
          rcases hj with rfl | hj | hj
          · exact hi
          · exact fun h => va j hj (by simp [h])
          · exact fun h => vb j hj ((v1 j).mpr (.inr (by simp [h])))
        · rw [symbolsOf_node, List.nodup_append]
          refine ⟨ya, yb, ?_⟩
          rintro x hx y hy rfl
          exact kb x hy ((s1 x).mpr (.inl hx))
        · rw [symbolsOf_node, List.mem_append] at hs
          rcases hs with hs | hs
          · exact ka s hs
          · exact fun h => kb s hs ((s1 s).mpr (.inr h))
        · rw [v2, v1]
          simp only [ArenaTree.indices, List.mem_cons, List.mem_append]
          tauto
        · rw [s2, s1, symbolsOf_node, List.mem_append]
          tauto

/-! ### The walk without fuel -/

/-- A walk only adds distinct nodes to those visited (R182). -/
theorem visit_visited_nodup {node : Vector Node 513} {fuel : Nat} {i : NodeIdx} {d : Nat} {k k' : Walk}
    (h : visit node fuel i d k = .ok k') (hk : k.visited.Nodup) :
    k'.visited.Nodup ∧ k.visited.length < k'.visited.length := by
  induction fuel generalizing i d k k' with
  | zero => cases h
  | succ f ih =>
    by_cases hi : i ∈ k.visited
    · rw [visit_visited hi] at h
      cases h
    have hc : (i :: k.visited).Nodup := List.nodup_cons.mpr ⟨hi, hk⟩
    rcases hn : node[i] with _ | s | ⟨l, r⟩
    · rw [visit_empty hi hn] at h
      cases h
    · rw [visit_leaf hi hn] at h
      split at h
      · cases h
      · cases h
        exact ⟨hc, by simp⟩
    · rw [visit_internal hi hn] at h
      split at h
      · cases h
      · next k1 h1 =>
        obtain ⟨n1, l1⟩ := ih h1 hc
        obtain ⟨n2, l2⟩ := ih h n1
        exact ⟨n2, by simp only [List.length_cons] at l1; omega⟩

/-- With as much fuel as there are nodes left to visit, the walk is R182's `Visit` (log 10). -/
theorem visits_of_visit {node : Vector Node 513} {fuel : Nat} {i : NodeIdx} {d : Nat} {k : Walk}
    (hk : k.visited.Nodup) (hf : 513 ≤ fuel + k.visited.length) :
    Visits node i d k (visit node fuel i d k) := by
  induction fuel generalizing i d k with
  | zero =>
    refine .revisited (by_contra fun hi => ?_)
    have := List.Nodup.length_le_card (List.nodup_cons.mpr ⟨hi, hk⟩)
    simp only [List.length_cons, Fintype.card_fin] at this
    omega
  | succ f ih =>
    by_cases hi : i ∈ k.visited
    · rw [visit_visited hi]
      exact .revisited hi
    have hc : (i :: k.visited).Nodup := List.nodup_cons.mpr ⟨hi, hk⟩
    rcases hn : node[i] with _ | s | ⟨l, r⟩
    · rw [visit_empty hi hn]
      exact .empty hi hn
    · rw [visit_leaf hi hn]
      split
      · next hs => exact .duplicate hi hn hs
      · next hs => exact .leaf hi hn hs
    · rw [visit_internal hi hn]
      have hl := ih (i := l) (d := d + 1) (k := { k with visited := i :: k.visited }) hc
        (by simp only [List.length_cons]; omega)
      split
      · next e he =>
        rw [he] at hl
        exact .leftRaises hi hn hl
      · next k1 h1 =>
        rw [h1] at hl
        obtain ⟨n1, l1⟩ := visit_visited_nodup h1 hc
        exact .leftThenRight hi hn hl (ih n1 (by simp only [List.length_cons] at l1; omega))

/-- A visit has one outcome only. -/
theorem visits_unique {node : Vector Node 513} {i : NodeIdx} {d : Nat} {k : Walk}
    {x y : Except ErrorCause Walk} (hx : Visits node i d k x) (hy : Visits node i d k y) : x = y := by
  induction hx generalizing y with
  | revisited h => cases hy <;> first | rfl | contradiction
  | empty h hn => cases hy <;> first | rfl | contradiction | simp_all
  | duplicate h hn hs => cases hy <;> first | contradiction | simp_all
  | leaf h hn hs => cases hy <;> first | contradiction | simp_all
  | leftRaises h hn hl ih =>
    cases hy with
    | revisited h' => exact absurd h' h
    | empty _ hn' | duplicate _ hn' _ | leaf _ hn' _ => rw [hn] at hn'; cases hn'
    | leftRaises _ hn' hl' => rw [hn] at hn'; cases hn'; exact ih hl'
    | leftThenRight _ hn' hl' _ => rw [hn] at hn'; cases hn'; cases ih hl'
  | leftThenRight h hn hl hr ihl ihr =>
    cases hy with
    | revisited h' => exact absurd h' h
    | empty _ hn' | duplicate _ hn' _ | leaf _ hn' _ => rw [hn] at hn'; cases hn'
    | leftRaises _ hn' hl' => rw [hn] at hn'; cases hn'; cases ihl hl'
    | leftThenRight _ hn' hl' hr' => rw [hn] at hn'; cases hn'; cases ihl hl'; exact ihr hr'

end Sys2Proof.Machine
end

