-- ==== Sys2Proof/Laws/Stream.lean ====
section
/-! SUPPORT. Bit sequences, numbers and bytes: `bitsToNat` against `readAsCode` (00_scope.md R15),
`unpack` against `pack` (42_bitwriter.md R225, R226), and when a stream exists (43_encoder.md R253). -/

namespace Sys2Proof.Machine

/-! ### Numbers and codes -/

@[simp] theorem bitsToNat_nil : bitsToNat [] = 0 := rfl

theorem bitsToNat_concat (p : Bits) (b : Bool) : bitsToNat (p ++ [b]) = 2 * bitsToNat p + b.toNat := by
  simp [bitsToNat]

theorem bitsToNat_append_zeros (p : Bits) (n : Nat) :
    bitsToNat (p ++ List.replicate n false) = 2 ^ n * bitsToNat p := by
  induction n with
  | zero => simp
  | succ n ih =>
    rw [List.replicate_succ', ← List.append_assoc, bitsToNat_concat, ih, Nat.pow_succ]
    simp only [Bool.toNat_false]
    ring

theorem bitsToNat_lt (p : Bits) : bitsToNat p < 2 ^ p.length := by
  induction p using List.reverseRecOn with
  | nil => decide
  | append_singleton p b ih =>
    have hb : b.toNat ≤ 1 := by cases b <;> decide
    rw [bitsToNat_concat, List.length_append, List.length_singleton, Nat.pow_succ]
    omega

/-- An L-bit number as a code, through its binary digits. -/
theorem readAsCode_ofNat (L v : Nat) :
    readAsCode (BitVec.ofNat L v) = (List.range L).reverse.map v.testBit := by
  refine List.ext_getElem (by simp) fun k h1 h2 => ?_
  have hk : k < L := by simpa using h1
  simp only [readAsCode, List.getElem_ofFn, List.getElem_map, List.getElem_reverse, List.getElem_range,
    List.length_range]
  show (BitVec.ofNat L v).toNat.testBit (L - 1 - k) = v.testBit (L - 1 - k)
  have h : L - 1 - k < L := by omega
  simp [Nat.testBit_mod_two_pow, h]

theorem readAsCode_ofNat_concat (L v : Nat) (b : Bool) :
    readAsCode (BitVec.ofNat (L + 1) (2 * v + b.toNat)) = readAsCode (BitVec.ofNat L v) ++ [b] := by
  rw [readAsCode_ofNat, readAsCode_ofNat, List.range_succ_eq_map, List.reverse_cons, List.map_append,
    List.map_singleton, ← List.map_reverse, List.map_map]
  have h0 : (2 * v + b.toNat).testBit 0 = b := by cases b <;> simp [Nat.testBit_zero]
  have hs : ((2 * v + b.toNat).testBit ∘ Nat.succ) = v.testBit := by
    funext k
    have : (2 * v + b.toNat) / 2 = v := by
      have hb : b.toNat ≤ 1 := by cases b <;> decide
      omega
    simp only [Function.comp_apply, Nat.succ_eq_add_one, Nat.testBit_add_one, this]
  rw [h0, hs]

/-- A bit sequence is the code of its number. -/
theorem readAsCode_bitsToNat (p : Bits) : readAsCode (BitVec.ofNat p.length (bitsToNat p)) = p := by
  induction p using List.reverseRecOn with
  | nil => rfl
  | append_singleton p b ih =>
    rw [bitsToNat_concat, List.length_append, List.length_singleton, readAsCode_ofNat_concat, ih]

theorem bitsToNat_readAsCode {L : Nat} (v : BitVec L) : bitsToNat (readAsCode v) = v.toNat := by
  have h := readAsCode_bitsToNat (readAsCode v)
  have hl : bitsToNat (readAsCode v) < 2 ^ L := by simpa using bitsToNat_lt (readAsCode v)
  generalize hn : bitsToNat (readAsCode v) = n at h hl
  rw [readAsCode_length] at h
  have : BitVec.ofNat L n = v := by
    apply BitVec.eq_of_getMsbD_eq
    intro k hk
    have hm : (BitVec.ofNat L n).getMsb ⟨k, hk⟩ = v.getMsb ⟨k, hk⟩ :=
      congrFun (List.ofFn_injective h) ⟨k, hk⟩
    have hd : ∀ x : BitVec L, x.getMsbD k = x.getMsb ⟨k, hk⟩ := fun x => by
      have hj : L - 1 - k < L := by omega
      simp [BitVec.getMsbD, BitVec.getMsb, hk, BitVec.getLsb_eq_getElem, BitVec.getLsbD_eq_getElem hj]
    rw [hd, hd, hm]
  rw [← this, BitVec.toNat_ofNat, Nat.mod_eq_of_lt hl]

theorem readAsCode_injective {L : Nat} {v w : BitVec L} (h : readAsCode v = readAsCode w) : v = w := by
  apply BitVec.eq_of_toNat_eq
  rw [← bitsToNat_readAsCode v, ← bitsToNat_readAsCode w, h]

/-! ### Bytes -/

theorem readAsCode_byteOfBits {p : Bits} (h : p.length ≤ 8) :
    readAsCode (byteOfBits p) = p ++ List.replicate (8 - p.length) false := by
  have hl : (p ++ List.replicate (8 - p.length) false).length = 8 := by simp; omega
  have := readAsCode_bitsToNat (p ++ List.replicate (8 - p.length) false)
  rw [hl] at this
  exact this

/-- The bytes of a stream are determined by its bits. -/
theorem unpack_injective {a b : List Byte} (h : unpack a = unpack b) : a = b := by
  induction a generalizing b with
  | nil =>
    have := congrArg List.length h
    rw [unpack_length, unpack_length] at this
    exact (List.length_eq_zero_iff.mp (by rw [List.length_nil] at this; omega)).symm
  | cons x a ih =>
    cases b with
    | nil =>
      have := congrArg List.length h
      rw [unpack_length, unpack_length] at this
      simp at this
    | cons y b =>
      have h' : readAsCode x ++ unpack a = readAsCode y ++ unpack b := h
      obtain ⟨h1, h2⟩ := List.append_inj h' (by simp)
      rw [readAsCode_injective h1, ih h2]

theorem pack_nil : pack [] = [] := rfl

/-- Packing eight bits at a time. -/
theorem pack_cons {p q : Bits} (h : p.length = 8) : pack (p ++ q) = byteOfBits p :: pack q := by
  have hl : ((p ++ q).length + 7) / 8 = (q.length + 7) / 8 + 1 := by
    rw [List.length_append]
    omega
  rw [pack, hl, List.range_succ_eq_map, List.map_cons, List.map_map, pack]
  congr 1
  · simp [h]
  · refine List.map_congr_left fun k _ => ?_
    have hd : (p ++ q).drop (8 * k.succ) = q.drop (8 * k) := by
      rw [List.drop_append, List.drop_eq_nil_of_le (by omega), List.nil_append]
      congr 1
      omega
    simp only [Function.comp_apply, hd]

theorem pack_short {p : Bits} (h0 : p ≠ []) (h : p.length < 8) : pack p = [byteOfBits p] := by
  have hp : 0 < p.length := List.length_pos_of_ne_nil h0
  have hl : (p.length + 7) / 8 = 1 := by omega
  simp [pack, hl, List.take_of_length_le (show p.length ≤ 8 by omega)]

/-- The bits of the packed bytes: the sequence, then zeros up to a whole byte (R226). -/
theorem unpack_pack (p : Bits) :
    unpack (pack p) = p ++ List.replicate ((8 - p.length % 8) % 8) false := by
  induction hn : p.length using Nat.strongRecOn generalizing p with
  | ind n ih =>
    subst hn
    rcases Nat.lt_or_ge p.length 8 with h | h
    · by_cases h0 : p = []
      · subst h0
        rfl
      · have hp : 0 < p.length := List.length_pos_of_ne_nil h0
        rw [pack_short h0 h, unpack_singleton, readAsCode_byteOfBits (by omega)]
        congr 2
        omega
    · have hs : (p.take 8).length = 8 := by simp; omega
      have hd : (p.drop 8).length = p.length - 8 := by simp
      have hu : unpack (byteOfBits (p.take 8) :: pack (p.drop 8)) =
          readAsCode (byteOfBits (p.take 8)) ++ unpack (pack (p.drop 8)) := rfl
      conv_lhs => rw [← List.take_append_drop 8 p]
      rw [pack_cons hs, hu, readAsCode_byteOfBits (by omega), hs, ih _ (by omega) _ hd,
        show 8 - 8 = 0 from rfl, List.replicate_zero, List.append_nil, ← List.append_assoc,
        List.take_append_drop]
      congr 2
      omega

theorem pack_length (p : Bits) : (pack p).length = (p.length + 7) / 8 := by
  simp [pack]

/-- Bit j of byte m of a stream (R225). -/
theorem unpack_getD (l : List Byte) (k : Nat) :
    (unpack l).getD k false = (l.getD (k / 8) 0).getLsbD (7 - k % 8) := by
  induction l generalizing k with
  | nil => simp
  | cons x l ih =>
    have hu : unpack (x :: l) = readAsCode x ++ unpack l := rfl
    rcases Nat.lt_or_ge k 8 with h | h
    · have h8 : k / 8 = 0 := by omega
      have hm : k % 8 = k := by omega
      rw [hu, h8, hm, List.getD_append _ _ _ _ (by simpa using h)]
      rw [readAsCode_byte, List.getD_eq_getElem _ _ (by simpa using h)]
      simp only [List.getElem_map, List.getElem_reverse, List.getElem_range, List.length_range,
        List.getD_cons_zero]
    · obtain ⟨j, rfl⟩ : ∃ j, k = j + 8 := ⟨k - 8, by omega⟩
      have h8 : (j + 8) / 8 = j / 8 + 1 := by omega
      have hm : (j + 8) % 8 = j % 8 := by omega
      rw [hu, h8, hm, List.getD_append_right _ _ _ _ (by simp), readAsCode_length,
        Nat.add_sub_cancel, ih]
      simp

/-! ### The decoder's steps -/

/-- Following a symbol's path leads to its leaf, with the other bits left over (R255). -/
theorem descend_path {T : Tree} {s : Symbol} {p q : Bits} (h : path T s = some p) :
    descend T (p ++ q) = some (s, q) := by
  induction T generalizing p with
  | leaf t =>
    simp only [path] at h
    split at h
    · next ht =>
      cases h
      subst ht
      rfl
    · cases h
  | node a b iha ihb =>
    simp only [path] at h
    split at h
    · next p' hp =>
      cases h
      exact iha hp
    · obtain ⟨p', hp, rfl⟩ := Option.map_eq_some_iff.mp h
      exact ihb hp

/-- The decoder once its first two steps are known. -/
theorem decodeStream_of_tree {len : Vector (BitVec 9) 257} {stream : List Byte} {T : Tree}
    (hr : readHeader stream = len) (hT : canonicalTree len = .ok T) :
    decodeStream stream =
      decodePayload T ((unpack (stream.drop 257)).length + 1) (unpack (stream.drop 257)) := by
  unfold decodeStream
  rw [hr, hT]

theorem codeTable_getElem (T : Tree) (s : Symbol) : (codeTable T)[s] = (path T s).getD [] := by
  simp only [codeTable, Fin.getElem_fin, Vector.getElem_ofFn]

/-! ### When a stream exists -/

theorem encodable_iff {len : Vector (BitVec 9) 257} {data : List Byte} :
    encodable len data = true ↔
      (∀ s : Symbol, len[s].toNat < 256) ∧ len[Config.EOS] ≠ 0 ∧ ∀ b ∈ data, len[byteSymbol b] ≠ 0 := by
  simp only [encodable, Bool.and_eq_true, List.all_eq_true, decide_eq_true_eq, and_assoc]
  simp [allSymbols]

/-- Everything a stream tells of its table and its input (R253). -/
theorem encodeStream_eq_some {len : Vector (BitVec 9) 257} {data stream : List Byte} :
    encodeStream len data = some stream ↔
      encodable len data = true ∧ ∃ T, canonicalTree len = .ok T ∧
        stream = pack (headerBits len ++ payloadBits (codeTable T) data) := by
  unfold encodeStream
  split
  · next h =>
    rcases canonicalTree len with e | T
    · simp [h]
    · simp [h, eq_comm]
  · next h => simp [h]

end Sys2Proof.Machine
end

