-- ==== Sys2Proof/Laws/Levels.lean ====
section
/-! SUPPORT. The loop of `CanonicalTree` (41_canonicalizer.md R191) level by level: how long the carried list
is (R194, R196), and where each symbol's leaf sits in it (R192, R194). -/

namespace Sys2Proof.Machine

open Sys2Proof.Safety

/-! ### The weight below a level -/

/-- The Kraft weight of the symbols longer than L. -/
def tailWeight (len : Vector (BitVec 9) 257) (L : Nat) : ℚ :=
  ((lenEntries len).map fun e => if L < e.2.toNat then (1 / 2 ^ e.2.toNat : ℚ) else 0).sum

theorem tailWeight_entries (es : List (Symbol × BitVec 9)) (L : Nat) :
    (es.map fun e => if L < e.2.toNat then (1 / 2 ^ e.2.toNat : ℚ) else 0).sum =
      (es.map fun e => if L + 1 < e.2.toNat then (1 / 2 ^ e.2.toNat : ℚ) else 0).sum +
        ((es.filter fun e => e.2.toNat = L + 1).length : ℚ) / 2 ^ (L + 1) := by
  induction es with
  | nil => simp
  | cons e es ih =>
    simp only [List.map_cons, List.sum_cons, ih, List.filter_cons]
    rcases Nat.lt_trichotomy e.2.toNat (L + 1) with h | h | h
    · have h1 : ¬ L < e.2.toNat := by omega
      have h2 : ¬ L + 1 < e.2.toNat := by omega
      have h3 : ¬ e.2.toNat = L + 1 := by omega
      simp [h1, h2, h3]
    · have h1 : L < e.2.toNat := by omega
      have h2 : ¬ L + 1 < e.2.toNat := by omega
      rw [if_pos h1, if_neg h2, if_pos (by simpa using h), List.length_cons, h]
      push_cast
      ring
    · have h1 : L < e.2.toNat := by omega
      have h3 : ¬ e.2.toNat = L + 1 := by omega
      simp only [h1, h, h3, if_true, decide_false, Bool.false_eq_true, if_false]
      ring

/-- One level adds the leaves of its length. -/
theorem tailWeight_eq (len : Vector (BitVec 9) 257) (L : Nat) :
    tailWeight len L = tailWeight len (L + 1) + ((leavesAt len (L + 1)).length : ℚ) / 2 ^ (L + 1) := by
  rw [tailWeight, tailWeight_entries]
  simp [tailWeight, leavesAt]

/-- Above level 0 the weight is the whole Kraft sum (R18). -/
theorem tailWeight_zero (len : Vector (BitVec 9) 257) : tailWeight len 0 = kraftSum len := by
  unfold tailWeight kraftSum
  congr 1
  refine List.map_congr_left fun e _ => ?_
  by_cases h : e.2 = 0
  · simp [h]
  · have : 0 < e.2.toNat := Nat.pos_of_ne_zero fun h' => h (BitVec.eq_of_toNat_eq (by simpa using h'))
    rw [if_pos this, if_neg h]

theorem foldl_max_bounds (es : List (Symbol × BitVec 9)) (m : Nat) :
    m ≤ es.foldl (fun m e => max m e.2.toNat) m ∧
    ∀ e ∈ es, e.2.toNat ≤ es.foldl (fun m e => max m e.2.toNat) m := by
  induction es generalizing m with
  | nil => simp
  | cons e es ih =>
    have h := ih (max m e.2.toNat)
    simp only [List.foldl_cons]
    refine ⟨by omega, fun x hx => ?_⟩
    rcases List.mem_cons.mp hx with rfl | hx
    · omega
    · exact h.2 x hx

/-- No length is above M (R191). -/
theorem le_maxLength {len : Vector (BitVec 9) 257} {e : Symbol × BitVec 9} (h : e ∈ lenEntries len) :
    e.2.toNat ≤ maxLength len := (foldl_max_bounds _ 0).2 e h

theorem tailWeight_max (len : Vector (BitVec 9) 257) : tailWeight len (maxLength len) = 0 := by
  refine List.sum_eq_zero fun x hx => ?_
  obtain ⟨e, he, rfl⟩ := List.mem_map.mp hx
  rw [if_neg (by have := le_maxLength he; omega)]

/-- The levels 1 to L weigh a whole number of nodes of depth L. -/
theorem headWeight_natural (len : Vector (BitVec 9) 257) (L : Nat) :
    ∃ m : Nat, 2 ^ L * (tailWeight len 0 - tailWeight len L) = m := by
  induction L with
  | zero => exact ⟨0, by simp⟩
  | succ L ih =>
    obtain ⟨m, hm⟩ := ih
    refine ⟨2 * m + (leavesAt len (L + 1)).length, ?_⟩
    have h := tailWeight_eq len L
    have h2 : (2 : ℚ) ^ (L + 1) ≠ 0 := by positivity
    push_cast
    rw [← hm, h]
    field_simp
    ring

/-- The length of a level's list (R194): twice the carried nodes of the level above. -/
theorem level_length {len : Vector (BitVec 9) 257} {L : Nat} {carried : List Tree}
    (h : (carried.length : ℚ) = 2 ^ (L + 1) * tailWeight len (L + 1)) :
    ((carried ++ leavesAt len (L + 1)).length : ℚ) = 2 * (2 ^ L * tailWeight len L) := by
  rw [List.length_append]
  push_cast
  rw [h, tailWeight_eq len L]
  field_simp
  ring

/-- Pairing an even level keeps the carried list as long as the weight says (R196). -/
theorem pairUp_weight {len : Vector (BitVec 9) 257} {L : Nat} {carried : List Tree}
    (h : (carried.length : ℚ) = 2 ^ (L + 1) * tailWeight len (L + 1))
    (h2 : (carried ++ leavesAt len (L + 1)).length % 2 = 0) :
    ((pairUp (carried ++ leavesAt len (L + 1))).length : ℚ) = 2 ^ L * tailWeight len L := by
  rw [pairUp_length, Nat.cast_div (Nat.dvd_of_mod_eq_zero h2) (by norm_num), level_length h]
  simp

/-- When every level is even, the nodes left are the Kraft sum (R196). -/
theorem buildLevels_weight {len : Vector (BitVec 9) 257} {L : Nat} {carried left : List Tree}
    (h : buildLevels len L carried = .ok left) (hc : (carried.length : ℚ) = 2 ^ L * tailWeight len L) :
    (left.length : ℚ) = tailWeight len 0 := by
  induction L generalizing carried with
  | zero =>
    cases h
    simpa using hc
  | succ L ih =>
    rcases Nat.mod_two_eq_zero_or_one (carried ++ leavesAt len (L + 1)).length with h2 | h2
    · rw [buildLevels_even h2] at h
      exact ih h (pairUp_weight hc h2)
    · rw [buildLevels_odd h2] at h
      cases h

/-- An odd level and a Kraft sum of 1 exclude each other (R196). -/
theorem buildLevels_odd_weight {len : Vector (BitVec 9) 257} {L : Nat} {carried : List Tree} {c : ErrorCause}
    (h : buildLevels len L carried = .error c) (hc : (carried.length : ℚ) = 2 ^ L * tailWeight len L) :
    tailWeight len 0 ≠ 1 := by
  induction L generalizing carried with
  | zero => cases h
  | succ L ih =>
    rcases Nat.mod_two_eq_zero_or_one (carried ++ leavesAt len (L + 1)).length with h2 | h2
    · rw [buildLevels_even h2] at h
      exact ih h (pairUp_weight hc h2)
    · intro h1
      obtain ⟨m, hm⟩ := headWeight_natural len L
      rw [h1] at hm
      have hk := level_length hc
      have h3 : ((carried ++ leavesAt len (L + 1)).length : ℚ) + 2 * m = 2 * 2 ^ L := by
        rw [hk, ← hm]
        ring
      have h4 : (carried ++ leavesAt len (L + 1)).length + 2 * m = 2 * 2 ^ L := by exact_mod_cast h3
      omega

/-! ### Leaves of a level -/

theorem path_leaf (a s : Symbol) : path (.leaf a) s = if a = s then some [] else none := rfl

theorem leavesAt_eq (len : Vector (BitVec 9) 257) (L : Nat) :
    leavesAt len L = (allSymbols.filter fun s => len[s].toNat = L).map .leaf := by
  rw [leavesAt, lenEntries_eq, List.filter_map, List.map_map]
  rfl

theorem mem_leavesAt {len : Vector (BitVec 9) 257} {L : Nat} {t : Tree} :
    t ∈ leavesAt len L ↔ ∃ s : Symbol, len[s].toNat = L ∧ t = .leaf s := by
  rw [leavesAt_eq, List.mem_map]
  constructor
  · rintro ⟨s, hs, rfl⟩
    exact ⟨s, by simpa using (List.mem_filter.mp hs).2, rfl⟩
  · rintro ⟨s, hs, rfl⟩
    exact ⟨s, List.mem_filter.mpr ⟨by simp [allSymbols], by simpa using hs⟩, rfl⟩

/-- A symbol stands at its rank among the symbols of its length (R194). -/
theorem class_getElem_rank (len : Vector (BitVec 9) 257) (s : Symbol) :
    (allSymbols.filter fun t => len[t].toNat = len[s].toNat)[rank len s]? = some s := by
  have key : ∀ l : List Symbol, l.Pairwise (· < ·) → s ∈ l →
      (l.filter fun t => len[t].toNat = len[s].toNat)[
        (l.filter fun t => t < s ∧ len[t] = len[s]).length]? = some s := by
    intro l
    induction l with
    | nil => simp
    | cons a l ih =>
      intro hp hm
      rw [List.pairwise_cons] at hp
      rcases List.mem_cons.mp hm with rfl | hm
      · have h0 : (l.filter fun t => t < s ∧ len[t] = len[s]) = [] := by
          rw [List.filter_eq_nil_iff]
          intro x hx hc
          have h1 := hp.1 x hx
          have h2 : x < s := by
            simp only [decide_eq_true_eq] at hc
            exact hc.1
          exact absurd h2 (lt_asymm h1)
        have h1 : ¬ (decide (s < s ∧ len[s] = len[s])) = true := by simp
        rw [List.filter_cons, if_pos (by simp), List.filter_cons, if_neg h1, h0]
        rfl
      · have ha := hp.1 s hm
        by_cases hl : len[a].toNat = len[s].toNat
        · have he : len[a] = len[s] := BitVec.eq_of_toNat_eq hl
          have h1 : decide (a < s ∧ len[a] = len[s]) = true := by simpa using ⟨ha, he⟩
          rw [List.filter_cons, if_pos (by simpa using hl), List.filter_cons, if_pos h1, List.length_cons,
            List.getElem?_cons_succ]
          exact ih hp.2 hm
        · have he : ¬ len[a] = len[s] := fun h => hl (by rw [h])
          have h1 : ¬ (decide (a < s ∧ len[a] = len[s])) = true := by simpa using fun _ => he
          rw [List.filter_cons, if_neg (by simpa using hl), List.filter_cons, if_neg h1]
          exact ih hp.2 hm
  exact key allSymbols (by simpa [allSymbols] using List.pairwise_lt_finRange 257) (by simp [allSymbols])

/-! ### Where a leaf sits in a list of trees -/

theorem pairUp_getElem : (l : List Tree) → l.length % 2 = 0 → (i : Nat) → (a b : Tree) →
    l[2 * i]? = some a → l[2 * i + 1]? = some b → (pairUp l)[i]? = some (.node a b)
  | [], _, _, _, _, h, _ => by simp at h
  | [_], h, _, _, _, _, _ => by simp at h
  | x :: y :: rest, _, 0, a, b, ha, hb => by
    simp at ha hb
    simp [pairUp, ha, hb]
  | x :: y :: rest, h, i + 1, a, b, ha, hb => by
    have e : 2 * (i + 1) = 2 * i + 1 + 1 := by omega
    rw [e] at ha hb
    simp only [List.getElem?_cons_succ] at ha hb
    simp only [pairUp, List.getElem?_cons_succ]
    exact pairUp_getElem rest (by simp only [List.length_cons] at h; omega) i a b ha hb

theorem pairUp_getElem_inv {l : List Tree} (h2 : l.length % 2 = 0) {i : Nat} {t : Tree}
    (h : (pairUp l)[i]? = some t) :
    ∃ a b, l[2 * i]? = some a ∧ l[2 * i + 1]? = some b ∧ t = .node a b := by
  have hi : i < l.length / 2 := by
    have := (List.getElem?_eq_some_iff.mp h).1
    rwa [pairUp_length] at this
  obtain ⟨a, ha⟩ : ∃ a, l[2 * i]? = some a := ⟨_, List.getElem?_eq_getElem (by omega)⟩
  obtain ⟨b, hb⟩ : ∃ b, l[2 * i + 1]? = some b := ⟨_, List.getElem?_eq_getElem (by omega)⟩
  rw [pairUp_getElem l h2 i a b ha hb] at h
  exact ⟨a, b, ha, hb, (Option.some.inj h).symm⟩

/-- The one leaf of a symbol is in tree `i` of the list, at path `p`. -/
structure LeafAt (trees : List Tree) (s : Symbol) (i : Nat) (p : Bits) : Prop where
  get : ∃ t, trees[i]? = some t ∧ path t s = some p
  only : ∀ j t, trees[j]? = some t → j ≠ i → path t s = none

theorem leafAt_append {l r : List Tree} {s : Symbol} {i : Nat} {p : Bits} (h : LeafAt l s i p)
    (hr : ∀ t ∈ r, path t s = none) : LeafAt (l ++ r) s i p := by
  obtain ⟨t, ht, hp⟩ := h.get
  have hi : i < l.length := (List.getElem?_eq_some_iff.mp ht).1
  refine ⟨⟨t, by rw [List.getElem?_append_left hi]; exact ht, hp⟩, fun j u hu hj => ?_⟩
  rcases Nat.lt_or_ge j l.length with h1 | h1
  · rw [List.getElem?_append_left h1] at hu
    exact h.only j u hu hj
  · rw [List.getElem?_append_right h1] at hu
    exact hr u (List.mem_of_getElem? hu)

theorem leafAt_shift {l r : List Tree} {s : Symbol} {i : Nat} {p : Bits} (h : LeafAt r s i p)
    (hl : ∀ t ∈ l, path t s = none) : LeafAt (l ++ r) s (l.length + i) p := by
  obtain ⟨t, ht, hp⟩ := h.get
  refine ⟨⟨t, by rw [List.getElem?_append_right (by omega)]; simpa using ht, hp⟩, fun j u hu hj => ?_⟩
  rcases Nat.lt_or_ge j l.length with h1 | h1
  · rw [List.getElem?_append_left h1] at hu
    exact hl u (List.mem_of_getElem? hu)
  · rw [List.getElem?_append_right h1] at hu
    exact h.only _ u hu (by omega)

/-- Pairing puts position i under parent i / 2, on the side i mod 2 (R192, R194). -/
theorem leafAt_pairUp {l : List Tree} {s : Symbol} {i : Nat} {p : Bits} (h2 : l.length % 2 = 0)
    (h : LeafAt l s i p) : LeafAt (pairUp l) s (i / 2) (decide (i % 2 = 1) :: p) := by
  obtain ⟨t, ht, hp⟩ := h.get
  have hi : i < l.length := (List.getElem?_eq_some_iff.mp ht).1
  obtain ⟨a, ha⟩ : ∃ a, l[2 * (i / 2)]? = some a := ⟨_, List.getElem?_eq_getElem (by omega)⟩
  obtain ⟨b, hb⟩ : ∃ b, l[2 * (i / 2) + 1]? = some b := ⟨_, List.getElem?_eq_getElem (by omega)⟩
  refine ⟨⟨_, pairUp_getElem l h2 _ a b ha hb, ?_⟩, fun j u hu hj => ?_⟩
  · rcases Nat.mod_two_eq_zero_or_one i with h0 | h0
    · have e : 2 * (i / 2) = i := by omega
      rw [e, ht] at ha
      cases ha
      simp [path, hp, h0]
    · have e : 2 * (i / 2) + 1 = i := by omega
      rw [e, ht] at hb
      cases hb
      have h1 := h.only _ a ha (by omega)
      simp [path, h1, hp, h0]
  · obtain ⟨a', b', ha', hb', rfl⟩ := pairUp_getElem_inv h2 hu
    have h1 := h.only _ a' ha' (by omega)
    have h3 := h.only _ b' hb' (by omega)
    simp [path, h1, h3]

theorem path_none_pairUp {l : List Tree} {s : Symbol} (h2 : l.length % 2 = 0)
    (h : ∀ t ∈ l, path t s = none) : ∀ t ∈ pairUp l, path t s = none := by
  intro t ht
  obtain ⟨i, hi⟩ := List.getElem?_of_mem ht
  obtain ⟨a, b, ha, hb, rfl⟩ := pairUp_getElem_inv h2 hi
  simp [path, h a (List.mem_of_getElem? ha), h b (List.mem_of_getElem? hb)]

theorem leafAt_leavesAt (len : Vector (BitVec 9) 257) (s : Symbol) :
    LeafAt (leavesAt len len[s].toNat) s (rank len s) [] := by
  rw [leavesAt_eq]
  refine ⟨⟨.leaf s, by rw [List.getElem?_map, class_getElem_rank]; rfl, by simp [path]⟩,
    fun j t ht hj => ?_⟩
  rw [List.getElem?_map] at ht
  obtain ⟨a, ha, rfl⟩ := Option.map_eq_some_iff.mp ht
  rw [path_leaf, if_neg]
  rintro rfl
  have hn : (allSymbols.filter fun t => len[t].toNat = len[a].toNat).Nodup :=
    List.Nodup.filter _ (List.nodup_finRange 257)
  have h1 := List.getElem?_eq_some_iff.mp ha
  have h2 := List.getElem?_eq_some_iff.mp (class_getElem_rank len a)
  exact hj ((List.Nodup.getElem_inj_iff hn).mp (h1.2.trans h2.2.symm))

theorem bitsToNat_cons (b : Bool) (p : Bits) :
    bitsToNat (b :: p) = b.toNat * 2 ^ p.length + bitsToNat p := by
  have key : ∀ (p : Bits) (v : Nat), p.foldl (fun v b => 2 * v + b.toNat) v =
      v * 2 ^ p.length + p.foldl (fun v b => 2 * v + b.toNat) 0 := by
    intro p
    induction p with
    | nil => simp
    | cons c p ih =>
      intro v
      rw [List.foldl_cons, ih, List.foldl_cons, ih (2 * 0 + c.toNat), List.length_cons, pow_succ]
      ring
  rw [bitsToNat, List.foldl_cons, key]
  simp [bitsToNat]

/-- A step up keeps the number a position and a path make together. -/
theorem parent_value (i : Nat) (p : Bits) :
    i / 2 * 2 ^ (p.length + 1) + bitsToNat (decide (i % 2 = 1) :: p) = i * 2 ^ p.length + bitsToNat p := by
  rw [bitsToNat_cons]
  rcases Nat.mod_two_eq_zero_or_one i with h0 | h0
  · obtain ⟨k, rfl⟩ : ∃ k, i = 2 * k := ⟨i / 2, by omega⟩
    simp [h0, pow_succ]
    ring
  · obtain ⟨k, rfl⟩ : ∃ k, i = 2 * k + 1 := ⟨i / 2, by omega⟩
    have e : (2 * k + 1) / 2 = k := by omega
    simp [h0, e, pow_succ]
    ring

/-! ### The loop's invariant -/

/-- What holds of the list carried up to level L: its length, one leaf for each longer symbol at a position
and path that make its code's number, and none for the others. -/
structure LevelInv (len : Vector (BitVec 9) 257) (L : Nat) (carried : List Tree) : Prop where
  weight : (carried.length : ℚ) = 2 ^ L * tailWeight len L
  deep : ∀ s : Symbol, L < len[s].toNat → ∃ i p, LeafAt carried s i p ∧ p.length + L = len[s].toNat ∧
    ∃ start : Nat, (start : ℚ) = 2 ^ len[s].toNat * tailWeight len len[s].toNat ∧
      i * 2 ^ p.length + bitsToNat p = start + rank len s
  shallow : ∀ s : Symbol, len[s].toNat ≤ L → ∀ t ∈ carried, path t s = none

theorem levelInv_start (len : Vector (BitVec 9) 257) : LevelInv len (maxLength len) [] := by
  refine ⟨by rw [tailWeight_max]; simp, fun s hs => ?_, by simp⟩
  have h : len[s].toNat ≤ maxLength len := le_maxLength (e := (s, len[s])) (mem_lenEntries.mpr rfl)
  omega

theorem levelInv_pairUp {len : Vector (BitVec 9) 257} {L : Nat} {carried : List Tree}
    (h : LevelInv len (L + 1) carried) (h2 : (carried ++ leavesAt len (L + 1)).length % 2 = 0) :
    LevelInv len L (pairUp (carried ++ leavesAt len (L + 1))) := by
  have hleaf : ∀ s : Symbol, len[s].toNat ≠ L + 1 → ∀ t ∈ leavesAt len (L + 1), path t s = none := by
    intro s hs t ht
    obtain ⟨a, ha, rfl⟩ := mem_leavesAt.mp ht
    rw [path_leaf, if_neg]
    rintro rfl
    exact hs ha
  refine ⟨pairUp_weight h.weight h2, fun s hs => ?_, fun s hs => ?_⟩
  · rcases Nat.lt_or_ge (L + 1) len[s].toNat with h1 | h1
    · obtain ⟨i, p, ha, hp, start, hst, hv⟩ := h.deep s h1
      refine ⟨i / 2, _, leafAt_pairUp h2 (leafAt_append ha (hleaf s (by omega))),
        by rw [List.length_cons]; omega, start, hst, ?_⟩
      rw [List.length_cons, parent_value]
      exact hv
    · have he : len[s].toNat = L + 1 := by omega
      have hl := leafAt_leavesAt len s
      rw [he] at hl
      refine ⟨(carried.length + rank len s) / 2, _, leafAt_pairUp h2 (leafAt_shift hl (h.shallow s h1)),
        by rw [List.length_cons, List.length_nil]; omega, carried.length, by rw [he]; exact h.weight, ?_⟩
      rw [List.length_cons, parent_value]
      simp
  · refine path_none_pairUp h2 fun t ht => ?_
    rcases List.mem_append.mp ht with ht | ht
    · exact h.shallow s (by omega) t ht
    · exact hleaf s (by omega) t ht

theorem buildLevels_levelInv {len : Vector (BitVec 9) 257} {L : Nat} {carried left : List Tree}
    (h : buildLevels len L carried = .ok left) (hc : LevelInv len L carried) : LevelInv len 0 left := by
  induction L generalizing carried with
  | zero =>
    cases h
    exact hc
  | succ L ih =>
    rcases Nat.mod_two_eq_zero_or_one (carried ++ leavesAt len (L + 1)).length with h2 | h2
    · rw [buildLevels_even h2] at h
      exact ih h (levelInv_pairUp hc h2)
    · rw [buildLevels_odd h2] at h
      cases h

end Sys2Proof.Machine
end

