-- ==== Sys2Proof/Laws/PerInstr.lean ====
section
/-! SUPPORT. Per-command facts, one lemma per constructor of `Instr`. Family `MatchesTableRow`: the word
of a well-formed command holds the fixed bits of its row of spec/opcode_table.json. -/

namespace Sys2Proof.Laws

/-- The "fixed" bits of each row of spec/opcode_table.json, as (hi, lo, value). -/
def fixedBits : Instr → List (Nat × Nat × Nat)
  | .nop => [(31, 0, 0)]
  | .ldlen _ _ => [(15, 9, 0), (31, 25, 8)]
  | .ldleaf _ _ => [(15, 9, 0), (31, 26, 8)]
  | .derive => [(31, 0, 805306368)]
  | .build => [(31, 0, 1073741824)]
  | .header => [(31, 0, 1342177280)]
  | .byte _ => [(31, 8, 6291456)]
  | .finish => [(31, 0, 1879048192)]
  | .wrbit _ => [(31, 8, 8388608)]
  | .sreset => [(31, 0, 2952790016)]
  | .ldint _ _ _ => [(31, 30, 3)]

end Sys2Proof.Laws

namespace Sys2Proof.Laws.MatchesTableRow

/-- The word of a well-formed command holds its row's fixed bits (R112 to R116). -/
def Statement (i : Instr) : Prop :=
  i.wellFormed = true → ∀ f ∈ fixedBits i, field (encode i) f.1 f.2.1 = f.2.2

theorem nop : Statement .nop := fun _ => by decide

theorem ldlen (sym : Nat) (len : BitVec 9) : Statement (.ldlen sym len) := by
  intro h
  have hs : sym < 512 := by simpa [Instr.wellFormed, fitsSym] using h
  have hl := len.isLt
  simp [fixedBits, field, encode, placeFields]
  omega

theorem ldleaf (idx sym : Nat) : Statement (.ldleaf idx sym) := by
  intro h
  have hw : idx < 1024 ∧ sym < 512 := by simpa [Instr.wellFormed, fitsSym, fitsIdx] using h
  simp [fixedBits, field, encode, placeFields]
  omega

theorem derive : Statement .derive := fun _ => by decide

theorem build : Statement .build := fun _ => by decide

theorem header : Statement .header := fun _ => by decide

theorem byte (b : Byte) : Statement (.byte b) := by
  intro _
  have hb := b.isLt
  simp [fixedBits, field, encode, placeFields]
  omega

theorem finish : Statement .finish := fun _ => by decide

theorem wrbit (v : Byte) : Statement (.wrbit v) := by
  intro _
  have hv := v.isLt
  simp [fixedBits, field, encode, placeFields]
  omega

theorem sreset : Statement .sreset := fun _ => by decide

theorem ldint (idx left right : Nat) : Statement (.ldint idx left right) := by
  intro h
  have hw : (idx < 1024 ∧ left < 1024) ∧ right < 1024 := by
    simpa [Instr.wellFormed, fitsIdx] using h
  simp [fixedBits, field, encode, placeFields]
  omega

end Sys2Proof.Laws.MatchesTableRow
end

