-- ==== Sys2Proof/Laws/Registers.lean ====
section
/-! SUPPORT. The STATUS and ERRINFO words as numbers (10_state.md R36, R37). -/

namespace Sys2Proof.Machine

/-- Concatenation as arithmetic: the left part takes the more significant bits (R14). -/
theorem append_toNat {m n : Nat} (x : BitVec m) (y : BitVec n) :
    (x ++ y).toNat = x.toNat * 2 ^ n + y.toNat := by
  rw [BitVec.toNat_append, ← Nat.shiftLeft_add_eq_or_of_lt y.isLt, Nat.shiftLeft_eq]

theorem number_lt (c : Ctl) : c.number < 5 := by
  cases c <;> decide

theorem statusWord_toNat (s : State) :
    (statusWord s).toNat = s.acc.toNat * 2 ^ 16 + s.bitcnt.toNat * 2 ^ 8 + s.errcode.toNat * 2 ^ 4 +
      (if s.state = .error then 8 else 0) + s.state.number := by
  have hn : (BitVec.ofNat 3 s.state.number).toNat = s.state.number := by
    have := number_lt s.state
    rw [BitVec.toNat_ofNat]
    omega
  have he : (BitVec.ofBool (decide (s.state = .error))).toNat = if s.state = .error then 1 else 0 := by
    by_cases h : s.state = .error <;> simp [h]
  refine (append_toNat (0x00#8 ++ s.acc ++ 0b00000#5 ++ s.bitcnt ++ s.errcode ++
    BitVec.ofBool (decide (s.state = .error))) (BitVec.ofNat 3 s.state.number)).trans ?_
  rw [append_toNat, append_toNat, append_toNat, append_toNat, append_toNat, hn, he]
  simp only [BitVec.toNat_ofNat]
  split <;> omega

theorem errinfoWord_toNat (s : State) :
    (errinfoWord s).toNat = s.errsub.toNat * 2 ^ 12 + s.errarg.toNat := by
  refine (append_toNat (0x0000#16 ++ s.errsub ++ 0b00#2) s.errarg).trans ?_
  rw [append_toNat, append_toNat]
  simp only [BitVec.toNat_ofNat]
  omega

end Sys2Proof.Machine
end

