-- ==== Sys2Proof/Tests/Slice0.lean ====
section
/-! SUPPORT. The model's own tests: ill-formed commands, words written out bit by bit from
spec/30_encoding.md, one step on a small state with the result spec/ states, and for every statement with
hypotheses a state and operands that meet them. The source of each expected value stands in its comment. -/

namespace Sys2Proof.Tests

open Sys2Proof.Machine Sys2Proof.Safety

set_option Elab.async false

/-! ### Helpers: small states and what is compared -/

/-- A state with some lengths written. -/
def withLengths (s : State) (es : List (Symbol × BitVec 9)) : State :=
  { s with len := es.foldl (fun v e => v.set e.1 e.2) s.len }

/-- A state with some codes written. -/
def withCodes (s : State) (es : List (Symbol × Bits)) : State :=
  { s with code := es.foldl (fun v e => v.set e.1 e.2) s.code }

/-- A state with some arena entries written. -/
def withNodes (s : State) (es : List (NodeIdx × Node)) : State :=
  { s with node := es.foldl (fun v e => v.set e.1 e.2) s.node }

/-- The lengths {0:1, 256:1} of the vectors' state S01. -/
def lengths01 : State := withLengths State.reset [(0, 1), (256, 1)]

/-- S01 of spec/95_test_vectors.md with its codes 0 = "0" and 256 = "1", in a given control state. -/
def coded01 (ctl : Ctl) : State :=
  { withCodes lengths01 [(0, [false]), (256, [true])] with state := ctl, tree := some (.node (.leaf 0) (.leaf 256)) }

/-- A state in ERROR, as R296's first row leaves it. -/
def failed : State :=
  { State.reset with state := .error, errcode := 1, errsub := 1, errarg := 0x12C, errcmdreg := 0x112C0001 }

/-- The arena of R181's example: NODE[0] = Internal(1, 2), NODE[1] = Leaf(97), NODE[2] = Leaf(256). -/
def arena2 : State := withNodes State.reset [(0, .internal 1 2), (1, .leaf 97), (2, .leaf 256)]

/-- What a test compares: STATUS, ERRINFO, ERRCMD and OUTCOUNT. -/
def registers (s : State) : Word × Word × Word × Nat :=
  (readReg s 0x08, readReg s 0x0C, readReg s 0x10, (readReg s 0x14).toNat)

/-- A Boolean about the next state, false where there is none. -/
def check (r : StepResult) (p : State → Bool) : Bool :=
  match r with
  | .next t => p t
  | .fault _ => false
  | .refused _ => false

/-- One step in which the host writes a word to CMD. -/
def issue (w : Word) (s : State) : StepResult := step (queueCommand s w)

/-- The registers after one word. -/
def after (w : Word) (s : State) (r : Word × Word × Word × Nat) : Bool :=
  check (issue w s) fun t => registers t == r

theorem exists_of_check {r : StepResult} {p : State → Bool} (h : check r p = true) :
    ∃ t, r = .next t ∧ p t = true := by
  cases r with
  | next t => exact ⟨t, rfl, h⟩
  | fault e => cases h
  | refused e => cases h

/-! ### WellFormed: each check refuses an ill-formed term (R111, R126) -/

theorem test_ldlen_sym_does_not_fit : (Instr.ldlen 512 0).wellFormed = false := by decide
theorem test_ldleaf_idx_does_not_fit : (Instr.ldleaf 1024 0).wellFormed = false := by decide
theorem test_ldleaf_sym_does_not_fit : (Instr.ldleaf 0 512).wellFormed = false := by decide
theorem test_ldint_idx_does_not_fit : (Instr.ldint 1024 0 0).wellFormed = false := by decide
theorem test_ldint_left_does_not_fit : (Instr.ldint 0 1024 0).wellFormed = false := by decide
theorem test_ldint_right_does_not_fit : (Instr.ldint 0 0 1024).wellFormed = false := by decide

/-- The largest operands that fit, out of range though they are (R118, R126). -/
theorem test_largest_operands_fit :
    (Instr.ldlen 511 511).wellFormed = true ∧ (Instr.ldleaf 1023 511).wellFormed = true ∧
    (Instr.ldint 1023 1023 1023).wellFormed = true := by decide

/-! ### Decoding: words written out from the patterns of R112 to R116 -/

theorem test_decode_nop : decode 0b00000000000000000000000000000000#32 = .command .nop := by decide
/-- `0001000sssssssss0000000nnnnnnnnn` with s = 97 and n = 1 (R113). -/
theorem test_decode_ldlen : decode 0b00010000011000010000000000000001#32 = .command (.ldlen 97 1) := by decide
/-- Every bit of SYM and LEN set (R113). -/
theorem test_decode_ldlen_ones : decode 0b00010001111111110000000111111111#32 = .command (.ldlen 511 511) := by decide
/-- `001000iiiiiiiiii0000000sssssssss` with i = 5 and s = 256 (R114). -/
theorem test_decode_ldleaf : decode 0b00100000000001010000000100000000#32 = .command (.ldleaf 5 256) := by decide
theorem test_decode_derive : decode 0b00110000000000000000000000000000#32 = .command .derive := by decide
theorem test_decode_build : decode 0b01000000000000000000000000000000#32 = .command .build := by decide
theorem test_decode_header : decode 0b01010000000000000000000000000000#32 = .command .header := by decide
/-- `oooo00000000000000000000vvvvvvvv` with v = 114 (R116). -/
theorem test_decode_byte : decode 0b01100000000000000000000001110010#32 = .command (.byte 114) := by decide
theorem test_decode_finish : decode 0b01110000000000000000000000000000#32 = .command .finish := by decide
theorem test_decode_wrbit : decode 0b10000000000000000000000000000001#32 = .command (.wrbit 1) := by decide
theorem test_decode_sreset : decode 0b10110000000000000000000000000000#32 = .command .sreset := by decide
/-- `11iiiiiiiiiillllllllllrrrrrrrrrr` with i = 512, l = 511 and r = 510 (R115). -/
theorem test_decode_ldint : decode 0b11100000000001111111110111111110#32 = .command (.ldint 512 511 510) := by decide
theorem test_decode_reserved_opcodes :
    decode 0x90000000#32 = .illegal (.reservedOpcode 9) ∧
    decode 0xA1234567#32 = .illegal (.reservedOpcode 10) := by decide
/-- One bit of each reserved field, its lowest and its highest (R122). -/
theorem test_decode_reserved_bits :
    decode 0x00000001#32 = .illegal (.reservedBits 0) ∧ decode 0x08000000#32 = .illegal (.reservedBits 0) ∧
    decode 0x12000000#32 = .illegal (.reservedBits 1) ∧ decode 0x10000200#32 = .illegal (.reservedBits 1) ∧
    decode 0x24000000#32 = .illegal (.reservedBits 2) ∧ decode 0x20008000#32 = .illegal (.reservedBits 2) ∧
    decode 0x60000100#32 = .illegal (.reservedBits 6) ∧ decode 0x88000000#32 = .illegal (.reservedBits 8) ∧
    decode 0xB0000001#32 = .illegal (.reservedBits 11) := by decide
/-- The host's view of one row: the table's bits decode, and the next step runs them (log 12). -/
theorem test_table_word_runs :
    decodeTableWord 32 0x10610001 = some (.ldlen 97 1) ∧
    check (step (State.reset.withFetchWord 32 0x10610001)) (fun t => t.len[(97 : Symbol)] == 1) = true := by
  decide +kernel

/-! ### One step of each command -/

/-- R155's example. -/
theorem test_nop : after 0x00000000 State.reset (0, 0, 0, 0) = true := by decide +kernel
/-- R160's example: LEN[97] = 1, with the entries beside it still 0. -/
theorem test_ldlen : check (issue 0x10610001 State.reset) (fun t =>
    t.len[(97 : Symbol)] == 1 && t.len[(96 : Symbol)] == 0 && t.len[(98 : Symbol)] == 0) = true := by decide +kernel
/-- R296, first row. -/
theorem test_ldlen_symbol_range :
    after 0x112C0001 State.reset (0x0000001C, 0x0000112C, 0x112C0001, 0) = true := by decide +kernel
/-- R165's example. -/
theorem test_ldleaf : check (issue 0x20010061 State.reset) (fun t =>
    t.node[(1 : NodeIdx)] == .leaf 97) = true := by decide +kernel
/-- R296, second row. -/
theorem test_ldleaf_node_range :
    after 0x22580005 State.reset (0x0000001C, 0x00002258, 0x22580005, 0) = true := by decide +kernel
/-- R170's example. -/
theorem test_ldint : check (issue 0xC0000402 State.reset) (fun t =>
    t.node[(0 : NodeIdx)] == .internal 1 2) = true := by decide +kernel
/-- Vector C17: LDINT 0, 1023, 515 reports LEFT. -/
theorem test_ldint_left_checked_before_right :
    after 0xC00FFE03 State.reset (0x0000001C, 0x000023FF, 0xC00FFE03, 0) = true := by decide +kernel
/-- R181's example. -/
theorem test_derive : check (issue 0x30000000 arena2) (fun t =>
    t.len[(97 : Symbol)] == 1 && t.len[(256 : Symbol)] == 1 && t.len[(0 : Symbol)] == 0) = true := by decide +kernel
/-- Program P3: the walk 0, 1, 2, 3 and back to 0 raises NODE_REVISITED 0. -/
theorem test_derive_cycle :
    after 0x30000000
      (withNodes State.reset [(0, .internal 1 2), (1, .leaf 256), (2, .internal 3 0), (3, .leaf 97)])
      (0x0000003C, 0x00003000, 0x30000000, 0) = true := by decide +kernel
/-- R202's codes, with the longest code all zeros. -/
theorem test_build : check
    (issue 0x40000000 (withLengths State.reset [(97, 1), (98, 3), (114, 3), (256, 3), (99, 4), (100, 4)]))
    (fun t => t.state == .ready && t.code[(97 : Symbol)] == [true] &&
      t.code[(98 : Symbol)] == [false, false, true] && t.code[(99 : Symbol)] == [false, false, false, false] &&
      t.code[(114 : Symbol)] == [false, true, false] && t.code[(256 : Symbol)] == [false, true, true]) = true := by
  decide +kernel
/-- Vector B11: the highest level is checked first. -/
theorem test_build_odd_level :
    after 0x40000000 (withLengths State.reset [(0, 1), (1, 2), (2, 3)])
      (0x0000003C, 0x00005003, 0x40000000, 0) = true := by decide +kernel
/-- R241: from a start with one bit pending, the entries 1 and 0 before the failing symbol 2 give the
bytes 80 and 80, and the last bit of entry 1 stays pending. -/
theorem test_header_stops_at_long_length :
    check (issue 0x50000000
        { withLengths State.reset [(0, 1), (1, 1), (2, 256)] with state := .ready, acc := 1, bitcnt := 1 })
      (fun t => t.out == [0x80#8, 0x80#8] && registers t == (0x0001012C, 0x00001002, 0x50000000, 2)) = true := by
  decide +kernel
/-- Program P2: the third BYTE, with r = "010" after the bits "1001". -/
theorem test_byte :
    after 0x60000072
      { withCodes (withLengths State.reset [(114, 3)]) [(114, [false, true, false])] with
        state := .stream, acc := 9, bitcnt := 4 }
      (0x004A0702, 0, 0, 0) = true := by decide +kernel
/-- Vector E7, without the header's bytes: NO_CODE. -/
theorem test_byte_no_code :
    after 0x60000005 (coded01 .stream) (0x0000001C, 0x00004005, 0x60000005, 0) = true := by decide +kernel
/-- Vector E4, without the header's bytes: the last byte is 80. -/
theorem test_finish : check (issue 0x70000000 (coded01 .stream)) (fun t =>
    t.out == [0x80#8] && registers t == (0x00000003, 0, 0, 1)) = true := by decide +kernel
/-- Vector W11: pending "1", EOS "1", six pad bits. -/
theorem test_finish_pads : check (issue 0x70000000 { coded01 .stream with acc := 1, bitcnt := 1 }) (fun t =>
    t.out == [0xC0#8] && registers t == (0x00000003, 0, 0, 1)) = true := by decide +kernel
/-- Vector W1. -/
theorem test_wrbit : after 0x80000001 (coded01 .ready) (0x00010101, 0, 0, 0) = true := by decide +kernel
/-- R296, eighth row. -/
theorem test_wrbit_value :
    after 0x80000002 (coded01 .ready) (0x0000001C, 0x00003002, 0x80000002, 0) = true := by decide +kernel
/-- R157's example: SRESET leaves ERROR. -/
theorem test_sreset : after 0xB0000000 failed (0, 0, 0, 0) = true := by decide +kernel
/-- R157: in ERROR a word that is not exactly SRESET's is ignored. -/
theorem test_sreset_with_reserved_bits_in_error :
    after 0xB0000001 failed (0x0000001C, 0x0000112C, 0x112C0001, 0) = true := by decide +kernel
/-- Vectors P1 and P4: reserved bits come before the state, and the state before the operands. -/
theorem test_error_priority :
    after 0x50000001 State.reset (0x0000004C, 0x00002005, 0x50000001, 0) = true ∧
    after 0x112C0001 (coded01 .ready) (0x0000005C, 0x00001001, 0x112C0001, 0) = true := by decide +kernel

/-! ### The host's other actions, the assembler and the reference procedure -/

/-- The state with one action of the host queued. -/
def acting (s : State) (a : HostAction) : State := withQueue s [a]

/-- R36's word, read over the bus (W4: ACC 5, BITCNT 3, READY). -/
theorem test_read_status :
    check (step (acting { coded01 .ready with acc := 5, bitcnt := 3 } (.busRead 4 0x08)))
      (fun t => t.host.lastRead == some 0x00050301) = true := by decide +kernel
/-- R33: a write to a read-only register is ignored. -/
theorem test_write_to_status_is_ignored :
    step (acting State.reset (.busWrite 4 0x08 0x10610001)) = .next State.reset := rfl
/-- R89: no step. -/
theorem test_misaligned_access_is_stuck :
    step (acting State.reset (.busRead 4 0x09)) = .fault .busAccessNotAdmitted ∧
    step (acting State.reset (.busRead 2 0x08)) = .fault .busAccessNotAdmitted ∧
    step (acting State.reset (.busWrite 4 0x40 0)) = .fault .busAccessNotAdmitted := ⟨rfl, rfl, rfl⟩
/-- R82: the sink receives the oldest undelivered byte. -/
theorem test_take_byte :
    check (step (acting { State.reset with out := [0xB2, 0xA0], delivered := 1 } .takeByte))
      (fun t => t.delivered == 2 && t.host.received == [0xA0#8]) = true := by decide +kernel
/-- R126 and R127: comments, hexadecimal, character literals and EOS; an operand that does not fit is
refused. -/
theorem test_assembler :
    assembleLine ['L', 'D', 'L', 'E', 'A', 'F', ' ', '0', 'x', '5', ',', ' ', 'E', 'O', 'S', ' ', ';', 'x'] =
      some [0x20050100#32] ∧
    assembleLine ['B', 'Y', 'T', 'E', ' ', '\'', 'r', '\''] = some [0x60000072#32] ∧
    assembleLine ['L', 'D', 'L', 'E', 'N', ' ', '5', '1', '2', ',', '1'] = none := by decide
/-- R355: "abcc" gives c = 1, EOS = 2, a = 3 and b = 3. -/
theorem test_tie_break :
    ((buildTree (frequencies [97, 98, 99, 99])).map fun t =>
      [symbolDepth t 99, symbolDepth t 256, symbolDepth t 97, symbolDepth t 98]) = some [1, 2, 3, 3] := by
  decide +kernel
/-- R353 and program P3: the loads of the tree Internal(EOS, a) of "aaa", after SRESET. -/
theorem test_breadth_first_loads :
    (compressByTree .sreset [97, 97, 97]).map (List.take 5) =
      some [.busWrite 4 0x04 0xB0000000, .busWrite 4 0x04 0xC0000402, .busWrite 4 0x04 0x20010100,
        .busWrite 4 0x04 0x20020061, .busWrite 4 0x04 0x30000000] := by decide +kernel
/-- R345 for empty input (program P1's words), along the length path and from the hardware reset. -/
theorem test_compress_empty_input :
    compressByLengths .hardReset [] =
      some [.hardReset, .busWrite 4 0x04 0x10000001, .busWrite 4 0x04 0x11000001,
        .busWrite 4 0x04 0x40000000, .busWrite 4 0x04 0x50000000, .busWrite 4 0x04 0x70000000,
        .busRead 4 0x08] := by decide +kernel
/-- R345: success iff STATUS.STATE == DONE, with bytes still waiting for the sink. -/
theorem test_success_is_status_done :
    check (step (acting { coded01 .done with out := [0x80] } (.busRead 4 0x08))) succeeded = true ∧
    check (step (acting { coded01 .stream with out := [0x80] } (.busRead 4 0x08))) succeeded = false := by
  decide +kernel
/-- R253: no stream where an input byte, or EOS, has no code, nor where a length is 256. -/
theorem test_no_stream :
    encodeStream lengths01.len [5] = none ∧
    encodeStream (withLengths State.reset [(0, 1), (1, 1)]).len [0] = none ∧
    encodable (withLengths lengths01 [(1, 256)]).len [] = false := by decide +kernel

/-! ### Witnesses: a state and operands that meet the hypotheses of each statement together -/

/-- DecodeOfEncodeIsIdentity, at the largest operands of each format. -/
theorem witness_well_formed :
    (Instr.ldlen 511 511).wellFormed = true ∧ (Instr.ldleaf 1023 511).wellFormed = true ∧
    (Instr.ldint 1023 0 1023).wellFormed = true ∧ (Instr.byte 255).wellFormed = true := by decide

/-- DecodedWordIsTheEncoding. -/
theorem witness_decoded : decode 0xFFFFFFFF#32 = .command (.ldint 1023 1023 1023) := by decide

/-- ReservedOpcodesAreIllegal, at both opcodes and outside ERROR. -/
theorem witness_reserved_opcodes :
    field 0x9FFFFFFF#32 31 28 = 0x9 ∧ field 0xA0000000#32 31 28 = 0xA ∧ State.reset.state ≠ .error := by decide

/-- NonzeroReservedBitsAreIllegal: each of its four clauses, at the lowest and the highest reserved bit. -/
theorem witness_reserved_bits :
    (field 0xB0000001#32 31 28 ∈ [0x0, 0x3, 0x4, 0x5, 0x7, 0xB] ∧ field 0xB0000001#32 27 0 ≠ 0) ∧
    (field 0x38000000#32 31 28 ∈ [0x0, 0x3, 0x4, 0x5, 0x7, 0xB] ∧ field 0x38000000#32 27 0 ≠ 0) ∧
    (field 0x12000000#32 31 28 = 0x1 ∧ field 0x12000000#32 27 25 ≠ 0) ∧
    (field 0x10000200#32 31 28 = 0x1 ∧ field 0x10000200#32 15 9 ≠ 0) ∧
    (field 0x28000000#32 31 28 = 0x2 ∧ field 0x28000000#32 27 26 ≠ 0) ∧
    (field 0x20008000#32 31 28 = 0x2 ∧ field 0x20008000#32 15 9 ≠ 0) ∧
    (field 0x60000100#32 31 28 ∈ [0x6, 0x8] ∧ field 0x60000100#32 27 8 ≠ 0) ∧
    (field 0x88000000#32 31 28 ∈ [0x6, 0x8] ∧ field 0x88000000#32 27 8 ≠ 0) := by decide

/-- StepRunsTheDecodedCommand and BothResetsGiveTheResetState: a queue that starts with SRESET's word, one
that starts with the hardware reset, and (WaitingCoreHoldsItsState) an empty one. -/
theorem witness_queues :
    (queueCommand failed 0xB0000000).host.queue = .busWrite 4 0x04 0xB0000000#32 :: [] ∧
    decode 0xB0000000#32 = .command .sreset ∧
    (acting failed .hardReset).host.queue = .hardReset :: [] ∧ State.reset.host.queue = [] :=
  ⟨rfl, by decide, rfl, rfl⟩

/-- ReadsAndOtherWritesChangeNothing and OnlyAlignedWordAccessesAreAdmitted: the last offset of the window,
and a queue that holds a read and one that holds a write there; accesses outside each bound. -/
theorem witness_bus_accesses :
    (0x3C % 4 = 0 ∧ 0x3C < 64 ∧ 0x3C ≠ 0x04) ∧
    (acting State.reset (.busRead 4 0x3C)).host.queue = .busRead 4 0x3C :: [] ∧
    (acting State.reset (.busWrite 4 0x3C 1)).host.queue = .busWrite 4 0x3C 1 :: [] ∧
    ¬ (4 = 4 ∧ 0x40 % 4 = 0 ∧ 0x40 < 64) ∧ ¬ (4 = 4 ∧ 0x3D % 4 = 0 ∧ 0x3D < 64) ∧
    ¬ (8 = 4 ∧ 0x38 % 4 = 0 ∧ 0x38 < 64) := by
  refine ⟨by decide, rfl, rfl, by decide, by decide, by decide⟩

/-- SinkTakesBytesInOrder: its two clauses. -/
theorem witness_sink :
    (acting { State.reset with out := [1] } .takeByte).host.queue = .takeByte :: [] ∧
    (acting { State.reset with out := [1] } .takeByte).delivered <
      (acting { State.reset with out := [1] } .takeByte).out.length ∧
    (acting State.reset .takeByte).out.length ≤ (acting State.reset .takeByte).delivered := by
  refine ⟨rfl, by decide, by decide⟩

/-- EachStateAcceptsItsCommands: its three clauses, for HEADER. -/
theorem witness_acceptance :
    (coded01 .ready).state ∈ acceptingStates .header ∧
    (State.reset.state ∉ acceptingStates .header ∧ State.reset.state ≠ .error) ∧
    (failed.state ∉ acceptingStates .header ∧ failed.state = .error) := by decide

/-- ErrorStateIgnoresEveryOtherWord: ERROR, a word that is not SRESET's and a read. -/
theorem witness_error_state :
    failed.state = .error ∧ (0xB0000001#32 : Word) ≠ 0xB0000000#32 ∧
    (queueCommand failed 0xB0000001).host.queue = .busWrite 4 0x04 0xB0000001#32 :: [] ∧
    (acting failed (.busRead 4 0x0C)).host.queue = .busRead 4 0x0C :: [] := by
  refine ⟨rfl, by decide, rfl, rfl⟩

/-- OnlyAResetLeavesError: a step from ERROR to another state. -/
theorem witness_leaving_error :
    (acting failed .hardReset).state = .error ∧
    ∃ t, step (acting failed .hardReset) = .next t ∧ t.state ≠ .error := by
  refine ⟨rfl, _, rfl, by decide⟩

/-- FirstErrorIsKept: a step that stays in ERROR. -/
theorem witness_staying_in_error :
    (queueCommand failed 0x90000000).state = .error ∧
    ∃ t, step (queueCommand failed 0x90000000) = .next t ∧ t.state = .error := by
  refine ⟨rfl, failed, rfl, rfl⟩

/-- ErrorsArePrecise and ErrorArgumentsFitErrarg, its second clause: a well-formed command that raises, the
second one with the largest argument a level can have. -/
theorem witness_raising :
    (Instr.ldlen 511 1).wellFormed = true ∧ Instr.ldlen 511 1 ≠ .header ∧ State.reset.state ≠ .error ∧
    (∃ t, exec (.ldlen 511 1) State.reset = .next t ∧ t.state = .error) ∧
    ∃ t, exec .build (withLengths State.reset [(0, 511)]) = .next t ∧ t.errarg = 511 := by
  refine ⟨by decide, by decide, by decide, ⟨_, rfl, by decide⟩, ?_⟩
  obtain ⟨t, h, hp⟩ := exists_of_check (r := exec .build (withLengths State.reset [(0, 511)]))
    (p := fun t => t.errarg == 511) (by decide +kernel)
  exact ⟨t, h, by simpa using hp⟩

/-- ErrorArgumentsFitErrarg, its first and last clauses: the largest operand LDINT can name, a command turned
away and an illegal word. -/
theorem witness_raised :
    ((Instr.ldint 1023 0 0).wellFormed = true ∧
      Raised (.ldint 1023 0 0) State.reset (.nodeRange 1023) State.reset) ∧
    State.reset.state ∉ acceptingStates .finish ∧
    decode 0xA0000000#32 = .illegal (.reservedOpcode 10) :=
  ⟨⟨by decide, rfl, .inl ⟨by decide, rfl⟩⟩, by decide, by decide⟩

/-- ErrorArgumentsFitErrarg's bound on a ROOT_COUNT (vector B9). -/
theorem witness_root_count :
    check (exec .build (withLengths State.reset [(0, 1), (1, 1), (2, 1), (3, 1)]))
      (fun t => t.state == .error && t.errsub == 6 && t.errarg == 2) = true := by decide +kernel

/-- The statements on LDLEN, LDLEAF and LDINT: IDLE, and the operands on both sides of each bound. -/
theorem witness_loads :
    State.reset.state = .idle ∧ (256 : Symbol).val = 256 ∧ 256 < 257 ∧ (512 : NodeIdx).val = 512 ∧
    512 < 513 ∧ 512 ≤ 512 := by decide

/-- The tree R181's example loads. -/
def tree2 : ArenaTree := .node 0 (.leaf 1 97) (.leaf 2 256)

/-- DeriveGivesLeafDepths, its first clause, and DerivedLengthsFormACompleteCode: the arena holds a tree. -/
theorem witness_holds_tree : arena2.state = .idle ∧ HoldsTree arena2.node tree2 := by
  refine ⟨rfl, ?_, rfl, by decide, by decide, by decide⟩
  refine ⟨?_, ?_, ?_⟩ <;> (simp only [ArenaTree.storedIn, ArenaTree.root]; decide +kernel)

/-- DeriveGivesLeafDepths, its second clause: the arena after reset holds no tree. -/
theorem witness_holds_no_tree : ¬ ∃ a : ArenaTree, HoldsTree State.reset.node a := by
  rintro ⟨a, h⟩
  have hr : State.reset.node[Config.ROOT] = .empty := by decide +kernel
  have hs := h.stored
  have h0 := h.atRoot
  cases a with
  | leaf idx sym =>
    simp only [ArenaTree.root] at h0
    subst h0
    simp only [ArenaTree.storedIn] at hs
    rw [hr] at hs
    cases hs
  | node idx l r =>
    simp only [ArenaTree.root] at h0
    subst h0
    have := hs.1
    rw [hr] at this
    cases this

/-- DerivedLengthsFormACompleteCode: DERIVE succeeds. -/
theorem witness_derive_succeeds : ∃ t, exec .derive arena2 = .next t ∧ t.state ≠ .error := by
  obtain ⟨t, h, hp⟩ := exists_of_check (r := exec .derive arena2) (p := fun t => t.state != .error)
    (by decide +kernel)
  exact ⟨t, h, by simpa using hp⟩

/-- DeriveRaisesTheFirstDefect: one arena for each of its clauses, in their order. -/
theorem witness_defects :
    State.reset.node[(0 : NodeIdx)] = .empty ∧
    (withNodes State.reset [(0, .leaf 5)]).node[(0 : NodeIdx)] = .leaf 5 ∧
    (withNodes State.reset [(0, .internal 0 1)]).node[(0 : NodeIdx)] = .internal 0 1 ∧
    ((withNodes State.reset [(0, .internal 1 2)]).node[(0 : NodeIdx)] = .internal 1 2 ∧
      (withNodes State.reset [(0, .internal 1 2)]).node[(1 : NodeIdx)] = .empty) ∧
    ((withNodes State.reset [(0, .internal 1 1), (1, .leaf 5)]).node[(0 : NodeIdx)] = .internal 1 1 ∧
      (withNodes State.reset [(0, .internal 1 1), (1, .leaf 5)]).node[(1 : NodeIdx)] = .leaf 5) ∧
    ((withNodes State.reset [(0, .internal 1 0), (1, .leaf 5)]).node[(0 : NodeIdx)] = .internal 1 0 ∧
      (withNodes State.reset [(0, .internal 1 0), (1, .leaf 5)]).node[(1 : NodeIdx)] = .leaf 5) ∧
    ((withNodes State.reset [(0, .internal 1 2), (1, .leaf 5)]).node[(1 : NodeIdx)] = .leaf 5 ∧
      (withNodes State.reset [(0, .internal 1 2), (1, .leaf 5)]).node[(2 : NodeIdx)] = .empty) ∧
    ((withNodes State.reset [(0, .internal 1 2), (1, .leaf 5), (2, .leaf 5)]).node[(1 : NodeIdx)] = .leaf 5 ∧
      (withNodes State.reset [(0, .internal 1 2), (1, .leaf 5), (2, .leaf 5)]).node[(2 : NodeIdx)] = .leaf 5) := by
  decide +kernel

/-- The arena of vector D8: the left child of NODE[0] has NODE[0] as its own left child. -/
def arenaD8 : State :=
  withNodes State.reset [(0, .internal 1 2), (1, .internal 0 3), (2, .leaf 5), (3, .leaf 6)]

/-- DeriveRaisesTheFirstDefect, its clause on `Visits`: the walk of vector D8 raises NODE_REVISITED 0 at
depth 2. -/
theorem witness_walk_raises :
    arenaD8.node[(0 : NodeIdx)] = .internal 1 2 ∧
    Visits arenaD8.node 0 0 Walk.start (.error (.nodeRevisited 0)) := by
  have h0 : arenaD8.node[(0 : NodeIdx)] = .internal 1 2 := by decide +kernel
  have h1 : arenaD8.node[(1 : NodeIdx)] = .internal 0 3 := by decide +kernel
  exact ⟨h0, .leftRaises (by decide) h0 (.leftRaises (by decide) h1 (.revisited (by decide)))⟩

/-- DeriveRaisesTheFirstDefect, its clause on `Visits`: the walk of R181's example raises nothing. -/
theorem witness_walk_completes :
    arena2.node[(0 : NodeIdx)] = .internal 1 2 ∧ ∃ k, Visits arena2.node 0 0 Walk.start (.ok k) := by
  have h0 : arena2.node[(0 : NodeIdx)] = .internal 1 2 := by decide +kernel
  have h1 : arena2.node[(1 : NodeIdx)] = .leaf 97 := by decide +kernel
  have h2 : arena2.node[(2 : NodeIdx)] = .leaf 256 := by decide +kernel
  exact ⟨h0, _, .leftThenRight (by decide) h0 (.leaf (by decide) h1 (by decide))
    (.leaf (by decide) h2 (by decide))⟩

/-- UnreachableArenaEntriesHaveNoEffect: another arena that agrees on what NODE[0] reaches, here NODE[0]
alone. -/
theorem witness_unreachable :
    ∀ i : NodeIdx, Reachable State.reset.node i →
      (State.reset.node.set 7 (.internal 7 7))[i] = State.reset.node[i] := by
  have hr : ∀ i : NodeIdx, State.reset.node[i] = .empty := by
    intro i
    simp only [State.reset, Fin.getElem_fin, Vector.getElem_replicate]
  intro i hi
  cases hi with
  | root => decide +kernel
  | left _ h => rw [hr] at h; cases h
  | right _ h => rw [hr] at h; cases h

/-- DeriveUsesOnlyTheDepths: the same leaves in another layout and another child order. -/
theorem witness_two_layouts :
    HoldsTree arena2.node tree2 ∧
    HoldsTree (withNodes State.reset [(0, .internal 5 4), (4, .leaf 97), (5, .leaf 256)]).node
      (.node 0 (.leaf 5 256) (.leaf 4 97)) ∧
    ∀ e, e ∈ tree2.leaves 0 ↔ e ∈ (ArenaTree.node 0 (.leaf 5 256) (.leaf 4 97)).leaves 0 := by
  refine ⟨witness_holds_tree.2, ⟨⟨?_, ?_, ?_⟩, rfl, by decide, by decide, by decide⟩, fun e => ?_⟩
  · simp only [ArenaTree.root]; decide +kernel
  · simp only [ArenaTree.storedIn]; decide +kernel
  · simp only [ArenaTree.storedIn]; decide +kernel
  · simp [tree2, ArenaTree.leaves, or_comm]

/-- The statements on BUILD: a table with Kraft sum 1, and tables without. -/
theorem witness_kraft :
    lengths01.state = .idle ∧ kraftSum lengths01.len = 1 ∧ kraftSum State.reset.len ≠ 1 ∧
    kraftSum (withLengths State.reset [(0, 1), (1, 1), (2, 1)]).len ≠ 1 := by
  decide +kernel

/-- The statements on a successful BUILD, with two symbols of one length and one of a longer length than
another. -/
theorem witness_build_succeeds :
    (withLengths State.reset [(0, 1), (1, 2), (2, 2)]).state = .idle ∧
    (∃ t, exec .build (withLengths State.reset [(0, 1), (1, 2), (2, 2)]) = .next t ∧ t.state = .ready) ∧
    (withLengths State.reset [(0, 1), (1, 2), (2, 2)]).len[(0 : Symbol)] = 1 ∧
    (withLengths State.reset [(0, 1), (1, 2), (2, 2)]).len[(1 : Symbol)] = 2 ∧
    (withLengths State.reset [(0, 1), (1, 2), (2, 2)]).len[(2 : Symbol)] = 2 := by
  refine ⟨rfl, ?_, by decide +kernel, by decide +kernel, by decide +kernel⟩
  obtain ⟨t, h, hp⟩ := exists_of_check (r := exec .build (withLengths State.reset [(0, 1), (1, 2), (2, 2)]))
    (p := fun t => t.state == .ready) (by decide +kernel)
  exact ⟨t, h, by simpa using hp⟩

/-- CanonicalDepthsEqualTheLengths, its last clause: an arena that holds the canonical tree of {97:1,
256:1}. -/
theorem witness_canonical_arena :
    HoldsTree arena2.node tree2 ∧ tree2.shape = .node (.leaf 97) (.leaf 256) ∧
    canonicalTree (withLengths State.reset [(97, 1), (256, 1)]).len = .ok (.node (.leaf 97) (.leaf 256)) := by
  refine ⟨witness_holds_tree.2, rfl, ?_⟩
  rcases h : canonicalTree (withLengths State.reset [(97, 1), (256, 1)]).len with e | T
  · have : (canonicalTree (withLengths State.reset [(97, 1), (256, 1)]).len).isOk = true := by decide +kernel
    rw [h] at this
    cases this
  · have : (canonicalTree (withLengths State.reset [(97, 1), (256, 1)]).len).toOption =
        some (.node (.leaf 97) (.leaf 256)) := by decide +kernel
    rw [h] at this
    rw [Option.some.inj this]

/-- LengthsAbove256FailBuild: the smallest such length. -/
theorem witness_long_length :
    (withLengths State.reset [(0, 257)]).state = .idle ∧
    256 < (withLengths State.reset [(0, 257)]).len[(0 : Symbol)].toNat := by
  refine ⟨rfl, by decide +kernel⟩

/-- TheEighthBitEmitsTheByte: its two clauses. -/
theorem witness_putBit :
    ({ State.reset with acc := 63, bitcnt := 6 }.acc.toNat < 2 ^ { State.reset with acc := 63, bitcnt := 6 }.bitcnt.toNat ∧
      { State.reset with acc := 63, bitcnt := 6 }.bitcnt.toNat < 7) ∧
    ({ State.reset with acc := 127, bitcnt := 7 }.acc.toNat < 2 ^ { State.reset with acc := 127, bitcnt := 7 }.bitcnt.toNat ∧
      { State.reset with acc := 127, bitcnt := 7 }.bitcnt.toNat = 7) := by decide

/-- CloseStreamPadsWithZeroBits: both cases; and BitsArePackedMostSignificantFirst, whose start the reset
state is. -/
theorem witness_bitpacker :
    State.reset.bitcnt = 0 ∧ { State.reset with bitcnt := 7 }.bitcnt ≠ 0 ∧ State.reset.out = [] ∧
    State.reset.acc = 0 := by decide

/-- WrbitAppendsOneBit: both states, and values on both sides of the bound. -/
theorem witness_wrbit :
    (coded01 .ready).state = .ready ∧ (coded01 .stream).state = .stream ∧ (1 : Byte).toNat ≤ 1 ∧
    1 < (2 : Byte).toNat := by decide

/-- HeaderWritesTheLengthTable: READY, and no length of 256 or more. -/
theorem witness_header :
    (coded01 .ready).state = .ready ∧ ∀ sym : Symbol, (coded01 .ready).len[sym].toNat < 256 := by
  refine ⟨rfl, by decide +kernel⟩

/-- HeaderStopsAtTheFirstLongLength: the first symbol of length 256 is 2. -/
theorem witness_header_stops :
    { withLengths State.reset [(0, 1), (2, 256)] with state := .ready }.state = .ready ∧
    256 ≤ (withLengths State.reset [(0, 1), (2, 256)]).len[(2 : Symbol)].toNat ∧
    ∀ j : Symbol, j < 2 → (withLengths State.reset [(0, 1), (2, 256)]).len[j].toNat < 256 := by
  refine ⟨rfl, by decide +kernel, by decide +kernel⟩

/-- The invariants hold of a state in IDLE whose length table is loaded. -/
theorem witness_inv : Inv lengths01 := by
  refine ⟨by decide, fun _ => by decide, by decide, fun _ => by decide, by decide, ?_, rfl, ?_, ?_, by decide,
    [], rfl⟩
  · rintro (h | h | h) <;> cases h
  · rintro (h | h | h) <;> cases h
  · rintro (h | h) <;> cases h

/-- AlignedHeaderBytesAreTheLengths, its first clause: the invariants in READY with BITCNT = 0. -/
theorem witness_inv_ready :
    Inv (coded01 .ready) ∧ (coded01 .ready).state = .ready ∧ (coded01 .ready).bitcnt = 0 ∧
    ∀ sym : Symbol, (coded01 .ready).len[sym].toNat < 256 := by
  have hT : canonicalTree (coded01 .ready).len = .ok (.node (.leaf 0) (.leaf 256)) := by
    rcases h : canonicalTree (coded01 .ready).len with e | T
    · have : (canonicalTree (coded01 .ready).len).isOk = true := by decide +kernel
      rw [h] at this
      cases this
    · have : (canonicalTree (coded01 .ready).len).toOption = some (.node (.leaf 0) (.leaf 256)) := by
        decide +kernel
      rw [h] at this
      rw [Option.some.inj this]
  have hc : ∀ s : Symbol, (coded01 .ready).code[s] = (codeTable (.node (.leaf 0) (.leaf 256)))[s] := by
    decide +kernel
  refine ⟨⟨by decide, fun _ => by decide, by decide, by decide, by decide, fun _ => ⟨witness_kraft.2.1, ?_⟩, rfl,
    fun _ => ⟨_, hT, rfl, Vector.ext fun i hi => hc ⟨i, hi⟩⟩, ?_, by decide, [], rfl⟩, rfl, rfl, witness_header.2⟩
  · decide +kernel
  · rintro (h | h) <;> cases h

/-- AlignedHeaderBytesAreTheLengths and CompletedStreamIsTheEncoding: the invariants, IDLE, a BUILD that
succeeds, no length of 256 or more, a code for the byte 0 and for EOS; and a table that is none of this. -/
theorem witness_stream :
    Inv lengths01 ∧ lengths01.state = .idle ∧
    (∃ t, exec .build lengths01 = .next t ∧ t.state = .ready) ∧
    kraftSum lengths01.len = 1 ∧ (∀ sym : Symbol, lengths01.len[sym].toNat < 256) ∧
    lengths01.len[Config.EOS] ≠ 0 ∧ (∀ b ∈ [(0 : Byte)], lengths01.len[byteSymbol b] ≠ 0) ∧
    kraftSum State.reset.len ≠ 1 := by
  refine ⟨witness_inv, rfl, ?_, witness_kraft.2.1, by decide +kernel, by decide +kernel, by decide +kernel,
    witness_kraft.2.2.1⟩
  obtain ⟨t, h, hp⟩ := exists_of_check (r := exec .build lengths01) (p := fun t => t.state == .ready)
    (by decide +kernel)
  exact ⟨t, h, by simpa using hp⟩

/-- StreamDeterminesTheInput: the encoder gives a stream for the byte 0. -/
theorem witness_encode : ∃ stream, encodeStream lengths01.len [0] = some stream := by
  have h : (encodeStream lengths01.len [0]).isSome = true := by decide +kernel
  exact Option.isSome_iff_exists.mp h

/-- ByteAppendsItsCode and FinishClosesTheStream: STREAM, a symbol with a code and one without; and for
FINISH a table without EOS. -/
theorem witness_encoding :
    (coded01 .stream).state = .stream ∧ (coded01 .stream).len[byteSymbol 0] ≠ 0 ∧
    (coded01 .stream).len[byteSymbol 5] = 0 ∧ (coded01 .stream).len[Config.EOS] ≠ 0 ∧
    (coded01 .stream).acc.toNat < 2 ^ (coded01 .stream).bitcnt.toNat ∧
    { State.reset with state := .stream }.len[Config.EOS] = 0 := by decide +kernel

/-- EveryStepKeepsTheInvariants and EmissionIsBounded: the invariants, with a command queued and with a
command that answers. -/
theorem witness_step :
    Inv (queueCommand State.reset 0x10610001) ∧
    (∃ t, step (queueCommand State.reset 0x10610001) = .next t) ∧
    (Inv lengths01 ∧ ∃ t, exec .nop lengths01 = .next t) := by
  refine ⟨?_, ⟨_, rfl⟩, witness_inv, ⟨_, rfl⟩⟩
  refine ⟨by decide, fun _ => by decide, by decide, fun _ => by decide, by decide, ?_, rfl, ?_, ?_, by decide,
    [], rfl⟩
  · rintro (h | h | h) <;> cases h
  · rintro (h | h | h) <;> cases h
  · rintro (h | h) <;> cases h

/-- The statements on who changes and reads what: a command other than SRESET that changes its table, one
that changes the output and one that changes STATE. -/
theorem witness_changes :
    Instr.ldlen 97 1 ≠ .sreset ∧
    check (exec (.ldlen 97 1) State.reset) (fun t => t.len[(97 : Symbol)] != State.reset.len[(97 : Symbol)]) = true ∧
    check (exec .finish (coded01 .stream)) (fun t => t.out != (coded01 .stream).out && t.state == .done) = true := by
  refine ⟨by decide, by decide +kernel, by decide +kernel⟩

/-- TreeBuilderAlwaysGivesATree: a symbol that occurs. -/
theorem witness_frequency : 0 < (frequencies [97])[(97 : Symbol)] := by decide +kernel

end Sys2Proof.Tests
end

/-! ## Family 10_state: the register window, reset, and what every step keeps -/

namespace Sys2Proof.Machine

open Sys2Proof.Safety

/-! ### Inversion: acceptance, `Execute(w)` and the step -/

/-- R152's table by rows (`acceptingStates`) and the model's `accepts` agree, entry by entry. -/
theorem accepts_eq_performs_iff {i : Instr} {c : Ctl} :
    accepts i c = .performs ↔ c ∈ acceptingStates i := by
  cases i <;> cases c <;>
    simp [accepts, acceptNop, acceptSreset, acceptIdle, acceptHeader, acceptWrbit, acceptStream,
      acceptingStates]

/-- SRESET resets from every state (R157). -/
theorem exec_sreset (s : State) : exec .sreset s = .next (resetCore s) := by
  refine exec_completes (accepts_eq_performs_iff.mpr ?_) rfl
  cases s.state <;> simp [acceptingStates]

/-- What `Execute(w)` can do (R150): in ERROR nothing or the reset, otherwise the illegal-command error
or the decoded command. -/
theorem executeWord_cases {w : Word} {s t : State} (h : executeWord w s = .next t) :
    (s.state = .error ∧ (t = s ∨ t = resetCore s)) ∨
    (s.state ≠ .error ∧ ∃ v, decode w = .illegal v ∧ t = raiseError w (illegalCause v) s) ∨
    (s.state ≠ .error ∧ ∃ i, decode w = .command i ∧ exec i s = .next t) := by
  unfold executeWord at h
  split at h
  · next hs =>
    split at h
    · exact .inl ⟨hs, .inr (Host.Outcome.next.inj h).symm⟩
    · exact .inl ⟨hs, .inl (Host.Outcome.next.inj h).symm⟩
  · next hs =>
    split at h
    · next v hv => exact .inr (.inl ⟨hs, v, hv, (Host.Outcome.next.inj h).symm⟩)
    · next i hi => exact .inr (.inr ⟨hs, i, hi, h⟩)

/-- What one action of the host can do: execute a word, nothing, leave a value read, take a byte, or
reset. -/
theorem hostStep_cases {a : HostAction} {s t : State} (h : hostStep a s = .next t) :
    (∃ w, executeWord w s = .next t) ∨ t = s ∨
    (∃ v, t = { s with host := { s.host with lastRead := some v } }) ∨
    t = takeByte s ∨ t = resetCore s := by
  cases a with
  | busWrite bytes offset data =>
    simp only [hostStep, busWrite] at h
    split at h
    · split at h
      · exact .inl ⟨data, h⟩
      · exact .inr (.inl (Host.Outcome.next.inj h).symm)
    · cases h
  | busRead bytes offset =>
    simp only [hostStep, busRead] at h
    split at h
    · exact .inr (.inr (.inl ⟨_, (Host.Outcome.next.inj h).symm⟩))
    · cases h
  | takeByte => exact .inr (.inr (.inr (.inl (Host.Outcome.next.inj h).symm)))
  | hardReset => exact .inr (.inr (.inr (.inr (Host.Outcome.next.inj h).symm)))

/-- A step waits, or performs the oldest action of the host (R93, R295). -/
theorem step_cases {s t : State} (h : step s = .next t) :
    t = s ∨ ∃ a rest, s.host.queue = a :: rest ∧ hostStep a (withQueue s rest) = .next t := by
  unfold step nextAction at h
  split at h
  · exact .inl (Host.Outcome.next.inj h).symm
  · next a rest hq => exact .inr ⟨a, rest, hq, h⟩

theorem takeByte_of_some {s : State} {x : Byte} (h : s.out[s.delivered]? = some x) :
    takeByte s = { s with
      delivered := s.delivered + 1
      host := { s.host with received := s.host.received ++ [x] } } := by
  simp only [takeByte, h]

theorem takeByte_of_none {s : State} (h : s.out[s.delivered]? = none) : takeByte s = s := by
  simp only [takeByte, h]

/-! ### CloseStream as zero bits (R224) -/

/-- Zero bits up to the byte boundary emit the partial byte, padded in its low positions. -/
theorem putBits_zeros_to_boundary {k : Nat} {s : State} (h : s.bitcnt.toNat + (k + 1) = 8) :
    putBits s (List.replicate (k + 1) false) =
      { emitByte s (s.acc <<< (k + 1)) with acc := 0, bitcnt := 0 } := by
  induction k generalizing s with
  | zero =>
    change putBit s false = _
    rw [putBit_full false (by omega)]
    simp [shiftIn]
  | succ k ih =>
    have hc : (s.bitcnt + 1).toNat = s.bitcnt.toNat + 1 := by
      rw [BitVec.toNat_add]; simp; omega
    change putBits (putBit s false) (List.replicate (k + 1) false) = _
    rw [putBit_partial false (by omega), ih (by simp only [hc]; omega)]
    simp [shiftIn, emitByte, ← BitVec.shiftLeft_add, Nat.add_comm]

/-- CloseStream passes on the zero bits that are missing to the byte boundary (R224). -/
theorem closeStream_eq_putBits (s : State) :
    closeStream s = putBits s (List.replicate ((8 - s.bitcnt.toNat) % 8) false) := by
  have hlt := bitcnt_lt s
  rcases Nat.eq_zero_or_pos s.bitcnt.toNat with h | h
  · simp [closeStream, h, putBits]
  · obtain ⟨k, hk⟩ : ∃ k, 8 - s.bitcnt.toNat = k + 1 := ⟨7 - s.bitcnt.toNat, by omega⟩
    have hm : (8 - s.bitcnt.toNat) % 8 = k + 1 := by omega
    rw [hm, putBits_zeros_to_boundary (by omega), closeStream, if_pos h, hk]

theorem closeStream_appends (s : State) :
    Appends s (List.replicate ((8 - s.bitcnt.toNat) % 8) false) (closeStream s) := by
  rw [closeStream_eq_putBits]
  exact putBits_appends s _

/-- A closed stream is aligned (R224). -/
@[simp] theorem closeStream_bitcnt (s : State) : (closeStream s).bitcnt = 0 := by
  unfold closeStream
  split
  · rfl
  · next h => exact BitVec.eq_of_toNat_eq (Nat.eq_zero_of_not_pos h)

/-! ### The output: who appends to it -/

/-- The commands that pass bits to the bitpacker: HEADER, BYTE, FINISH and WRBIT (R220). -/
def IsEncoder (i : Instr) : Prop :=
  i = .header ∨ (∃ b, i = .byte b) ∨ i = .finish ∨ ∃ v, i = .wrbit v

/-- The bitpacker, the output and what the sink has of it. -/
def outputOf (s : State) : List Byte × Byte × BitVec 3 × Word × Nat × HostSide :=
  (s.out, s.acc, s.bitcnt, s.outcnt, s.delivered, s.host)

/-! ### What an append leaves unchanged (R220) -/

theorem appends_state {s t : State} {p : Bits} (h : Appends s p t) : t.state = s.state := by
  rw [h.frame]

theorem appends_delivered {s t : State} {p : Bits} (h : Appends s p t) : t.delivered = s.delivered := by
  rw [h.frame]

theorem appends_host {s t : State} {p : Bits} (h : Appends s p t) : t.host = s.host := by
  rw [h.frame]

@[simp] theorem putBit_state (s : State) (b : Bool) : (putBit s b).state = s.state :=
  appends_state (putBit_appends s b)

@[simp] theorem putBits_state (s : State) (p : Bits) : (putBits s p).state = s.state :=
  appends_state (putBits_appends s p)

/-- `t` has the output of a state reached from `s` by passing on bits. -/
def Grows (s t : State) : Prop := ∃ p u, Appends s p u ∧ outputOf t = outputOf u

theorem grows_of_eq {s t : State} (h : outputOf t = outputOf s) : Grows s t :=
  ⟨[], s, appends_refl s, h⟩

theorem outputOf_eq_iff {s t : State} :
    outputOf t = outputOf s ↔ t.out = s.out ∧ t.acc = s.acc ∧ t.bitcnt = s.bitcnt ∧
      t.outcnt = s.outcnt ∧ t.delivered = s.delivered ∧ t.host = s.host := by
  simp only [outputOf, Prod.mk.injEq]

/-- LEN and NODE are no part of the output. -/
theorem outputOf_tables (s : State) (len : Vector (BitVec 9) 257) (node : Vector Node 513) :
    outputOf { s with len := len, node := node } = outputOf s := rfl

/-- Bytes are only ever appended (R48). -/
theorem grows_history {s t : State} (h : Grows s t) : s.out <+: t.out := by
  obtain ⟨p, u, ha, ho⟩ := h
  rw [(outputOf_eq_iff.mp ho).1]
  exact ha.history

/-- A command that completes and passes no bits on leaves the output alone. -/
theorem completed_outputOf {i : Instr} {s t : State} (h : Completed i s t) (hi : ¬ IsEncoder i)
    (hr : i ≠ .sreset) : outputOf t = outputOf s := by
  cases i with
  | nop => rw [show t = s from h]
  | sreset => exact absurd rfl hr
  | ldlen sym len => obtain ⟨k, -, rfl⟩ := h; exact outputOf_tables s _ _
  | ldleaf idx sym => obtain ⟨i, k, -, -, rfl⟩ := h; exact outputOf_tables s _ _
  | ldint idx left right => obtain ⟨i, l, r, -, -, -, rfl⟩ := h; exact outputOf_tables s _ _
  | derive => obtain ⟨d, -, rfl⟩ := h; exact outputOf_tables s _ _
  | build => obtain ⟨T, -, rfl⟩ := h; rfl
  | header => exact absurd (.inl rfl) hi
  | byte b => exact absurd (.inr (.inl ⟨b, rfl⟩)) hi
  | finish => exact absurd (.inr (.inr (.inl rfl))) hi
  | wrbit v => exact absurd (.inr (.inr (.inr ⟨v, rfl⟩))) hi

/-- HEADER that completes has passed on some bits, and has met no length of 256 or more (R241). -/
theorem headerEntries_ok {s u : State} (h : headerEntries (lenEntries s.len) s = .ok u) :
    (∃ p, Appends s p u) ∧ ∀ sym : Symbol, s.len[sym].toNat < Config.LEN_LIMIT := by
  rcases headerEntries_cases (lenEntries s.len) s with ⟨v, p, hv, ha, -, hl⟩ | ⟨sym, v, p, hv, -⟩
  · rw [h] at hv
    cases hv
    exact ⟨⟨p, ha⟩, fun sym => hl (sym, s.len[sym]) (mem_lenEntries.mpr rfl)⟩
  · rw [h] at hv
    cases hv

/-- HEADER that raises has passed on the bits of the entries before (R241). -/
theorem headerEntries_error {s u : State} {c : ErrorCause}
    (h : headerEntries (lenEntries s.len) s = .error (c, u)) : ∃ p, Appends s p u := by
  rcases headerEntries_cases (lenEntries s.len) s with ⟨v, p, hv, -⟩ | ⟨sym, v, p, hv, ha, -⟩
  · rw [h] at hv
    cases hv
  · rw [h] at hv
    cases hv
    exact ⟨p, ha⟩

/-- A command that completes and passes bits on changes nothing else but STATE. -/
theorem completed_appends {i : Instr} {s t : State} (h : Completed i s t) (hi : IsEncoder i) :
    ∃ p u, Appends s p u ∧ t = { u with state := t.state } := by
  rcases hi with rfl | ⟨b, rfl⟩ | rfl | ⟨v, rfl⟩
  · obtain ⟨u, hu, rfl⟩ := h
    obtain ⟨p, ha⟩ := (headerEntries_ok hu).1
    exact ⟨p, u, ha, rfl⟩
  · obtain ⟨-, rfl⟩ := h
    exact ⟨_, _, putBits_appends s _, rfl⟩
  · obtain ⟨-, rfl⟩ := h
    exact ⟨_, _, appends_trans (putBits_appends s _) (closeStream_appends _), rfl⟩
  · obtain ⟨-, rfl⟩ := h
    exact ⟨_, _, putBit_appends s _, rfl⟩

/-- Every command but SRESET leaves the output alone, or is an encoder and appends to it (R48, R220). -/
theorem exec_output {i : Instr} {s t : State} (h : exec i s = .next t) (hr : i ≠ .sreset) :
    outputOf t = outputOf s ∨ (IsEncoder i ∧ Grows s t) := by
  rcases exec_cases h with ⟨-, rfl⟩ | ⟨-, rfl⟩ | ⟨-, hc⟩ | ⟨-, c, u, hc, rfl⟩
  · exact .inl rfl
  · exact .inl rfl
  · by_cases hi : IsEncoder i
    · obtain ⟨p, u, ha, ht⟩ := completed_appends hc hi
      exact .inr ⟨hi, p, u, ha, by rw [ht]; rfl⟩
    · exact .inl (completed_outputOf hc hi hr)
  · by_cases hh : i = .header
    · subst hh
      obtain ⟨p, ha⟩ := headerEntries_error hc
      exact .inr ⟨.inl rfl, p, u, ha, rfl⟩
    · rw [raised_at hc hh]
      exact .inl rfl

theorem exec_grows {i : Instr} {s t : State} (h : exec i s = .next t) (hr : i ≠ .sreset) :
    Grows s t := by
  rcases exec_output h hr with ho | ⟨-, hg⟩
  · exact grows_of_eq ho
  · exact hg

/-! ### The clauses of `Inv` on the output -/

/-- The clauses of `Inv` that hold of the output in every control state: R50(c), R50(g) and R82. -/
structure OutputInv (s : State) : Prop where
  partialByte : s.acc.toNat < 2 ^ s.bitcnt.toNat
  outcount : s.outcnt = BitVec.ofNat 32 s.out.length
  sinkPrefix : s.delivered ≤ s.out.length ∧
    ∃ earlier, s.host.received = earlier ++ s.out.take s.delivered

theorem outputInv_of_inv {s : State} (h : Inv s) : OutputInv s :=
  ⟨h.partialByte, h.outcount, h.sinkPrefix⟩

theorem outputInv_congr {s t : State} (h : OutputInv s) (ho : outputOf t = outputOf s) :
    OutputInv t := by
  obtain ⟨hout, hacc, hbit, hcnt, hdel, hhost⟩ := outputOf_eq_iff.mp ho
  obtain ⟨hp, hc, hs⟩ := h
  refine ⟨?_, ?_, ?_⟩
  · rw [hacc, hbit]; exact hp
  · rw [hcnt, hout]; exact hc
  · rw [hdel, hhost, hout]; exact hs

theorem outputInv_appends {s t : State} {p : Bits} (h : OutputInv s) (ha : Appends s p t) :
    OutputInv t := by
  obtain ⟨hle, earlier, hrec⟩ := h.sinkPrefix
  have hdel := appends_delivered ha
  have hlen := ha.history.length_le
  refine ⟨ha.partialByte h.partialByte, ?_, by omega, earlier, ?_⟩
  · rw [ha.outcnt, h.outcount, ← BitVec.ofNat_add]
    congr 1
    omega
  · obtain ⟨more, hmore⟩ := ha.history
    rw [appends_host ha, hdel, hrec, ← hmore, List.take_append_of_le_length hle]

theorem outputInv_grows {s t : State} (h : OutputInv s) (hg : Grows s t) : OutputInv t := by
  obtain ⟨p, u, ha, ho⟩ := hg
  exact outputInv_congr (outputInv_appends h ha) ho

/-! ### The code table and the canonical tree -/

theorem canonicalTree_eq_ok {len : Vector (BitVec 9) 257} {T : Tree} (h : canonicalTree len = .ok T) :
    buildLevels len (maxLength len) [] = .ok [T] := by
  unfold canonicalTree at h
  split at h
  · cases h
  · next t ht =>
    cases h
    exact ht
  · cases h

/-- The loop's invariant at the end of a BUILD that succeeds: one tree is left. -/
theorem canonicalTree_levelInv {len : Vector (BitVec 9) 257} {T : Tree}
    (h : canonicalTree len = .ok T) : LevelInv len 0 [T] :=
  buildLevels_levelInv (canonicalTree_eq_ok h) (levelInv_start len)

/-- A canonical tree exists only on Kraft equality (R196). -/
theorem canonicalTree_kraftSum {len : Vector (BitVec 9) 257} {T : Tree}
    (h : canonicalTree len = .ok T) : kraftSum len = 1 := by
  have hw := (canonicalTree_levelInv h).weight
  rw [tailWeight_zero] at hw
  simpa using hw.symm

/-- The codes have the lengths of the table (R198). -/
theorem codeTable_length {len : Vector (BitVec 9) 257} {T : Tree} (h : canonicalTree len = .ok T)
    (sym : Symbol) : (codeTable T)[sym].length = len[sym].toNat := by
  rw [codeTable_getElem]
  rcases Nat.eq_zero_or_pos len[sym].toNat with h0 | h0
  · rw [(canonicalTree_levelInv h).shallow sym h0.le T List.mem_cons_self, h0]
    rfl
  · obtain ⟨i, p, hleaf, hp, -⟩ := (canonicalTree_levelInv h).deep sym h0
    obtain ⟨t, ht, hpath⟩ := hleaf.get
    obtain rfl := List.mem_singleton.mp (List.mem_of_getElem? ht)
    rw [hpath]
    exact hp

/-! ### `Inv` by control state -/

/-- CODE is the code table of the canonical tree of LEN (R45). -/
def HasCode (s : State) : Prop :=
  ∃ T, canonicalTree s.len = .ok T ∧ s.tree = some T ∧ s.code = codeTable T

/-- The error latch as every state but ERROR holds it (R50(a), R50(b)). -/
def LatchClear (s : State) : Prop :=
  s.errcode = 0 ∧ s.errsub = 0 ∧ s.errarg = 0 ∧ s.errcmdreg = 0

theorem latchClear_of_inv {s : State} (h : Inv s) (hs : s.state ≠ .error) : LatchClear s :=
  ⟨not_not.mp fun he => hs (h.errorIffCode.mpr he), h.latchClear hs⟩

/-- In ERROR only the error class and the output are constrained. -/
theorem inv_of_error {s : State} (hs : s.state = .error) (he : s.errcode ≠ 0) (ho : OutputInv s) :
    Inv s where
  errorIffCode := iff_of_true hs he
  latchClear := by simp [hs]
  partialByte := ho.partialByte
  idleEmpty := by simp [hs]
  doneAligned := by simp [hs]
  coded := by simp [hs]
  outcount := ho.outcount
  codeOfTree := by simp [hs]
  headerPassed := by simp [hs]
  sinkPrefix := ho.sinkPrefix

/-- In IDLE no code is asked for and nothing has been emitted. -/
theorem inv_of_idle {s : State} (hs : s.state = .idle) (hl : LatchClear s) (ho : OutputInv s)
    (he : s.bitcnt = 0 ∧ s.out = []) : Inv s where
  errorIffCode := by simp [hs, hl.1]
  latchClear := fun _ => hl.2
  partialByte := ho.partialByte
  idleEmpty := fun _ => he
  doneAligned := by simp [hs]
  coded := by simp [hs]
  outcount := ho.outcount
  codeOfTree := by simp [hs]
  headerPassed := by simp [hs]
  sinkPrefix := ho.sinkPrefix

/-- READY, STREAM and DONE: the code stands, and R50(f) follows from the tree it is read from. -/
theorem inv_of_coded {s : State} (hs : s.state = .ready ∨ s.state = .stream ∨ s.state = .done)
    (hl : LatchClear s) (ho : OutputInv s) (hc : HasCode s)
    (hh : s.state = .stream ∨ s.state = .done → ∀ sym : Symbol, s.len[sym].toNat < Config.LEN_LIMIT)
    (hd : s.state = .done → s.bitcnt = 0) : Inv s where
  errorIffCode := by rcases hs with hs | hs | hs <;> simp [hs, hl.1]
  latchClear := fun _ => hl.2
  partialByte := ho.partialByte
  idleEmpty := by rcases hs with hs | hs | hs <;> simp [hs]
  doneAligned := hd
  coded := fun _ => by
    obtain ⟨T, hT, -, hcode⟩ := hc
    rw [hcode]
    exact ⟨canonicalTree_kraftSum hT, codeTable_length hT⟩
  outcount := ho.outcount
  codeOfTree := fun _ => hc
  headerPassed := hh
  sinkPrefix := ho.sinkPrefix

/-! ### `Inv` through each operation -/

/-- Both resets lead to a state with the invariants, from any state. -/
theorem inv_resetCore (s : State) : Inv (resetCore s) :=
  inv_of_idle rfl ⟨rfl, rfl, rfl, rfl⟩ ⟨by simp, rfl, by simp⟩ ⟨rfl, rfl⟩

theorem errcode_ne_zero (c : ErrorCause) : c.errcode ≠ 0 := by
  cases c <;> simp [ErrorCause.errcode]

/-- Error entry keeps the invariants when the output it leaves does. -/
theorem inv_raiseError {w : Word} {c : ErrorCause} {s : State} (ho : OutputInv s) :
    Inv (raiseError w c s) :=
  inv_of_error rfl (errcode_ne_zero c) (outputInv_congr ho rfl)

/-- The table writers of IDLE: no clause speaks of LEN and NODE there. -/
theorem inv_tables {s : State} (h : Inv s) (hs : s.state = .idle) (len : Vector (BitVec 9) 257)
    (node : Vector Node 513) : Inv { s with len := len, node := node } :=
  have hl : LatchClear s := latchClear_of_inv h (by simp [hs])
  inv_of_idle hs hl (outputInv_congr (outputInv_of_inv h) rfl) (h.idleEmpty hs)

/-- BUILD leaves a code read off the canonical tree (R190). -/
theorem inv_build {s : State} {T : Tree} (h : Inv s) (hs : s.state = .idle)
    (hT : canonicalTree s.len = .ok T) :
    Inv { s with tree := some T, code := codeTable T, state := .ready } :=
  have hl : LatchClear s := latchClear_of_inv h (by simp [hs])
  inv_of_coded (.inl rfl) hl (outputInv_congr (outputInv_of_inv h) rfl) ⟨T, hT, rfl, rfl⟩ (by simp)
    (by simp)

/-- An encoder keeps the code and the latch; its new STATE brings what STREAM and DONE ask for. -/
theorem inv_encoder {i : Instr} {s t : State} (h : Inv s) (hs : s.state = .ready ∨ s.state = .stream)
    (hi : IsEncoder i) (hc : Completed i s t)
    (ht : t.state = .ready ∨ t.state = .stream ∨ t.state = .done)
    (hh : t.state = .stream ∨ t.state = .done → ∀ sym : Symbol, s.len[sym].toNat < Config.LEN_LIMIT)
    (hd : t.state = .done → t.bitcnt = 0) : Inv t := by
  obtain ⟨p, u, ha, htu⟩ := completed_appends hc hi
  have hframe : t = { s with
      acc := t.acc, bitcnt := t.bitcnt, out := t.out, outcnt := t.outcnt, state := t.state } := by
    rw [htu, ha.frame]
  have hl : LatchClear s := latchClear_of_inv h (by rcases hs with hs | hs <;> simp [hs])
  have hlatch : LatchClear t := by
    rw [hframe]
    exact hl
  have hcode : HasCode t := by
    rw [hframe]
    exact h.codeOfTree (hs.imp_right .inl)
  have hlen : t.len = s.len := by rw [hframe]
  have hout : OutputInv t :=
    outputInv_grows (outputInv_of_inv h) ⟨p, u, ha, by rw [htu]; rfl⟩
  exact inv_of_coded ht hlatch hout hcode (by rwa [hlen]) hd

/-- A command that completes keeps the invariants. -/
theorem inv_completed {i : Instr} {s t : State} (h : Inv s) (hs : s.state ∈ acceptingStates i)
    (hc : Completed i s t) : Inv t := by
  cases i with
  | nop => rwa [show t = s from hc]
  | sreset =>
    rw [show t = resetCore s from hc]
    exact inv_resetCore s
  | ldlen sym len =>
    obtain ⟨k, -, rfl⟩ := hc
    exact inv_tables h (List.mem_singleton.mp hs) _ _
  | ldleaf idx sym =>
    obtain ⟨i, k, -, -, rfl⟩ := hc
    exact inv_tables h (List.mem_singleton.mp hs) _ _
  | ldint idx left right =>
    obtain ⟨i, l, r, -, -, -, rfl⟩ := hc
    exact inv_tables h (List.mem_singleton.mp hs) _ _
  | derive =>
    obtain ⟨d, -, rfl⟩ := hc
    exact inv_tables h (List.mem_singleton.mp hs) _ _
  | build =>
    obtain ⟨T, hT, rfl⟩ := hc
    exact inv_build h (List.mem_singleton.mp hs) hT
  | header =>
    have hs : s.state = .ready := List.mem_singleton.mp hs
    obtain ⟨u, hu, rfl⟩ := hc
    exact inv_encoder h (.inl hs) (.inl rfl) ⟨u, hu, rfl⟩ (.inr (.inl rfl))
      (fun _ => (headerEntries_ok hu).2) (by simp)
  | byte b =>
    have hs : s.state = .stream := List.mem_singleton.mp hs
    have ht : t.state = .stream := by rw [hc.2, putBits_state, hs]
    exact inv_encoder h (.inr hs) (.inr (.inl ⟨b, rfl⟩)) hc (.inr (.inl ht))
      (fun _ => h.headerPassed (.inl hs)) (by simp [ht])
  | finish =>
    have hs : s.state = .stream := List.mem_singleton.mp hs
    have ht : t.state = .done ∧ t.bitcnt = 0 := by
      rw [hc.2]
      exact ⟨rfl, closeStream_bitcnt _⟩
    exact inv_encoder h (.inr hs) (.inr (.inr (.inl rfl))) hc (.inr (.inr ht.1))
      (fun _ => h.headerPassed (.inl hs)) (fun _ => ht.2)
  | wrbit v =>
    have hs : s.state = .ready ∨ s.state = .stream := by simpa [acceptingStates] using hs
    have ht : t.state = s.state := by rw [hc.2, putBit_state]
    refine inv_encoder h hs (.inr (.inr (.inr ⟨v, rfl⟩))) hc ?_ ?_ ?_
    · rw [ht]
      exact hs.imp_right .inl
    · rw [ht]
      exact h.headerPassed
    · rw [ht]
      rcases hs with hs | hs <;> simp [hs]

/-- Every command keeps the invariants, completed, turned away or raising. -/
theorem inv_exec {i : Instr} {s t : State} (h : Inv s) (he : exec i s = .next t) : Inv t := by
  rcases exec_cases he with ⟨-, rfl⟩ | ⟨-, rfl⟩ | ⟨ha, hc⟩ | ⟨-, c, u, hc, rfl⟩
  · exact h
  · exact inv_raiseError (outputInv_of_inv h)
  · exact inv_completed h (accepts_eq_performs_iff.mp ha) hc
  · have hr : i ≠ .sreset := by
      rintro rfl
      exact hc
    exact inv_of_error rfl (errcode_ne_zero c) (outputInv_grows (outputInv_of_inv h) (exec_grows he hr))

theorem inv_executeWord {w : Word} {s t : State} (h : Inv s) (he : executeWord w s = .next t) :
    Inv t := by
  rcases executeWord_cases he with ⟨-, rfl | rfl⟩ | ⟨-, v, -, rfl⟩ | ⟨-, i, -, hi⟩
  · exact h
  · exact inv_resetCore s
  · exact inv_raiseError (outputInv_of_inv h)
  · exact inv_exec h hi

/-- Of the host's side, the invariants speak of the received bytes only. -/
theorem inv_withHost {s : State} (h : Inv s) {host : HostSide} (hr : host.received = s.host.received) :
    Inv { s with host := host } :=
  { h with sinkPrefix := by simpa only [hr] using h.sinkPrefix }

/-- The sink takes the next byte of `out`: what it has received stays the beginning of `out` (R82). -/
theorem inv_takeByte {s : State} (h : Inv s) : Inv (takeByte s) := by
  rcases hx : s.out[s.delivered]? with _ | x
  · rwa [takeByte_of_none hx]
  · rw [takeByte_of_some hx]
    obtain ⟨-, earlier, hrec⟩ := h.sinkPrefix
    have hlt : s.delivered < s.out.length := (List.getElem?_eq_some_iff.mp hx).1
    refine { h with sinkPrefix := ⟨hlt, earlier, ?_⟩ }
    simp [hrec, List.take_add_one, hx]

theorem inv_hostStep {a : HostAction} {s t : State} (h : Inv s) (ha : hostStep a s = .next t) :
    Inv t := by
  rcases hostStep_cases ha with ⟨w, hw⟩ | rfl | ⟨v, rfl⟩ | rfl | rfl
  · exact inv_executeWord h hw
  · exact h
  · exact inv_withHost h rfl
  · exact inv_takeByte h
  · exact inv_resetCore s

/-! ### The obligations of 10_state.md -/

/-- Settles O54: whatever the host's next action does, it keeps `Inv` (`inv_hostStep`). -/
theorem everyStepKeepsTheInvariants : Obligations.EveryStepKeepsTheInvariants := by
  intro s t h hstep
  rcases step_cases hstep with rfl | ⟨a, rest, -, ha⟩
  · exact h
  · have hq : Inv (withQueue s rest) := inv_withHost h rfl
    exact inv_hostStep hq ha

/-- Settles O57: a command but SRESET leaves the output alone, or is an encoder and appends to it
(`exec_output`). -/
theorem outputChangesOnlyByTheEncoder : Obligations.OutputChangesOnlyByTheEncoder := by
  intro i s t hi he
  refine ⟨grows_history (exec_grows he hi), fun hchange => ?_⟩
  rcases exec_output he hi with ho | ⟨henc, -⟩
  · obtain ⟨hout, hacc, hbit, hcnt, -⟩ := outputOf_eq_iff.mp ho
    simp [hout, hacc, hbit, hcnt] at hchange
  · exact henc

/-- Settles O10: each piece at the value of R55's table, and the registers computed from them. -/
theorem resetLeavesEveryStatedValue : Obligations.ResetLeavesEveryStatedValue :=
  ⟨rfl, reset_len, reset_node, reset_code, rfl, rfl, rfl, rfl, rfl, rfl, rfl, rfl, rfl, by decide⟩

/-- Settles O12, from STATUS as a sum of its fields at their places (`statusWord_toNat`): in each control
state the number and the ERR bit are numerals, and the rest is division with remainder. -/
theorem statusHoldsItsFields : Obligations.StatusHoldsItsFields := by
  intro s
  have hw : (readReg s 0x08).toNat = _ := statusWord_toNat s
  have hacc := s.acc.isLt
  have hbit := s.bitcnt.isLt
  have hcode := s.errcode.isLt
  simp only [field, hw]
  cases s.state <;> simp [Ctl.number] <;> omega

theorem readReg_reserved (s : State) {offset : Nat} (h : 0x18 ≤ offset) : readReg s offset = 0 := by
  unfold readReg
  split
  case h_7 => rfl
  all_goals omega

/-- Settles O13, from ERRINFO as a sum of its fields (`errinfoWord_toNat`). -/
theorem otherRegistersRead : Obligations.OtherRegistersRead := by
  intro s
  have hw : (readReg s 0x0C).toNat = _ := errinfoWord_toNat s
  have harg := s.errarg.isLt
  have hsub := s.errsub.isLt
  refine ⟨rfl, rfl, ?_, ?_, ?_, ?_, rfl, rfl, fun offset h => readReg_reserved s h⟩
  all_goals
    simp only [field, hw]
    omega

/-- Settles O53: the reset state is one of the states a reset leads to. -/
theorem invariantsHoldAtReset : Obligations.InvariantsHoldAtReset := inv_resetCore State.reset

end Sys2Proof.Machine

/-! ## Family 20_memory: the tables, the bus and the sink -/

namespace Sys2Proof.Machine

open Sys2Proof.Safety

/-! ### Who changes which table (R81) -/

/-- LEN, NODE, CODE and the canonical tree. -/
def tablesOf (s : State) :
    Vector (BitVec 9) 257 × Vector Node 513 × Vector Bits 257 × Option Tree :=
  (s.len, s.node, s.code, s.tree)

theorem tablesOf_eq_iff {s t : State} :
    tablesOf t = tablesOf s ↔
      t.len = s.len ∧ t.node = s.node ∧ t.code = s.code ∧ t.tree = s.tree := by
  simp only [tablesOf, Prod.mk.injEq]

/-- STATE is none of the tables. -/
theorem tablesOf_withState (s : State) (c : Ctl) : tablesOf { s with state := c } = tablesOf s := rfl

@[simp] theorem tablesOf_raiseError (w : Word) (c : ErrorCause) (s : State) :
    tablesOf (raiseError w c s) = tablesOf s := rfl

/-- Bits passed on change no table. -/
theorem appends_tablesOf {s t : State} {p : Bits} (h : Appends s p t) : tablesOf t = tablesOf s := by
  rw [h.frame]
  rfl

/-- A command raises at a state with the tables it found, HEADER included. -/
theorem raised_tablesOf {i : Instr} {s u : State} {c : ErrorCause} (h : Raised i s c u) :
    tablesOf u = tablesOf s := by
  by_cases hi : i = .header
  · subst hi
    obtain ⟨p, ha⟩ := headerEntries_error h
    exact appends_tablesOf ha
  · rw [raised_at h hi]

/-- A table that differs between `s` and `t` is one that the command `i` writes (R81). -/
structure OnlyWrites (i : Instr) (s t : State) : Prop where
  len : t.len ≠ s.len → (∃ sym len, i = .ldlen sym len) ∨ i = .derive
  node : t.node ≠ s.node → (∃ idx sym, i = .ldleaf idx sym) ∨ ∃ idx l r, i = .ldint idx l r
  code : t.code ≠ s.code ∨ t.tree ≠ s.tree → i = .build

theorem onlyWrites_of_tablesOf_eq {i : Instr} {s t : State} (h : tablesOf t = tablesOf s) :
    OnlyWrites i s t := by
  obtain ⟨hlen, hnode, hcode, htree⟩ := tablesOf_eq_iff.mp h
  exact ⟨fun hne => absurd hlen hne, fun hne => absurd hnode hne,
    fun hne => absurd ⟨hcode, htree⟩ (not_and_or.mpr hne)⟩

theorem onlyWrites_len {i : Instr} (s : State) (len : Vector (BitVec 9) 257)
    (hi : (∃ sym l, i = .ldlen sym l) ∨ i = .derive) : OnlyWrites i s { s with len := len } :=
  ⟨fun _ => hi, fun hne => absurd rfl hne, fun hne => absurd ⟨rfl, rfl⟩ (not_and_or.mpr hne)⟩

theorem onlyWrites_node {i : Instr} (s : State) (node : Vector Node 513)
    (hi : (∃ idx sym, i = .ldleaf idx sym) ∨ ∃ idx l r, i = .ldint idx l r) :
    OnlyWrites i s { s with node := node } :=
  ⟨fun hne => absurd rfl hne, fun _ => hi, fun hne => absurd ⟨rfl, rfl⟩ (not_and_or.mpr hne)⟩

/-- A command that completes writes its own tables only; an encoder writes none. -/
theorem completed_onlyWrites {i : Instr} {s t : State} (h : Completed i s t) (hr : i ≠ .sreset) :
    OnlyWrites i s t := by
  by_cases hi : IsEncoder i
  · obtain ⟨p, u, ha, ht⟩ := completed_appends h hi
    refine onlyWrites_of_tablesOf_eq ?_
    rw [ht, tablesOf_withState, appends_tablesOf ha]
  · cases i with
    | nop => exact onlyWrites_of_tablesOf_eq (congrArg tablesOf h)
    | sreset => exact absurd rfl hr
    | ldlen sym len => obtain ⟨k, -, rfl⟩ := h; exact onlyWrites_len s _ (.inl ⟨sym, len, rfl⟩)
    | ldleaf idx sym =>
      obtain ⟨i, k, -, -, rfl⟩ := h
      exact onlyWrites_node s _ (.inl ⟨idx, sym, rfl⟩)
    | ldint idx left right =>
      obtain ⟨i, l, r, -, -, -, rfl⟩ := h
      exact onlyWrites_node s _ (.inr ⟨idx, left, right, rfl⟩)
    | derive => obtain ⟨d, -, rfl⟩ := h; exact onlyWrites_len s _ (.inr rfl)
    | build =>
      obtain ⟨T, -, rfl⟩ := h
      exact ⟨fun hne => absurd rfl hne, fun hne => absurd rfl hne, fun _ => rfl⟩
    | header => exact absurd (.inl rfl) hi
    | byte b => exact absurd (.inr (.inl ⟨b, rfl⟩)) hi
    | finish => exact absurd (.inr (.inr (.inl rfl))) hi
    | wrbit v => exact absurd (.inr (.inr (.inr ⟨v, rfl⟩))) hi

/-- Every command but SRESET writes its own tables only, whether it completes or raises. -/
theorem exec_onlyWrites {i : Instr} {s t : State} (h : exec i s = .next t) (hr : i ≠ .sreset) :
    OnlyWrites i s t := by
  rcases exec_cases h with ⟨-, rfl⟩ | ⟨-, rfl⟩ | ⟨-, hc⟩ | ⟨-, c, u, hu, rfl⟩
  · exact onlyWrites_of_tablesOf_eq rfl
  · exact onlyWrites_of_tablesOf_eq rfl
  · exact completed_onlyWrites hc hr
  · exact onlyWrites_of_tablesOf_eq ((tablesOf_raiseError _ c u).trans (raised_tablesOf hu))

/-! ### Other contents in the tables -/

/-- The state with other contents in LEN, NODE and CODE. -/
def withTables (s : State) (len : Vector (BitVec 9) 257) (node : Vector Node 513)
    (code : Vector Bits 257) : State :=
  { s with len := len, node := node, code := code }

theorem putBit_withTables (s : State) (b : Bool) (len : Vector (BitVec 9) 257)
    (node : Vector Node 513) (code : Vector Bits 257) :
    putBit (withTables s len node code) b = withTables (putBit s b) len node code := by
  rcases Nat.lt_or_ge s.bitcnt.toNat 7 with h | h
  · rw [putBit_partial b h]
    exact putBit_partial b h
  · have h7 : s.bitcnt.toNat = 7 := by have := bitcnt_lt s; omega
    rw [putBit_full b h7]
    exact putBit_full b h7

theorem putBits_withTables (s : State) (p : Bits) (len : Vector (BitVec 9) 257)
    (node : Vector Node 513) (code : Vector Bits 257) :
    putBits (withTables s len node code) p = withTables (putBits s p) len node code := by
  induction p generalizing s with
  | nil => rfl
  | cons b p ih =>
    calc putBits (putBit (withTables s len node code) b) p
        = putBits (withTables (putBit s b) len node code) p := by rw [putBit_withTables]
      _ = withTables (putBits (putBit s b) p) len node code := ih (putBit s b)

/-- CloseStream passes on zero bits, whose number BITCNT alone gives (R224). -/
theorem closeStream_withTables (s : State) (len : Vector (BitVec 9) 257) (node : Vector Node 513)
    (code : Vector Bits 257) :
    closeStream (withTables s len node code) = withTables (closeStream s) len node code := by
  rw [closeStream_eq_putBits, closeStream_eq_putBits]
  exact putBits_withTables s _ len node code

/-- An operation that neither reads nor writes LEN, NODE or CODE. -/
def TableBlind (f : State → State) : Prop :=
  ∀ s len node code, f (withTables s len node code) = withTables (f s) len node code

/-! ### Two states that differ in one table -/

/-- The tables R81 names readers of. -/
inductive Table where
  | len
  | node
  | code

/-- R81: the tables a command reads. -/
def reads : Instr → List Table
  | .build | .header => [.len]
  | .byte _ | .finish => [.len, .code]
  | .derive => [.node]
  | .nop | .sreset | .ldlen _ _ | .ldleaf _ _ | .ldint _ _ _ | .wrbit _ => []

/-- `t` is `s` but for what the table `T` holds. -/
structure SameBut (T : Table) (s t : State) : Prop where
  len : T ≠ .len → t.len = s.len
  node : T ≠ .node → t.node = s.node
  code : T ≠ .code → t.code = s.code
  rest : t = withTables s t.len t.node t.code

theorem sameBut_refl (T : Table) (s : State) : SameBut T s s :=
  ⟨fun _ => rfl, fun _ => rfl, fun _ => rfl, rfl⟩

theorem sameBut_len_iff {s t : State} : SameBut .len s t ↔ t = { s with len := t.len } := by
  refine ⟨fun h => ?_, fun h => ?_⟩
  · rw [← h.node nofun, ← h.code nofun]
    exact h.rest
  · exact ⟨fun hT => absurd rfl hT, fun _ => by rw [h], fun _ => by rw [h], by rw [h]; rfl⟩

theorem sameBut_node_iff {s t : State} : SameBut .node s t ↔ t = { s with node := t.node } := by
  refine ⟨fun h => ?_, fun h => ?_⟩
  · rw [← h.len nofun, ← h.code nofun]
    exact h.rest
  · exact ⟨fun _ => by rw [h], fun hT => absurd rfl hT, fun _ => by rw [h], by rw [h]; rfl⟩

theorem sameBut_code_iff {s t : State} : SameBut .code s t ↔ t = { s with code := t.code } := by
  refine ⟨fun h => ?_, fun h => ?_⟩
  · rw [← h.len nofun, ← h.node nofun]
    exact h.rest
  · exact ⟨fun _ => by rw [h], fun _ => by rw [h], fun hT => absurd rfl hT, by rw [h]; rfl⟩

theorem sameBut_state {T : Table} {s t : State} (h : SameBut T s t) : t.state = s.state := by
  rw [h.rest]
  rfl

theorem sameBut_host {T : Table} {s t : State} (h : SameBut T s t) : t.host = s.host := by
  rw [h.rest]
  rfl

theorem sameBut_withTables {T : Table} {s t : State} (h : SameBut T s t)
    {len len' : Vector (BitVec 9) 257} {node node' : Vector Node 513} {code code' : Vector Bits 257}
    (hlen : T ≠ .len → len' = len) (hnode : T ≠ .node → node' = node)
    (hcode : T ≠ .code → code' = code) :
    SameBut T (withTables s len node code) (withTables t len' node' code') := by
  refine ⟨hlen, hnode, hcode, ?_⟩
  rw [h.rest]
  rfl

/-- A table-blind operation keeps two states equal but for the table. -/
theorem sameBut_map {f : State → State} (hf : TableBlind f) {T : Table} {s t : State}
    (h : SameBut T s t) : SameBut T (f s) (f t) := by
  have hs : f s = withTables (f s) s.len s.node s.code := hf s s.len s.node s.code
  have ht : f t = withTables (f s) t.len t.node t.code := by
    rw [← hf s t.len t.node t.code, ← h.rest]
  rw [ht]
  nth_rw 1 [hs]
  exact sameBut_withTables (sameBut_refl T (f s)) h.len h.node h.code

theorem sameBut_withState {T : Table} {s t : State} (h : SameBut T s t) (c : Ctl) :
    SameBut T { s with state := c } { t with state := c } :=
  sameBut_map (f := fun s => { s with state := c }) (fun _ _ _ _ => rfl) h

theorem sameBut_raiseError {T : Table} {s t : State} (h : SameBut T s t) (w : Word) (c : ErrorCause) :
    SameBut T (raiseError w c s) (raiseError w c t) :=
  sameBut_map (fun _ _ _ _ => rfl) h

theorem sameBut_putBit {T : Table} {s t : State} (h : SameBut T s t) (b : Bool) :
    SameBut T (putBit s b) (putBit t b) :=
  sameBut_map (f := (putBit · b)) (putBit_withTables · b) h

theorem sameBut_putBits {T : Table} {s t : State} (h : SameBut T s t) (p : Bits) :
    SameBut T (putBits s p) (putBits t p) :=
  sameBut_map (f := (putBits · p)) (putBits_withTables · p) h

theorem sameBut_closeStream {T : Table} {s t : State} (h : SameBut T s t) :
    SameBut T (closeStream s) (closeStream t) :=
  sameBut_map closeStream_withTables h

theorem sameBut_resetCore {T : Table} {s t : State} (h : SameBut T s t) :
    SameBut T (resetCore s) (resetCore t) := by
  have ht : resetCore t = resetCore s := by simp only [resetCore, sameBut_host h]
  rw [ht]
  exact sameBut_refl T _

theorem sameBut_setLen {T : Table} {s t : State} (h : SameBut T s t)
    {len len' : Vector (BitVec 9) 257} (hlen : T ≠ .len → len' = len) :
    SameBut T { s with len := len } { t with len := len' } :=
  sameBut_withTables h hlen h.node h.code

theorem sameBut_setNode {T : Table} {s t : State} (h : SameBut T s t) (idx : NodeIdx) (n : Node) :
    SameBut T { s with node := s.node.set idx n } { t with node := t.node.set idx n } :=
  sameBut_withTables h h.len (fun hT => by rw [h.node hT]) h.code

/-- What BUILD writes is the same in both states (R190). -/
theorem sameBut_build {T : Table} {s t : State} (h : SameBut T s t) (tree : Tree) :
    SameBut T { s with tree := some tree, code := codeTable tree, state := .ready }
      { t with tree := some tree, code := codeTable tree, state := .ready } := by
  have h' : SameBut T { s with tree := some tree, state := .ready }
      { t with tree := some tree, state := .ready } :=
    sameBut_map (f := fun s => { s with tree := some tree, state := .ready }) (fun _ _ _ _ => rfl) h
  exact sameBut_withTables h' h.len h.node fun _ => rfl

/-! ### Who reads which table (R81) -/

/-- The same outcome of an effect, at states equal but for the table `T`. -/
inductive SameAnswer (T : Table) :
    Except (ErrorCause × State) State → Except (ErrorCause × State) State → Prop where
  | ok {t t' : State} (h : SameBut T t t') : SameAnswer T (.ok t) (.ok t')
  | error {c : ErrorCause} {u u' : State} (h : SameBut T u u') :
    SameAnswer T (.error (c, u)) (.error (c, u'))

/-- A check with the same answer in both states, then the rest of the effect. -/
theorem sameAnswer_bind {T : Table} {α : Type} {s t : State} (h : SameBut T s t)
    (r : Except ErrorCause α) {f g : α → Except (ErrorCause × State) State}
    (hfg : ∀ a, SameAnswer T (f a) (g a)) :
    SameAnswer T ((checked s r).bind f) ((checked t r).bind g) := by
  cases r with
  | error c => exact .error h
  | ok a => exact hfg a

/-- A check with the same answer in both states, then the one write of the effect. -/
theorem sameAnswer_map {T : Table} {α : Type} {s t : State} (h : SameBut T s t)
    (r : Except ErrorCause α) {f g : α → State} (hfg : ∀ a, SameBut T (f a) (g a)) :
    SameAnswer T ((checked s r).map f) ((checked t r).map g) := by
  cases r with
  | error c => exact .error h
  | ok a => exact .ok (hfg a)

/-- HEADER's loop over given entries looks at no table. -/
theorem sameAnswer_headerEntries {T : Table} (es : List (Symbol × BitVec 9)) {s t : State}
    (h : SameBut T s t) : SameAnswer T (headerEntries es s) (headerEntries es t) := by
  induction es generalizing s t with
  | nil => exact .ok h
  | cons e es ih =>
    by_cases hl : Config.LEN_LIMIT ≤ e.2.toNat
    · rw [headerEntries, headerEntries, if_pos hl, if_pos hl]
      exact .error h
    · rw [headerEntries, headerEntries, if_neg hl, if_neg hl]
      exact ih (sameBut_putBits h _)

/-- The step from HEADER's loop to STREAM (R241). -/
theorem sameAnswer_withState {T : Table} {r r' : Except (ErrorCause × State) State}
    (h : SameAnswer T r r') (c : Ctl) :
    SameAnswer T (r.map fun s => { s with state := c }) (r'.map fun s => { s with state := c }) := by
  cases h with
  | ok h => exact .ok (sameBut_withState h c)
  | error h => exact .error h

theorem codeOf_congr {s t : State} (hlen : t.len = s.len) (hcode : t.code = s.code) (sym : Symbol) :
    codeOf t sym = codeOf s sym := by
  rw [codeOf, codeOf, hlen, hcode]

/-- The effect of a command that does not read the table `T` is the same whatever `T` holds (R81). -/
theorem effectOf_sameAnswer {T : Table} {i : Instr} {s t : State} (hi : T ∉ reads i)
    (h : SameBut T s t) : SameAnswer T (effectOf i s) (effectOf i t) := by
  cases i with
  | nop => exact .ok h
  | sreset => exact .ok (sameBut_resetCore h)
  | ldlen sym len =>
    exact sameAnswer_map h _ fun sym => sameBut_setLen h fun hT => by rw [h.len hT]
  | ldleaf idx sym =>
    exact sameAnswer_bind h _ fun idx => sameAnswer_map h _ fun sym => sameBut_setNode h idx _
  | ldint idx left right =>
    exact sameAnswer_bind h _ fun idx => sameAnswer_bind h _ fun left =>
      sameAnswer_map h _ fun right => sameBut_setNode h idx _
  | derive =>
    have hd : deriveDepths t.node = deriveDepths s.node :=
      congrArg deriveDepths (h.node (by simpa [reads] using hi))
    rw [effectOf, effectOf, hd]
    exact sameAnswer_map h _ fun d => sameBut_setLen h fun _ => rfl
  | build =>
    have hc : canonicalTree t.len = canonicalTree s.len :=
      congrArg canonicalTree (h.len (by simpa [reads] using hi))
    rw [effectOf, effectOf, hc]
    exact sameAnswer_map h _ fun tree => sameBut_build h tree
  | header =>
    have hlen : t.len = s.len := h.len (by simpa [reads] using hi)
    rw [effectOf, effectOf, hlen]
    exact sameAnswer_withState (sameAnswer_headerEntries _ h) .stream
  | byte b =>
    obtain ⟨hl, hc⟩ : T ≠ .len ∧ T ≠ .code := by simpa [reads] using hi
    rw [effectOf, effectOf, codeOf_congr (h.len hl) (h.code hc)]
    exact sameAnswer_map h _ fun p => sameBut_putBits h p
  | finish =>
    obtain ⟨hl, hc⟩ : T ≠ .len ∧ T ≠ .code := by simpa [reads] using hi
    rw [effectOf, effectOf, codeOf_congr (h.len hl) (h.code hc)]
    exact sameAnswer_map h _ fun p => sameBut_withState (sameBut_closeStream (sameBut_putBits h p)) .done
  | wrbit v => exact sameAnswer_map h _ fun b => sameBut_putBit h b

/-- The frame of a command looks at STATE only, so it keeps the same answers (R150). -/
theorem perform_sameBut {T : Table} {i : Instr} {s t : State}
    {f : State → Except (ErrorCause × State) State} (h : SameBut T s t)
    (hf : SameAnswer T (f s) (f t)) :
    ∃ u u', perform i s f = .next u ∧ perform i t f = .next u' ∧ SameBut T u u' := by
  have hst : t.state = s.state := sameBut_state h
  have ha' : accepts i t.state = accepts i s.state := by rw [hst]
  cases ha : accepts i s.state with
  | performs =>
    generalize hr : f s = r, hr' : f t = r' at hf
    cases hf with
    | ok hu => exact ⟨_, _, perform_ok ha hr, perform_ok (ha'.trans ha) hr', hu⟩
    | error hu =>
      exact ⟨_, _, perform_error ha hr, perform_error (ha'.trans ha) hr', sameBut_raiseError hu _ _⟩
  | sequence =>
    refine ⟨_, _, perform_sequence ha, perform_sequence (ha'.trans ha), ?_⟩
    rw [hst]
    exact sameBut_raiseError h _ _
  | ignored => exact ⟨_, _, perform_ignored ha, perform_ignored (ha'.trans ha), h⟩

theorem exec_sameBut {T : Table} {i : Instr} {s t : State} (hi : T ∉ reads i) (h : SameBut T s t) :
    ∃ u u', exec i s = .next u ∧ exec i t = .next u' ∧ SameBut T u u' := by
  rw [exec_eq_perform, exec_eq_perform]
  exact perform_sameBut h (effectOf_sameAnswer hi h)

/-! ### The bus and the sink (R82, R84, R89) -/

/-- R89's three conditions on an access. -/
theorem admitted_iff {bytes offset : Nat} :
    admitted bytes offset = true ↔ bytes = 4 ∧ offset % 4 = 0 ∧ offset < 64 := by
  simp [admitted, and_assoc]

theorem busRead_admitted {bytes offset : Nat} (s : State) (h : admitted bytes offset = true) :
    busRead bytes offset s =
      .next { s with host := { s.host with lastRead := some (readReg s offset) } } := by
  rw [busRead, if_pos h]

theorem busRead_not_admitted {bytes offset : Nat} (s : State) (h : ¬ admitted bytes offset = true) :
    busRead bytes offset s = .fault .busAccessNotAdmitted := by
  rw [busRead, if_neg h]

theorem busWrite_cmd (bytes : Nat) (data : Word) (s : State) (h : admitted bytes 0x04 = true) :
    busWrite bytes 0x04 data s = executeWord data s := by
  rw [busWrite, if_pos h, if_pos rfl]

theorem busWrite_off_cmd {bytes offset : Nat} (data : Word) (s : State)
    (h : admitted bytes offset = true) (hcmd : offset ≠ 0x04) :
    busWrite bytes offset data s = .next s := by
  rw [busWrite, if_pos h, if_neg hcmd]

theorem busWrite_not_admitted {bytes offset : Nat} (data : Word) (s : State)
    (h : ¬ admitted bytes offset = true) :
    busWrite bytes offset data s = .fault .busAccessNotAdmitted := by
  rw [busWrite, if_neg h]

/-- Every word has a next state from every state (R123, R340). -/
theorem executeWord_next (w : Word) (s : State) : ∃ t, executeWord w s = .next t := by
  unfold executeWord
  split
  · split <;> exact ⟨_, rfl⟩
  · split
    · exact ⟨_, rfl⟩
    · exact exec_next _ s

/-- An admitted write has a next state, at CMD and elsewhere. -/
theorem busWrite_next {bytes offset : Nat} (data : Word) (s : State)
    (h : admitted bytes offset = true) : ∃ t, busWrite bytes offset data s = .next t := by
  by_cases hcmd : offset = 0x04
  · subst hcmd
    rw [busWrite_cmd bytes data s h]
    exact executeWord_next data s
  · exact ⟨s, busWrite_off_cmd data s h hcmd⟩

/-- The step performs the host's oldest action, once it is off the queue (R93). -/
theorem step_of_queue {s : State} {a : HostAction} {rest : List HostAction}
    (h : s.host.queue = a :: rest) : step s = hostStep a (withQueue s rest) := by
  simp only [step, nextAction, h]

/-- No register holds anything of the host's side. -/
theorem readReg_withHost (s : State) (host : HostSide) (offset : Nat) :
    readReg { s with host := host } offset = readReg s offset := rfl

/-! ### The obligations of 20_memory.md -/

/-- Settles O55, clause by clause from `OnlyWrites` (`exec_onlyWrites`). -/
theorem tablesChangeOnlyByTheirWriters : Obligations.TablesChangeOnlyByTheirWriters := by
  intro i s t hi he
  have h := exec_onlyWrites he hi
  exact ⟨h.len, h.node, h.code⟩

/-- Settles O56: the two states are equal but for the table, and a command that does not read it keeps
them so (`exec_sameBut`). -/
theorem tablesAreReadOnlyByTheirReaders : Obligations.TablesAreReadOnlyByTheirReaders := by
  refine ⟨fun i s len hbuild hheader hbyte hfinish => ?_, fun i s node hderive => ?_,
    fun i s code hbyte hfinish => ?_⟩
  · have hi : Table.len ∉ reads i := by cases i <;> simp_all [reads]
    obtain ⟨t, t', ht, ht', hs⟩ := exec_sameBut hi (sameBut_len_iff (t := { s with len := len }).mpr rfl)
    exact ⟨t, t', ht, ht', sameBut_len_iff.mp hs⟩
  · have hi : Table.node ∉ reads i := by cases i <;> simp_all [reads]
    obtain ⟨t, t', ht, ht', hs⟩ := exec_sameBut hi (sameBut_node_iff (t := { s with node := node }).mpr rfl)
    exact ⟨t, t', ht, ht', sameBut_node_iff.mp hs⟩
  · have hi : Table.code ∉ reads i := by cases i <;> simp_all [reads]
    obtain ⟨t, t', ht, ht', hs⟩ := exec_sameBut hi (sameBut_code_iff (t := { s with code := code }).mpr rfl)
    exact ⟨t, t', ht, ht', sameBut_code_iff.mp hs⟩

/-- Settles O14: an admitted read writes `lastRead`, which no register shows (`readReg_withHost`), and an
admitted write off CMD writes nothing (`busWrite_off_cmd`). -/
theorem readsAndOtherWritesChangeNothing : Obligations.ReadsAndOtherWritesChangeNothing := by
  refine ⟨fun s offset rest hal hin hq => ?_, fun s offset data rest hal hin hcmd hq => ?_⟩
  · have ha : admitted 4 offset = true := admitted_iff.mpr ⟨rfl, hal, hin⟩
    exact ⟨_, (step_of_queue hq).trans (busRead_admitted _ ha), rfl, readReg_withHost s _ offset,
      rfl, rfl, rfl⟩
  · have ha : admitted 4 offset = true := admitted_iff.mpr ⟨rfl, hal, hin⟩
    exact (step_of_queue hq).trans (busWrite_off_cmd data _ ha hcmd)

/-- Settles O15, for a read and a write apart, from what each does with an access that is admitted and
one that is not. -/
theorem onlyAlignedWordAccessesAreAdmitted : Obligations.OnlyAlignedWordAccessesAreAdmitted := by
  intro s bytes offset data rest a ha hq
  rw [← admitted_iff, step_of_queue hq]
  rcases ha with rfl | rfl
  · exact ⟨fun h => ⟨_, busRead_admitted _ h⟩, busRead_not_admitted _⟩
  · exact ⟨busWrite_next data _, busWrite_not_admitted data _⟩

/-- Settles O16, from what `takeByte` does with a byte waiting and with none. -/
theorem sinkTakesBytesInOrder : Obligations.SinkTakesBytesInOrder := by
  intro s rest hq
  refine ⟨fun h => ?_, fun h => ?_⟩
  · have hx : (withQueue s rest).out[(withQueue s rest).delivered]? = some s.out[s.delivered] :=
      List.getElem?_eq_getElem h
    exact (step_of_queue hq).trans (congrArg _ (takeByte_of_some hx))
  · have hx : (withQueue s rest).out[(withQueue s rest).delivered]? = none :=
      List.getElem?_eq_none h
    exact (step_of_queue hq).trans (congrArg _ (takeByte_of_none hx))

end Sys2Proof.Machine

/-! ## Family 30_encoding: the command formats, the decoder and the illegal words -/

namespace Sys2Proof

/-! ### Fields of a word -/

theorem field_lt (w : Word) (hi lo : Nat) : field w hi lo < 2 ^ (hi + 1 - lo) :=
  Nat.mod_lt _ (Nat.two_pow_pos _)

/-- A field of `hi + 1 - lo` bits is kept by a bit vector that wide. -/
theorem toNat_ofNat_field (w : Word) (hi lo : Nat) :
    (BitVec.ofNat (hi + 1 - lo) (field w hi lo)).toNat = field w hi lo :=
  Nat.mod_eq_of_lt (field_lt w hi lo)

/-- The bits 31:30 that tell format FI are the upper half of the opcode (R119). -/
theorem formatBits_eq (w : Word) : field w 31 30 = field w 31 28 / 4 := by
  simp only [field, Nat.reduceAdd, Nat.reduceSub, Nat.reducePow]
  omega

/-! ### The decoder, one equation per opcode (R120) -/

section Equations

variable {w : Word}

theorem decode_nop (h : field w 31 28 = 0x0) :
    decode w = .need (field w 31 28) (field w 27 0 = 0) .nop := by
  simp [decode, formatBits_eq, h]

theorem decode_ldlen (h : field w 31 28 = 0x1) :
    decode w = .need (field w 31 28) (field w 27 25 = 0 ∧ field w 15 9 = 0)
      (.ldlen (field w 24 16) (BitVec.ofNat 9 (field w 8 0))) := by
  simp [decode, formatBits_eq, h]

theorem decode_ldleaf (h : field w 31 28 = 0x2) :
    decode w = .need (field w 31 28) (field w 27 26 = 0 ∧ field w 15 9 = 0)
      (.ldleaf (field w 25 16) (field w 8 0)) := by
  simp [decode, formatBits_eq, h]

theorem decode_derive (h : field w 31 28 = 0x3) :
    decode w = .need (field w 31 28) (field w 27 0 = 0) .derive := by
  simp [decode, formatBits_eq, h]

theorem decode_build (h : field w 31 28 = 0x4) :
    decode w = .need (field w 31 28) (field w 27 0 = 0) .build := by
  simp [decode, formatBits_eq, h]

theorem decode_header (h : field w 31 28 = 0x5) :
    decode w = .need (field w 31 28) (field w 27 0 = 0) .header := by
  simp [decode, formatBits_eq, h]

theorem decode_byte (h : field w 31 28 = 0x6) :
    decode w = .need (field w 31 28) (field w 27 8 = 0) (.byte (BitVec.ofNat 8 (field w 7 0))) := by
  simp [decode, formatBits_eq, h]

theorem decode_finish (h : field w 31 28 = 0x7) :
    decode w = .need (field w 31 28) (field w 27 0 = 0) .finish := by
  simp [decode, formatBits_eq, h]

theorem decode_wrbit (h : field w 31 28 = 0x8) :
    decode w = .need (field w 31 28) (field w 27 8 = 0) (.wrbit (BitVec.ofNat 8 (field w 7 0))) := by
  simp [decode, formatBits_eq, h]

theorem decode_reservedOpcode (h : field w 31 28 = 0x9 ∨ field w 31 28 = 0xA) :
    decode w = .illegal (.reservedOpcode (field w 31 28)) := by
  rcases h with h | h <;> simp [decode, formatBits_eq, h]

theorem decode_sreset (h : field w 31 28 = 0xB) :
    decode w = .need (field w 31 28) (field w 27 0 = 0) .sreset := by
  simp [decode, formatBits_eq, h]

theorem decode_ldint (h : field w 31 30 = 0b11) :
    decode w = .command (.ldint (field w 29 20) (field w 19 10) (field w 9 0)) := by
  simp [decode, h]

end Equations

theorem Decoded.need_of {op : Nat} {p : Prop} [Decidable p] (h : p) (i : Instr) :
    Decoded.need op p i = .command i := if_pos h

theorem Decoded.need_of_not {op : Nat} {p : Prop} [Decidable p] (h : ¬ p) (i : Instr) :
    Decoded.need op p i = .illegal (.reservedBits op) := if_neg h

theorem Decoded.need_eq_command_iff {op : Nat} {p : Prop} [Decidable p] {i j : Instr} :
    Decoded.need op p i = .command j ↔ p ∧ i = j := by
  by_cases h : p
  · rw [need_of h, Decoded.command.injEq, and_iff_right h]
  · rw [need_of_not h]
    exact iff_of_false Decoded.noConfusion fun he => h he.1

/-! ### The formats F0, FL, FN, FI and FB -/

/-- The word has the command's format (R112 to R116): the opcode and the reserved fields of its row, and
its operands in their fields. -/
def HasFormat (w : Word) : Instr → Prop
  | .nop => field w 31 28 = 0x0 ∧ field w 27 0 = 0
  | .ldlen sym len => field w 31 28 = 0x1 ∧ field w 27 25 = 0 ∧ field w 24 16 = sym ∧
      field w 15 9 = 0 ∧ field w 8 0 = len.toNat
  | .ldleaf idx sym => field w 31 28 = 0x2 ∧ field w 27 26 = 0 ∧ field w 25 16 = idx ∧
      field w 15 9 = 0 ∧ field w 8 0 = sym
  | .derive => field w 31 28 = 0x3 ∧ field w 27 0 = 0
  | .build => field w 31 28 = 0x4 ∧ field w 27 0 = 0
  | .header => field w 31 28 = 0x5 ∧ field w 27 0 = 0
  | .byte b => field w 31 28 = 0x6 ∧ field w 27 8 = 0 ∧ field w 7 0 = b.toNat
  | .finish => field w 31 28 = 0x7 ∧ field w 27 0 = 0
  | .wrbit v => field w 31 28 = 0x8 ∧ field w 27 8 = 0 ∧ field w 7 0 = v.toNat
  | .sreset => field w 31 28 = 0xB ∧ field w 27 0 = 0
  | .ldint idx left right => field w 31 30 = 0b11 ∧ field w 29 20 = idx ∧ field w 19 10 = left ∧
      field w 9 0 = right

/-- The encoder writes the format: no operand that fits its field reaches into another one (R111). -/
theorem hasFormat_encode {i : Instr} (h : i.wellFormed = true) : HasFormat (encode i) i := by
  cases i with
  | ldlen sym len =>
    have hs : sym < 512 := by simpa [Instr.wellFormed, fitsSym] using h
    have hl := len.isLt
    simp [HasFormat, field, encode, placeFields]
    omega
  | ldleaf idx sym =>
    have hw : idx < 1024 ∧ sym < 512 := by simpa [Instr.wellFormed, fitsSym, fitsIdx] using h
    simp [HasFormat, field, encode, placeFields]
    omega
  | ldint idx left right =>
    have hw : (idx < 1024 ∧ left < 1024) ∧ right < 1024 := by
      simpa [Instr.wellFormed, fitsIdx] using h
    simp [HasFormat, field, encode, placeFields]
    omega
  | byte b | wrbit b =>
    have hb := b.isLt
    simp [HasFormat, field, encode, placeFields]
    omega
  | nop | derive | build | header | finish | sreset => exact ⟨by decide, by decide⟩

/-- An operand read from a field fits it. -/
theorem wellFormed_of_hasFormat {w : Word} {i : Instr} (h : HasFormat w i) : i.wellFormed = true := by
  cases i with
  | ldlen sym len =>
    obtain ⟨-, -, rfl, -, -⟩ := h
    exact decide_eq_true (field_lt w 24 16)
  | ldleaf idx sym =>
    obtain ⟨-, -, rfl, -, rfl⟩ := h
    exact Bool.and_eq_true_iff.mpr
      ⟨decide_eq_true (field_lt w 25 16), decide_eq_true (field_lt w 8 0)⟩
  | ldint idx left right =>
    obtain ⟨-, rfl, rfl, rfl⟩ := h
    exact Bool.and_eq_true_iff.mpr ⟨Bool.and_eq_true_iff.mpr
      ⟨decide_eq_true (field_lt w 29 20), decide_eq_true (field_lt w 19 10)⟩,
      decide_eq_true (field_lt w 9 0)⟩
  | nop | derive | build | header | finish | sreset | byte | wrbit => rfl

/-- The fields of a format fill the word, so the format and the operands give every bit of it. -/
theorem encode_eq_of_hasFormat {w : Word} {i : Instr} (h : HasFormat w i) : encode i = w := by
  have hw := w.isLt
  refine BitVec.eq_of_toNat_eq ?_
  cases i with
  | nop | derive | build | header | finish | sreset | ldlen | ldleaf | ldint | byte | wrbit =>
    simp [HasFormat, field] at h
    simp [encode, placeFields]
    omega

/-- The decoder reads the format. Its line h_n has opcode n - 1, up to WRBIT: h_2 and h_3 are LDLEN and
LDLEAF with two reserved fields, h_7 and h_9 BYTE and WRBIT, and h_11 the reserved opcodes. -/
theorem hasFormat_of_decode {w : Word} {i : Instr} (h : decode w = .command i) : HasFormat w i := by
  unfold decode at h
  split at h
  case isTrue hfi =>
    cases h
    exact ⟨hfi, rfl, rfl, rfl⟩
  case isFalse =>
    dsimp only at h
    split at h
    case h_2 hop | h_3 hop =>
      obtain ⟨⟨hhi, hlo⟩, rfl⟩ := Decoded.need_eq_command_iff.mp h
      simp [HasFormat, hop, hhi, hlo, toNat_ofNat_field w 8 0]
    case h_7 hop | h_9 hop =>
      obtain ⟨hr, rfl⟩ := Decoded.need_eq_command_iff.mp h
      exact ⟨hop, hr, (toNat_ofNat_field w 7 0).symm⟩
    case h_11 => cases h
    all_goals
      next hop =>
      obtain ⟨hr, rfl⟩ := Decoded.need_eq_command_iff.mp h
      exact ⟨hop, hr⟩

theorem decode_of_hasFormat {w : Word} {i : Instr} (h : HasFormat w i) : decode w = .command i := by
  cases i with
  | nop => exact (decode_nop h.1).trans (Decoded.need_of h.2 _)
  | ldlen sym len =>
    obtain ⟨hop, hhi, rfl, hlo, hlen⟩ := h
    rw [decode_ldlen hop, Decoded.need_of ⟨hhi, hlo⟩, hlen, BitVec.ofNat_toNat, BitVec.setWidth_eq]
  | ldleaf idx sym =>
    obtain ⟨hop, hhi, rfl, hlo, rfl⟩ := h
    exact (decode_ldleaf hop).trans (Decoded.need_of ⟨hhi, hlo⟩ _)
  | derive => exact (decode_derive h.1).trans (Decoded.need_of h.2 _)
  | build => exact (decode_build h.1).trans (Decoded.need_of h.2 _)
  | header => exact (decode_header h.1).trans (Decoded.need_of h.2 _)
  | byte b =>
    obtain ⟨hop, hr, hb⟩ := h
    rw [decode_byte hop, Decoded.need_of hr, hb, BitVec.ofNat_toNat, BitVec.setWidth_eq]
  | finish => exact (decode_finish h.1).trans (Decoded.need_of h.2 _)
  | wrbit v =>
    obtain ⟨hop, hr, hv⟩ := h
    rw [decode_wrbit hop, Decoded.need_of hr, hv, BitVec.ofNat_toNat, BitVec.setWidth_eq]
  | sreset => exact (decode_sreset h.1).trans (Decoded.need_of h.2 _)
  | ldint idx left right =>
    obtain ⟨hfi, rfl, rfl, rfl⟩ := h
    exact decode_ldint hfi

/-- A non-zero reserved field of format F0 (R112, R122). -/
theorem decode_reservedBits_f0 {w : Word} (hop : field w 31 28 ∈ [0x0, 0x3, 0x4, 0x5, 0x7, 0xB])
    (hr : field w 27 0 ≠ 0) : decode w = .illegal (.reservedBits (field w 31 28)) := by
  simp only [List.mem_cons, List.not_mem_nil, or_false] at hop
  rcases hop with hop | hop | hop | hop | hop | hop
  · exact (decode_nop hop).trans (Decoded.need_of_not hr _)
  · exact (decode_derive hop).trans (Decoded.need_of_not hr _)
  · exact (decode_build hop).trans (Decoded.need_of_not hr _)
  · exact (decode_header hop).trans (Decoded.need_of_not hr _)
  · exact (decode_finish hop).trans (Decoded.need_of_not hr _)
  · exact (decode_sreset hop).trans (Decoded.need_of_not hr _)

/-- A non-zero reserved field of format FB (R116, R122). -/
theorem decode_reservedBits_fb {w : Word} (hop : field w 31 28 ∈ [0x6, 0x8])
    (hr : field w 27 8 ≠ 0) : decode w = .illegal (.reservedBits (field w 31 28)) := by
  simp only [List.mem_cons, List.not_mem_nil, or_false] at hop
  rcases hop with hop | hop
  · exact (decode_byte hop).trans (Decoded.need_of_not hr _)
  · exact (decode_wrbit hop).trans (Decoded.need_of_not hr _)

end Sys2Proof

namespace Sys2Proof.Machine

/-! ### Illegal words -/

/-- Outside ERROR an illegal word is error entry and nothing else (R120, R150). -/
theorem executeWord_of_illegal {w : Word} {v : IllegalWord} {s : State} (hv : decode w = .illegal v)
    (hs : s.state ≠ .error) : executeWord w s = .next (raiseError w (illegalCause v) s) := by
  simp only [executeWord, if_neg hs, hv]

/-- An opcode fits the ten bits of ERRARG. -/
theorem ofNat_opcode_toNat (w : Word) :
    (BitVec.ofNat 10 (field w 31 28)).toNat = field w 31 28 :=
  Nat.mod_eq_of_lt ((field_lt w 31 28).trans (by decide))

/-! ### The obligations of 30_encoding.md -/

/-- Settles O2: the encoder writes the command's format (`hasFormat_encode`), and a word of that format
decodes to the command. -/
theorem decodeOfEncodeIsIdentity : Obligations.DecodeOfEncodeIsIdentity :=
  fun _ hi => decode_of_hasFormat (hasFormat_encode hi)

/-- Settles O3: a word that decodes to a command has the command's format (`hasFormat_of_decode`), whose
fields hold operands that fit and fill the word. -/
theorem decodedWordIsTheEncoding : Obligations.DecodedWordIsTheEncoding := fun _ _ h =>
  ⟨wellFormed_of_hasFormat (hasFormat_of_decode h), encode_eq_of_hasFormat (hasFormat_of_decode h)⟩

/-- Settles O4, from the decoder's equation for the two opcodes and the execution of an illegal word. -/
theorem reservedOpcodesAreIllegal : Obligations.ReservedOpcodesAreIllegal := by
  intro w h
  have hd := decode_reservedOpcode h
  exact ⟨hd, fun s hs => ⟨_, executeWord_of_illegal hd hs, rfl, rfl, rfl, ofNat_opcode_toNat w⟩⟩

/-- Settles O5, format by format from the decoder's equations, whose check on the reserved fields fails,
and the execution of an illegal word. -/
theorem nonzeroReservedBitsAreIllegal : Obligations.NonzeroReservedBitsAreIllegal := by
  intro w h
  have hd : decode w = .illegal (.reservedBits (field w 31 28)) := by
    rcases h with ⟨hop, hr⟩ | ⟨hop, hr⟩ | ⟨hop, hr⟩ | ⟨hop, hr⟩
    · exact decode_reservedBits_f0 hop hr
    · exact (decode_ldlen hop).trans (Decoded.need_of_not (not_and_or.mpr hr) _)
    · exact (decode_ldleaf hop).trans (Decoded.need_of_not (not_and_or.mpr hr) _)
    · exact decode_reservedBits_fb hop hr
  exact ⟨hd, fun s hs => ⟨_, executeWord_of_illegal hd hs, rfl, rfl, rfl, ofNat_opcode_toNat w⟩⟩

/-- Settles O1: sixteen closed facts, each evaluated. -/
theorem specExampleWordsDecode : Obligations.SpecExampleWordsDecode := by
  unfold Obligations.SpecExampleWordsDecode
  decide

/-- Settles O6: the expansions hold by definition, and the three examples are evaluated. -/
theorem pseudoInstructionsExpandInOrder : Obligations.PseudoInstructionsExpandInOrder :=
  ⟨fun _ => rfl, fun _ => rfl, fun _ => rfl, by decide, by decide, by decide⟩

/-- Settles O9: every command answers through `perform` (`exec_next`), and a word is ignored, resets,
raises or runs a command (`executeWord_next`). -/
theorem everyWordHasANextState : Obligations.EveryWordHasANextState := ⟨exec_next, executeWord_next⟩

end Sys2Proof.Machine

/-! ## Family 40_load_and_control: acceptance, precise errors, control commands and table loads -/

namespace Sys2Proof.Machine

open Sys2Proof.Safety

/-! ### Acceptance (R152) -/

/-- Outside its row a command is turned away, and in ERROR it is ignored. -/
theorem accepts_of_not_mem {i : Instr} {c : Ctl} (h : c ∉ acceptingStates i) :
    accepts i c = if c = .error then .ignored else .sequence := by
  revert h
  cases i <;> cases c <;>
    simp [accepts, acceptNop, acceptSreset, acceptIdle, acceptHeader, acceptWrbit, acceptStream,
      acceptingStates]

/-- ERROR is in SRESET's row alone. -/
theorem error_mem_acceptingStates_iff {i : Instr} : .error ∈ acceptingStates i ↔ i = .sreset := by
  cases i <;> simp [acceptingStates]

/-- The table loads, DERIVE and BUILD, whose row is IDLE alone, perform there. -/
theorem accepts_of_idle {i : Instr} {s : State} (hi : acceptingStates i = [.idle])
    (hs : s.state = .idle) : accepts i s.state = .performs :=
  accepts_eq_performs_iff.mpr (by rw [hi, hs]; exact List.mem_singleton_self _)

/-- A command turned away raises SEQUENCE with the state's number and does nothing else. -/
theorem exec_of_not_mem {i : Instr} {s : State} (h : s.state ∉ acceptingStates i)
    (hs : s.state ≠ .error) : exec i s = .next (raiseError (encode i) (.wrongState s.state) s) := by
  rw [exec_eq_perform]
  exact perform_sequence ((accepts_of_not_mem h).trans (if_neg hs))

/-! ### Completing and raising are told apart by STATE and ERRCODE -/

/-- Only error entry leads to ERROR: a command that completes keeps the STATE it was accepted in, or
sets one of the other four. -/
theorem completed_state_ne_error {i : Instr} {s t : State} (hs : s.state ∈ acceptingStates i)
    (h : Completed i s t) : t.state ≠ .error := by
  by_cases hr : i = .sreset
  · subst hr
    rw [show t = resetCore s from h]
    exact nofun
  have hne : s.state ≠ .error := fun he => hr (error_mem_acceptingStates_iff.mp (he ▸ hs))
  cases i with
  | nop => rwa [show t = s from h]
  | sreset => exact absurd rfl hr
  | ldlen => obtain ⟨k, -, rfl⟩ := h; exact hne
  | ldleaf => obtain ⟨k, l, -, -, rfl⟩ := h; exact hne
  | ldint => obtain ⟨k, l, r, -, -, -, rfl⟩ := h; exact hne
  | derive => obtain ⟨d, -, rfl⟩ := h; exact hne
  | build => obtain ⟨T, -, rfl⟩ := h; exact nofun
  | header => obtain ⟨u, -, rfl⟩ := h; exact nofun
  | byte => rwa [h.2, putBits_state]
  | finish => rw [h.2]; exact nofun
  | wrbit => rwa [h.2, putBit_state]

/-- No check of a command raises the class SEQUENCE (R151, R271). -/
theorem raised_ne_wrongState {i : Instr} {s u : State} {c : ErrorCause} (h : Raised i s c u)
    (w : Word) (ctl : Ctl) (v : State) : raiseError w c u ≠ raiseError w (.wrongState ctl) v := by
  intro he
  have h5 : c.errcode = 5 := congrArg State.errcode he
  have hc := raised_errcode h
  rw [h5] at hc
  exact absurd hc (by decide)

/-- In a state of its row a command is not turned away. -/
theorem exec_ne_wrongState {i : Instr} {s t : State} (hs : s.state ∈ acceptingStates i)
    (h : exec i s = .next t) : t ≠ raiseError (encode i) (.wrongState s.state) s := by
  have hp : accepts i s.state = .performs := accepts_eq_performs_iff.mpr hs
  rcases exec_cases h with ⟨ha, -⟩ | ⟨ha, -⟩ | ⟨-, hc⟩ | ⟨-, c, u, hc, rfl⟩
  · exact nomatch hp.symm.trans ha
  · exact nomatch hp.symm.trans ha
  · intro ht
    exact completed_state_ne_error hs hc (by rw [ht, raiseError_state])
  · exact raised_ne_wrongState hc _ _ _

/-! ### Executing the word of a command (R150) -/

/-- The one word of SRESET, which `Execute(w)` looks for in ERROR, is the one that decodes to it. -/
theorem word_eq_sreset_iff {w : Word} {i : Instr} (h : decode w = .command i) :
    w = 0xB0000000#32 ↔ i = .sreset := by
  constructor
  · rintro rfl
    exact Decoded.command.inj (h.symm.trans (by decide))
  · rintro rfl
    exact (encode_eq_of_hasFormat (hasFormat_of_decode h)).symm

/-- A word that decodes to a command executes it, in ERROR too. -/
theorem executeWord_of_command {w : Word} {i : Instr} (h : decode w = .command i) (s : State) :
    executeWord w s = exec i s := by
  by_cases hs : s.state = .error
  · rw [executeWord, if_pos hs, exec_of_error hs]
    simp only [word_eq_sreset_iff h]
    split <;> rfl
  · simp only [executeWord, if_neg hs, h]

/-- After a reset every register reads as in the reset state: no register shows the host's side. -/
theorem readReg_resetCore (s : State) (offset : Nat) :
    readReg (resetCore s) offset = readReg State.reset offset :=
  readReg_withHost State.reset s.host offset

/-! ### The table loads: what each effect is on either side of its checks (R160, R165, R170) -/

theorem effectOf_ldlen (s : State) (sym : Symbol) (len : BitVec 9) :
    effectOf (.ldlen sym.val len) s = .ok { s with len := s.len.set sym len } := by
  rw [effectOf, symOperand_eq_ok]
  rfl

theorem effectOf_ldlen_symbolRange (s : State) {sym : Nat} (len : BitVec 9) (h : 256 < sym) :
    effectOf (.ldlen sym len) s = .error (.symbolRange sym, s) := by
  rw [effectOf, symOperand_eq_error h]
  rfl

theorem effectOf_ldleaf (s : State) (idx : NodeIdx) (sym : Symbol) :
    effectOf (.ldleaf idx.val sym.val) s = .ok { s with node := s.node.set idx (.leaf sym) } := by
  rw [effectOf, idxOperand_eq_ok, symOperand_eq_ok]
  rfl

theorem effectOf_ldleaf_nodeRange (s : State) {idx : Nat} (sym : Nat) (h : 512 < idx) :
    effectOf (.ldleaf idx sym) s = .error (.nodeRange idx, s) := by
  rw [effectOf, idxOperand_eq_error h]
  rfl

theorem effectOf_ldleaf_symbolRange (s : State) {idx sym : Nat} (hi : idx ≤ 512) (hs : 256 < sym) :
    effectOf (.ldleaf idx sym) s = .error (.symbolRange sym, s) := by
  rw [effectOf, idxOperand_of_le hi, symOperand_eq_error hs]
  rfl

theorem effectOf_ldint (s : State) (idx left right : NodeIdx) :
    effectOf (.ldint idx.val left.val right.val) s =
      .ok { s with node := s.node.set idx (.internal left right) } := by
  rw [effectOf, idxOperand_eq_ok, idxOperand_eq_ok, idxOperand_eq_ok]
  rfl

theorem effectOf_ldint_nodeRange_idx (s : State) {idx : Nat} (left right : Nat) (h : 512 < idx) :
    effectOf (.ldint idx left right) s = .error (.nodeRange idx, s) := by
  rw [effectOf, idxOperand_eq_error h]
  rfl

theorem effectOf_ldint_nodeRange_left (s : State) {idx left : Nat} (right : Nat) (hi : idx ≤ 512)
    (hl : 512 < left) : effectOf (.ldint idx left right) s = .error (.nodeRange left, s) := by
  rw [effectOf, idxOperand_of_le hi, idxOperand_eq_error hl]
  rfl

theorem effectOf_ldint_nodeRange_right (s : State) {idx left right : Nat} (hi : idx ≤ 512)
    (hl : left ≤ 512) (hr : 512 < right) :
    effectOf (.ldint idx left right) s = .error (.nodeRange right, s) := by
  rw [effectOf, idxOperand_of_le hi, idxOperand_of_le hl, idxOperand_eq_error hr]
  rfl

/-- What a table holds after one entry is written. -/
theorem getElem_set_entry {α : Type} {n : Nat} (v : Vector α n) (i : Fin n) (x : α) :
    (v.set i x)[i] = x ∧ ∀ j : Fin n, j ≠ i → (v.set i x)[j] = v[j] :=
  ⟨Vector.getElem_set_self _, fun j hj =>
    Vector.getElem_set_ne _ j.isLt fun he => hj (Fin.ext he.symm)⟩

/-- A load that writes one arena entry, its checks passed: that entry and no other changes. -/
theorem exec_writesNode {i : Instr} {s : State} {idx : NodeIdx} {n : Node}
    (ha : accepts i s.state = .performs)
    (he : effectOf i s = .ok { s with node := s.node.set idx n }) :
    ∃ t, exec i s = .next t ∧ t.node[idx] = n ∧
      (∀ j : NodeIdx, j ≠ idx → t.node[j] = s.node[j]) ∧ t = { s with node := t.node } := by
  obtain ⟨hself, hother⟩ := getElem_set_entry s.node idx n
  exact ⟨_, exec_completes ha he, hself, hother, rfl⟩

/-! ### The obligations of 40_load_and_control.md -/

/-- Settles O19: a command of the row is not turned away (`exec_ne_wrongState`), one outside it is, and in
ERROR only SRESET is in its row. -/
theorem eachStateAcceptsItsCommands : Obligations.EachStateAcceptsItsCommands := by
  refine fun i s => ⟨fun hs => ?_, exec_of_not_mem, fun hn hs => ?_⟩
  · obtain ⟨t, ht⟩ := exec_next i s
    exact ⟨t, ht, exec_ne_wrongState hs ht⟩
  · have hr : i ≠ .sreset := fun hi => hn (hs ▸ error_mem_acceptingStates_iff.mpr hi)
    rw [exec_of_error hs, if_neg hr]

/-- Settles O23: a command that is ignored or completes does not enter ERROR, and one that raises does so
at the state it found (`raised_at`). -/
theorem errorsArePrecise : Obligations.ErrorsArePrecise := by
  intro i s t hi hs he ht
  rcases exec_cases he with ⟨-, rfl⟩ | ⟨-, rfl⟩ | ⟨ha, hc⟩ | ⟨-, c, u, hc, rfl⟩
  · exact absurd ht hs
  · exact ⟨_, rfl⟩
  · exact absurd ht (completed_state_ne_error (accepts_eq_performs_iff.mp ha) hc)
  · exact ⟨c, by rw [raised_at hc hi]⟩

/-- Settles O7: the write to CMD executes its word, and the word its command. -/
theorem stepRunsTheDecodedCommand : Obligations.StepRunsTheDecodedCommand := by
  intro s w i rest hq hd
  calc step s
      = busWrite 4 0x04 w (withQueue s rest) := step_of_queue hq
    _ = executeWord w (withQueue s rest) := busWrite_cmd 4 w _ (by decide)
    _ = exec i (withQueue s rest) := executeWord_of_command hd _

/-- Settles O25: in ERROR NOP is ignored, and in every other state it performs its empty effect. -/
theorem nopChangesNothing : Obligations.NopChangesNothing := by
  intro s
  by_cases hs : s.state = .error
  · rw [exec_of_error hs, if_neg nofun]
  · refine exec_completes (accepts_eq_performs_iff.mpr ?_) rfl
    cases hc : s.state with
    | error => exact absurd hc hs
    | idle | ready | stream | done => simp [acceptingStates]

/-- Settles O26: after SRESET the registers read as in the reset state, which is closed. -/
theorem sresetResetsFromEveryState : Obligations.SresetResetsFromEveryState := by
  intro s
  refine ⟨resetCore s, exec_sreset s, rfl, ?_⟩
  simp only [readReg_resetCore]
  decide

/-- Settles O27, on either side of the symbol check. -/
theorem ldlenWritesOneLength : Obligations.LdlenWritesOneLength := by
  refine fun s len hs => ⟨fun sym => ?_, fun sym hsym => ?_⟩
  · obtain ⟨hself, hother⟩ := getElem_set_entry s.len sym len
    exact ⟨_, exec_completes (accepts_of_idle rfl hs) (effectOf_ldlen s sym len), hself, hother, rfl⟩
  · exact exec_raises (accepts_of_idle rfl hs) (effectOf_ldlen_symbolRange s len hsym)

/-- Settles O28, check by check. -/
theorem ldleafWritesOneLeaf : Obligations.LdleafWritesOneLeaf := fun s hs =>
  ⟨fun idx sym => exec_writesNode (accepts_of_idle rfl hs) (effectOf_ldleaf s idx sym),
    fun _ sym hi => exec_raises (accepts_of_idle rfl hs) (effectOf_ldleaf_nodeRange s sym hi),
    fun _ _ hi hsym => exec_raises (accepts_of_idle rfl hs) (effectOf_ldleaf_symbolRange s hi hsym)⟩

/-- Settles O29, check by check. -/
theorem ldintWritesOneInternalNode : Obligations.LdintWritesOneInternalNode := fun s hs =>
  ⟨fun idx left right => exec_writesNode (accepts_of_idle rfl hs) (effectOf_ldint s idx left right),
    fun _ left right hi =>
      exec_raises (accepts_of_idle rfl hs) (effectOf_ldint_nodeRange_idx s left right hi),
    fun _ _ right hi hl =>
      exec_raises (accepts_of_idle rfl hs) (effectOf_ldint_nodeRange_left s right hi hl),
    fun _ _ _ hi hl hr =>
      exec_raises (accepts_of_idle rfl hs) (effectOf_ldint_nodeRange_right s hi hl hr)⟩

end Sys2Proof.Machine

/-! ## Family 41_canonicalizer: what DERIVE and BUILD answer, and the canonical code -/

namespace Sys2Proof.Machine

open Sys2Proof.Safety

/-! ### DERIVE and BUILD in IDLE, by what their traversals answer (R181, R190) -/

theorem exec_derive_of_ok {s : State} {depths : Vector Nat 257} (hs : s.state = .idle)
    (h : deriveDepths s.node = .ok depths) :
    exec .derive s = .next { s with len := toLengths depths } :=
  exec_completes (accepts_of_idle rfl hs) (by rw [effectOf, h]; rfl)

theorem exec_derive_of_error {s : State} {c : ErrorCause} (hs : s.state = .idle)
    (h : deriveDepths s.node = .error c) :
    exec .derive s = .next (raiseError (encode .derive) c s) :=
  exec_raises (accepts_of_idle rfl hs) (by rw [effectOf, h]; rfl)

/-- DERIVE ends outside ERROR only where its traversal returned. -/
theorem derive_succeeded {s t : State} (hs : s.state = .idle) (h : exec .derive s = .next t)
    (ht : t.state ≠ .error) :
    ∃ depths, deriveDepths s.node = .ok depths ∧ t = { s with len := toLengths depths } := by
  rcases hd : deriveDepths s.node with c | depths
  · rw [exec_derive_of_error hs hd] at h
    cases h
    exact absurd rfl ht
  · rw [exec_derive_of_ok hs hd] at h
    exact ⟨depths, rfl, (Host.Outcome.next.inj h).symm⟩

theorem exec_build_of_ok {s : State} {T : Tree} (hs : s.state = .idle)
    (h : canonicalTree s.len = .ok T) :
    exec .build s = .next { s with tree := some T, code := codeTable T, state := .ready } :=
  exec_completes (accepts_of_idle rfl hs) (by rw [effectOf, h]; rfl)

theorem exec_build_of_error {s : State} {c : ErrorCause} (hs : s.state = .idle)
    (h : canonicalTree s.len = .error c) :
    exec .build s = .next (raiseError (encode .build) c s) :=
  exec_raises (accepts_of_idle rfl hs) (by rw [effectOf, h]; rfl)

/-- BUILD ends in READY only where LEN has a canonical tree. -/
theorem build_succeeded {s t : State} (hs : s.state = .idle) (h : exec .build s = .next t)
    (ht : t.state = .ready) :
    ∃ T, canonicalTree s.len = .ok T ∧
      t = { s with tree := some T, code := codeTable T, state := .ready } := by
  rcases hT : canonicalTree s.len with c | T
  · rw [exec_build_of_error hs hT] at h
    cases h
    exact nomatch ht
  · rw [exec_build_of_ok hs hT] at h
    exact ⟨T, rfl, (Host.Outcome.next.inj h).symm⟩

/-! ### The traversal of DERIVE against the tree the arena holds (R182, R184) -/

theorem deriveDepths_of_internal {node : Vector Node 513} {l r : NodeIdx}
    (h : node[(0 : NodeIdx)] = .internal l r) :
    deriveDepths node = (visit node 513 0 0 Walk.start).map Walk.depths := by
  simp only [deriveDepths, Config.ROOT, h]

theorem deriveDepths_of_not_internal {node : Vector Node 513}
    (h : node[(0 : NodeIdx)] = .empty ∨ ∃ sym, node[(0 : NodeIdx)] = .leaf sym) :
    deriveDepths node = .error .rootNotInternal := by
  obtain h | ⟨sym, h⟩ := h <;> simp only [deriveDepths, Config.ROOT, h]

/-- A traversal that returns was a walk from an internal root. -/
theorem deriveDepths_eq_ok {node : Vector Node 513} {depths : Vector Nat 257}
    (h : deriveDepths node = .ok depths) :
    ∃ l r k, node[(0 : NodeIdx)] = .internal l r ∧ visit node 513 0 0 Walk.start = .ok k ∧
      k.depths = depths := by
  rcases hn : node[(0 : NodeIdx)] with _ | sym | ⟨l, r⟩
  · rw [deriveDepths_of_not_internal (.inl hn)] at h
    cases h
  · rw [deriveDepths_of_not_internal (.inr ⟨sym, hn⟩)] at h
    cases h
  · rw [deriveDepths_of_internal hn] at h
    rcases hv : visit node 513 0 0 Walk.start with c | k
    · rw [hv] at h
      cases h
    · rw [hv] at h
      exact ⟨l, r, k, rfl, rfl, Except.ok.inj h⟩

/-- The root of a proper tree, taken apart. -/
theorem holdsTree_root {node : Vector Node 513} {a : ArenaTree} (h : HoldsTree node a) :
    ∃ l r, a = .node 0 l r ∧ node[(0 : NodeIdx)] = .internal l.root r.root := by
  have hint := h.internal
  have hroot := h.atRoot
  have hst := h.stored
  cases a with
  | leaf idx sym => exact absurd hint (Nat.lt_irrefl 0)
  | node idx l r =>
    obtain rfl : idx = 0 := hroot
    exact ⟨l, r, rfl, hst.1⟩

/-- DERIVE's table for a proper tree: the depth of each leaf, 0 for the other symbols. -/
theorem deriveDepths_of_holdsTree {node : Vector Node 513} {a : ArenaTree} (h : HoldsTree node a) :
    ∃ depths, deriveDepths node = .ok depths ∧
      (∀ sym d, (sym, d) ∈ a.leaves 0 → depths[sym] = d) ∧
      ∀ sym, sym ∉ symbolsOf a → depths[sym] = 0 := by
  obtain ⟨l, r, ha, hn⟩ := holdsTree_root h
  obtain ⟨k, hk, -, -, hleaf, hrest⟩ := visit_stored a (fuel := 513) (d := 0) (k := Walk.start)
    h.stored (by have := internals_le h.noSharing; omega) h.noSharing (fun _ _ => List.not_mem_nil)
    h.distinctSymbols (fun _ _ => List.not_mem_nil)
  rw [h.atRoot] at hk
  refine ⟨k.depths, by rw [deriveDepths_of_internal hn, hk]; rfl, hleaf, fun sym hsym => ?_⟩
  rw [hrest sym hsym]
  simp [Walk.start]

/-- The traversal returns only on a proper tree. -/
theorem holdsTree_of_deriveDepths {node : Vector Node 513} {depths : Vector Nat 257}
    (h : deriveDepths node = .ok depths) : ∃ a, HoldsTree node a := by
  obtain ⟨l, r, k, hn, hv, -⟩ := deriveDepths_eq_ok h
  obtain ⟨a, hst, hroot, hidx, -, hsym, -⟩ := visit_ok hv
  refine ⟨a, hst, hroot, ?_, hidx, hsym⟩
  cases a with
  | leaf idx sym =>
    obtain rfl : idx = 0 := hroot
    exact nomatch hn.symm.trans hst
  | node idx l r => exact Nat.succ_pos _

theorem leaf_depth_le_256 {node : Vector Node 513} {a : ArenaTree} (h : HoldsTree node a)
    {e : Symbol × Nat} (he : e ∈ a.leaves 0) : e.2 ≤ 256 := by
  have h1 := leaf_depth_le a 0 e he
  have h2 := internals_le h.noSharing
  omega

theorem mem_symbolsOf {a : ArenaTree} {sym : Symbol} :
    sym ∈ symbolsOf a ↔ ∃ d, (sym, d) ∈ a.leaves 0 := by
  simp [symbolsOf]

theorem toLengths_getElem (depths : Vector Nat 257) (sym : Symbol) :
    (toLengths depths)[sym] = BitVec.ofNat 9 depths[sym] := by
  simp [toLengths]

/-- LEN holds the depths of the tree's leaves, and 0 for a symbol without a leaf (R181, R182). -/
structure DepthTable (a : ArenaTree) (len : Vector (BitVec 9) 257) : Prop where
  leaf : ∀ sym d, (sym, d) ∈ a.leaves 0 → len[sym].toNat = d
  rest : ∀ sym, sym ∉ symbolsOf a → len[sym] = 0

/-- DERIVE on a proper tree answers its depth table: every depth fits an entry (R184c). -/
theorem depthTable_of_holdsTree {node : Vector Node 513} {a : ArenaTree} (h : HoldsTree node a) :
    ∃ depths, deriveDepths node = .ok depths ∧ DepthTable a (toLengths depths) := by
  obtain ⟨depths, hd, hleaf, hrest⟩ := deriveDepths_of_holdsTree h
  refine ⟨depths, hd, fun sym d he => ?_, fun sym hsym => ?_⟩
  · have hle : d ≤ 256 := leaf_depth_le_256 h he
    rw [toLengths_getElem, hleaf sym d he, BitVec.toNat_ofNat]
    omega
  · rw [toLengths_getElem, hrest sym hsym]
    rfl

/-- The depth table depends on the set of leaves only (R186). -/
theorem depthTable_unique {a a' : ArenaTree} {len len' : Vector (BitVec 9) 257}
    (h : ∀ e, e ∈ a.leaves 0 ↔ e ∈ a'.leaves 0) (ht : DepthTable a len) (ht' : DepthTable a' len') :
    len = len' := by
  have key : ∀ sym : Symbol, len[sym] = len'[sym] := fun sym => by
    have hiff : sym ∈ symbolsOf a ↔ sym ∈ symbolsOf a' := by simp only [mem_symbolsOf, h]
    by_cases hm : sym ∈ symbolsOf a
    · obtain ⟨d, hd⟩ := mem_symbolsOf.mp hm
      exact BitVec.eq_of_toNat_eq ((ht.leaf sym d hd).trans (ht'.leaf sym d ((h _).mp hd)).symm)
    · rw [ht.rest sym hm, ht'.rest sym (mt hiff.mpr hm)]
  exact Vector.ext fun i hi => key ⟨i, hi⟩

/-- Settles O30: the walk over a stored tree writes its depths (`visit_stored`), and a walk that returns
has walked one (`visit_ok`). -/
theorem deriveGivesLeafDepths : Obligations.DeriveGivesLeafDepths := by
  refine fun s hs => ⟨fun a ha => ?_, fun hno => ?_⟩
  · obtain ⟨depths, hd, hleaf, hrest⟩ := depthTable_of_holdsTree ha
    exact ⟨_, exec_derive_of_ok hs hd, rfl, hleaf, hrest⟩
  · rcases hd : deriveDepths s.node with c | depths
    · obtain ⟨hcode, hsub, -⟩ := deriveDepths_error hd
      exact ⟨c, exec_derive_of_error hs hd, hcode, hsub⟩
    · exact absurd (holdsTree_of_deriveDepths hd) hno

/-- Settles O34: both tables are depth tables of the same leaves. -/
theorem deriveUsesOnlyTheDepths : Obligations.DeriveUsesOnlyTheDepths := by
  intro s s' a a' hs hs' ha ha' h
  obtain ⟨depths, hd, ht⟩ := depthTable_of_holdsTree ha
  obtain ⟨depths', hd', ht'⟩ := depthTable_of_holdsTree ha'
  exact ⟨_, _, exec_derive_of_ok hs hd, exec_derive_of_ok hs' hd', depthTable_unique h ht ht'⟩

/-! ### The first defect in pre-order (R182) -/

/-- With the fuel DERIVE gives it, the walk from NODE[0] is R182's `Visit(0, 0)`. -/
theorem visits_root (node : Vector Node 513) :
    Visits node 0 0 Walk.start (visit node 513 0 0 Walk.start) :=
  visits_of_visit List.nodup_nil (by simp)

theorem deriveDepths_of_visits {node : Vector Node 513} {l r : NodeIdx}
    {result : Except ErrorCause Walk} (hn : node[(0 : NodeIdx)] = .internal l r)
    (h : Visits node 0 0 Walk.start result) : deriveDepths node = result.map Walk.depths := by
  rw [deriveDepths_of_internal hn, visits_unique (visits_root node) h]

theorem exec_derive_of_visits_error {s : State} {l r : NodeIdx} {c : ErrorCause}
    (hs : s.state = .idle) (hn : s.node[(0 : NodeIdx)] = .internal l r)
    (h : Visits s.node 0 0 Walk.start (.error c)) :
    exec .derive s = .next (raiseError (encode .derive) c s) :=
  exec_derive_of_error hs (deriveDepths_of_visits hn h)

/-- DERIVE raises what the visit of the root's left child raises. -/
theorem exec_derive_of_left_raises {s : State} {l r : NodeIdx} {c : ErrorCause}
    (hs : s.state = .idle) (hn : s.node[(0 : NodeIdx)] = .internal l r)
    (h : Visits s.node l 1 { Walk.start with visited := [0] } (.error c)) :
    exec .derive s = .next (raiseError (encode .derive) c s) :=
  exec_derive_of_visits_error hs hn (.leftRaises List.not_mem_nil hn h)

/-- After a left leaf, DERIVE raises what the visit of the root's right child raises. -/
theorem exec_derive_of_right_raises {s : State} {l r : NodeIdx} {sym : Symbol} {c : ErrorCause}
    (hs : s.state = .idle) (hn : s.node[(0 : NodeIdx)] = .internal l r) (hl : l ≠ 0)
    (hleaf : s.node[l] = .leaf sym)
    (h : Visits s.node r 1 ⟨[l, 0], [sym], Walk.start.depths.set sym 1⟩ (.error c)) :
    exec .derive s = .next (raiseError (encode .derive) c s) :=
  exec_derive_of_visits_error hs hn
    (.leftThenRight List.not_mem_nil hn (.leaf (by simp [Walk.start, hl]) hleaf List.not_mem_nil) h)

/-- Settles O31: DERIVE answers the outcome of `Visits`, which is unique, and each spelled-out defect is
an outcome of it. -/
theorem deriveRaisesTheFirstDefect : Obligations.DeriveRaisesTheFirstDefect := by
  intro s hs
  refine ⟨fun h => exec_derive_of_error hs (deriveDepths_of_not_internal h),
    fun l r hn => ⟨⟨_, visits_root s.node⟩, fun c h => exec_derive_of_visits_error hs hn h,
      fun k h => exec_derive_of_ok hs (deriveDepths_of_visits hn h)⟩,
    fun l r hn hl => ?_, fun l r hn hl he => ?_, fun l r a hn hl ha hr => ?_,
    fun l r a hn hl ha hr => ?_, fun l r a hn hl ha hr hrl he => ?_,
    fun l r a hn hl ha hr hrl he => ?_⟩
  · exact exec_derive_of_left_raises hs hn (by subst hl; exact .revisited (by simp))
  · exact exec_derive_of_left_raises hs hn (.empty (by simpa using hl) he)
  · exact exec_derive_of_right_raises hs hn hl ha (by subst hr; exact .revisited (by simp))
  · exact exec_derive_of_right_raises hs hn hl ha (by subst hr; exact .revisited (by simp))
  · exact exec_derive_of_right_raises hs hn hl ha (.empty (by simp [hr, hrl]) he)
  · exact exec_derive_of_right_raises hs hn hl ha (.duplicate (by simp [hr, hrl]) he (by simp))

/-! ### Unreachable arena entries (R185) -/

/-- The walk from a reachable node reads reachable entries only. -/
theorem visit_congr {node node' : Vector Node 513}
    (h : ∀ i, Reachable node i → node'[i] = node[i]) {fuel : Nat} {i : NodeIdx} {d : Nat} {k : Walk}
    (hi : Reachable node i) : visit node' fuel i d k = visit node fuel i d k := by
  induction fuel generalizing i d k with
  | zero => rfl
  | succ fuel ih =>
    by_cases hv : i ∈ k.visited
    · rw [visit_visited hv, visit_visited hv]
    rcases hn : node[i] with _ | sym | ⟨l, r⟩
    · rw [visit_empty hv hn, visit_empty hv ((h i hi).trans hn)]
    · rw [visit_leaf hv hn, visit_leaf hv ((h i hi).trans hn)]
    · rw [visit_internal hv hn, visit_internal hv ((h i hi).trans hn), ih (.left hi hn)]
      simp only [ih (.right hi hn)]

theorem deriveDepths_congr {node node' : Vector Node 513}
    (h : ∀ i, Reachable node i → node'[i] = node[i]) : deriveDepths node' = deriveDepths node := by
  have h0 : node'[Config.ROOT] = node[Config.ROOT] := h _ .root
  simp only [deriveDepths, h0, visit_congr h .root]

/-- Settles O32: outside IDLE DERIVE reads no arena, and in IDLE it reads reachable entries only. -/
theorem unreachableArenaEntriesHaveNoEffect : Obligations.UnreachableArenaEntriesHaveNoEffect := by
  intro s node h
  have hd : deriveDepths node = deriveDepths s.node := deriveDepths_congr h
  by_cases hi : s.state = .idle
  · rcases hr : deriveDepths s.node with c | depths
    · exact ⟨_, exec_derive_of_error hi hr,
        exec_derive_of_error (s := { s with node := node }) hi (hd.trans hr)⟩
    · exact ⟨_, exec_derive_of_ok hi hr,
        exec_derive_of_ok (s := { s with node := node }) hi (hd.trans hr)⟩
  by_cases he : s.state = .error
  · exact ⟨_, exec_of_error he _, exec_of_error (s := { s with node := node }) he _⟩
  · have hn : s.state ∉ acceptingStates .derive := by simpa [acceptingStates] using hi
    exact ⟨_, exec_of_not_mem hn he, exec_of_not_mem (s := { s with node := node }) hn he⟩

/-! ### BUILD and Kraft equality (R196) -/

/-- A table without a canonical tree misses Kraft equality. -/
theorem kraftSum_ne_one_of_error {len : Vector (BitVec 9) 257} {c : ErrorCause}
    (h : canonicalTree len = .error c) : kraftSum len ≠ 1 := by
  have hstart := (levelInv_start len).weight
  rw [← tailWeight_zero]
  rcases hb : buildLevels len (maxLength len) [] with c' | left
  · exact buildLevels_odd_weight hb hstart
  · intro h1
    have hw := buildLevels_weight hb hstart
    rw [h1] at hw
    obtain ⟨T, rfl⟩ := List.length_eq_one_iff.mp (by exact_mod_cast hw)
    simp [canonicalTree, hb] at h

/-- A canonical tree exists exactly on Kraft equality. -/
theorem canonicalTree_ok_iff {len : Vector (BitVec 9) 257} :
    (∃ T, canonicalTree len = .ok T) ↔ kraftSum len = 1 := by
  constructor
  · rintro ⟨T, hT⟩
    exact canonicalTree_kraftSum hT
  · intro h1
    rcases hT : canonicalTree len with c | T
    · exact absurd h1 (kraftSum_ne_one_of_error hT)
    · exact ⟨T, rfl⟩

/-- Settles O35: BUILD reaches READY where the canonical tree exists, and raises what its construction
raises elsewhere. -/
theorem buildSucceedsExactlyOnKraftEquality : Obligations.BuildSucceedsExactlyOnKraftEquality := by
  refine fun s hs => ⟨⟨fun ⟨t, h, ht⟩ => ?_, fun h1 => ?_⟩, fun h1 => ?_⟩
  · obtain ⟨T, hT, -⟩ := build_succeeded hs h ht
    exact canonicalTree_kraftSum hT
  · obtain ⟨T, hT⟩ := canonicalTree_ok_iff.mpr h1
    exact ⟨_, exec_build_of_ok hs hT, rfl⟩
  · rcases hT : canonicalTree s.len with c | T
    · refine ⟨c, exec_build_of_error hs hT, ?_⟩
      rcases canonicalTree_error hT with ⟨L, hc, -⟩ | ⟨left, hc, hne, -⟩
      · exact .inl ⟨L, hc⟩
      · exact .inr ⟨_, hc, hne⟩
    · exact absurd (canonicalTree_kraftSum hT) h1

/-- Settles O36, from the effect of BUILD on the canonical tree. -/
theorem buildReadsCodeOffTheCanonicalTree : Obligations.BuildReadsCodeOffTheCanonicalTree := by
  intro s hs h1
  obtain ⟨T, hT⟩ := canonicalTree_ok_iff.mpr h1
  exact ⟨_, T, exec_build_of_ok hs hT, hT, rfl, codeTable_getElem T⟩

/-! ### What a successful DERIVE guarantees (R184) -/

theorem root_mem_indices (a : ArenaTree) : a.root ∈ a.indices := by
  cases a <;> exact List.mem_cons_self

/-- The children of a node of a stored tree stay in the tree. -/
theorem children_mem_indices {node : Vector Node 513} {a : ArenaTree} (h : a.storedIn node)
    {i l r : NodeIdx} (hi : i ∈ a.indices) (hn : node[i] = .internal l r) :
    l ∈ a.indices ∧ r ∈ a.indices := by
  induction a with
  | leaf idx sym =>
    obtain rfl : i = idx := List.mem_singleton.mp hi
    exact nomatch hn.symm.trans h
  | node idx a b iha ihb =>
    obtain ⟨hidx, ha, hb⟩ := h
    simp only [ArenaTree.indices, List.mem_cons, List.mem_append] at hi ⊢
    rcases hi with rfl | hi | hi
    · rw [hidx] at hn
      obtain ⟨rfl, rfl⟩ := Node.internal.inj hn
      exact ⟨.inr (.inl (root_mem_indices a)), .inr (.inr (root_mem_indices b))⟩
    · obtain ⟨hl, hr⟩ := iha ha hi
      exact ⟨.inr (.inl hl), .inr (.inl hr)⟩
    · obtain ⟨hl, hr⟩ := ihb hb hi
      exact ⟨.inr (.inr hl), .inr (.inr hr)⟩

/-- Every node of a tree stored at a reachable node is reachable. -/
theorem reachable_of_mem_indices {node : Vector Node 513} {a : ArenaTree} (h : a.storedIn node)
    (hroot : Reachable node a.root) {i : NodeIdx} (hi : i ∈ a.indices) : Reachable node i := by
  induction a with
  | leaf idx sym =>
    obtain rfl : i = idx := List.mem_singleton.mp hi
    exact hroot
  | node idx l r ihl ihr =>
    obtain ⟨hidx, hl, hr⟩ := h
    simp only [ArenaTree.indices, List.mem_cons, List.mem_append] at hi
    rcases hi with rfl | hi | hi
    · exact hroot
    · exact ihl hl (.left hroot hidx) hi
    · exact ihr hr (.right hroot hidx) hi

/-- The reachable entries are the nodes of the tree (R184a). -/
theorem reachable_iff_mem_indices {node : Vector Node 513} {a : ArenaTree} (h : HoldsTree node a)
    (i : NodeIdx) : Reachable node i ↔ i ∈ a.indices := by
  have hroot : Reachable node a.root := h.atRoot ▸ .root
  refine ⟨fun hi => ?_, reachable_of_mem_indices h.stored hroot⟩
  induction hi with
  | root => exact h.atRoot ▸ root_mem_indices a
  | left _ hn ih => exact (children_mem_indices h.stored ih hn).1
  | right _ hn ih => exact (children_mem_indices h.stored ih hn).2

theorem le_leaf_depth (a : ArenaTree) {d : Nat} {e : Symbol × Nat} (he : e ∈ a.leaves d) :
    d ≤ e.2 := by
  induction a generalizing d with
  | leaf idx sym =>
    obtain rfl := List.mem_singleton.mp he
    exact le_rfl
  | node idx l r ihl ihr =>
    rcases List.mem_append.mp he with he | he
    · exact Nat.le_of_succ_le (ihl he)
    · exact Nat.le_of_succ_le (ihr he)

/-- No leaf of a proper tree is at depth 0, its root being internal. -/
theorem leaf_depth_pos {node : Vector Node 513} {a : ArenaTree} (h : HoldsTree node a)
    {e : Symbol × Nat} (he : e ∈ a.leaves 0) : 0 < e.2 := by
  obtain ⟨l, r, rfl, -⟩ := holdsTree_root h
  rcases List.mem_append.mp he with he | he
  · exact le_leaf_depth l he
  · exact le_leaf_depth r he

/-- Exactly the symbols of the leaves of a proper tree are in use. -/
theorem length_ne_zero_iff {node : Vector Node 513} {a : ArenaTree} {len : Vector (BitVec 9) 257}
    (h : HoldsTree node a) (ht : DepthTable a len) (sym : Symbol) :
    len[sym] ≠ 0 ↔ sym ∈ symbolsOf a := by
  refine ⟨fun h0 => by_contra fun hm => h0 (ht.rest sym hm), fun hm h0 => ?_⟩
  obtain ⟨d, hd⟩ := mem_symbolsOf.mp hm
  have hpos : 0 < d := leaf_depth_pos h hd
  have hlen : len[sym].toNat = d := ht.leaf sym d hd
  rw [h0] at hlen
  exact hpos.ne hlen

/-- The depths of a proper tree satisfy Kraft equality: its leaves weigh what its root weighs (R184d). -/
theorem kraftSum_of_depthTable {node : Vector Node 513} {a : ArenaTree} {len : Vector (BitVec 9) 257}
    (h : HoldsTree node a) (ht : DepthTable a len) : kraftSum len = 1 := by
  calc kraftSum len
      = (allSymbols.map fun sym => if len[sym] = 0 then (0 : ℚ) else 1 / 2 ^ len[sym].toNat).sum := by
        rw [kraftSum, lenEntries_eq, List.map_map]
        rfl
    _ = ∑ sym : Symbol, if len[sym] = 0 then (0 : ℚ) else 1 / 2 ^ len[sym].toNat := by
        rw [allSymbols, ← List.ofFn_eq_map, List.sum_ofFn]
    _ = ∑ sym : Symbol, if sym ∈ (symbolsOf a).toFinset then (1 / 2 ^ len[sym].toNat : ℚ) else 0 := by
        refine Finset.sum_congr rfl fun sym _ => ?_
        simp only [List.mem_toFinset, ← length_ne_zero_iff h ht, ite_not]
    _ = ∑ sym ∈ (symbolsOf a).toFinset, (1 / 2 ^ len[sym].toNat : ℚ) := by
        rw [Finset.sum_ite_mem, Finset.univ_inter]
    _ = ((symbolsOf a).map fun sym : Symbol => (1 / 2 ^ len[sym].toNat : ℚ)).sum :=
        List.sum_toFinset (fun sym : Symbol => (1 / 2 ^ len[sym].toNat : ℚ)) h.distinctSymbols
    _ = ((a.leaves 0).map fun e => (1 / 2 ^ e.2 : ℚ)).sum := by
        rw [symbolsOf, List.map_map]
        refine congrArg List.sum (List.map_congr_left fun e he => ?_)
        simp only [Function.comp_apply, ht.leaf e.1 e.2 he]
    _ = 1 := by simpa using leaves_weight a 0

/-- A proper tree has two symbols at least (R184e). -/
theorem exists_distinct_symbols {node : Vector Node 513} {a : ArenaTree} (h : HoldsTree node a) :
    ∃ x y, x ≠ y ∧ x ∈ symbolsOf a ∧ y ∈ symbolsOf a := by
  have hcount : 1 < (symbolsOf a).length := by
    have := (tree_counts a).2
    have := h.internal
    omega
  have hnodup : (symbolsOf a).Nodup := h.distinctSymbols
  exact ⟨(symbolsOf a)[0], (symbolsOf a)[1], by simp [hnodup.getElem_inj_iff], by simp, by simp⟩

/-- Settles O33: DERIVE succeeds on a proper tree only, and its depth table has Kraft sum 1. -/
theorem derivedLengthsFormACompleteCode : Obligations.DerivedLengthsFormACompleteCode := by
  intro s t hs h hne
  obtain ⟨depths, hd, rfl⟩ := derive_succeeded hs h hne
  obtain ⟨a, ha⟩ := holdsTree_of_deriveDepths hd
  have ht : DepthTable a (toLengths depths) := by
    obtain ⟨depths', hd', ht⟩ := depthTable_of_holdsTree ha
    rwa [Except.ok.inj (hd.symm.trans hd')]
  have hkraft := kraftSum_of_depthTable ha ht
  refine ⟨⟨a, ha, ?_, internals_le ha.noSharing, fun e he => ?_, reachable_iff_mem_indices ha⟩,
    fun sym => ?_, hkraft, ?_, ?_⟩
  · simpa using List.Nodup.length_le_card ha.distinctSymbols
  · exact ⟨leaf_depth_le_256 ha he, ht.leaf e.1 e.2 he⟩
  · by_cases hm : sym ∈ symbolsOf a
    · obtain ⟨d, he⟩ := mem_symbolsOf.mp hm
      exact (ht.leaf sym d he).trans_le (leaf_depth_le_256 ha he)
    · simp [ht.rest sym hm]
  · obtain ⟨T, hT⟩ := canonicalTree_ok_iff.mpr hkraft
    exact ⟨_, exec_build_of_ok hs hT, rfl⟩
  · obtain ⟨x, y, hxy, hx, hy⟩ := exists_distinct_symbols ha
    exact ⟨x, y, hxy, (length_ne_zero_iff ha ht x).mpr hx, (length_ne_zero_iff ha ht y).mpr hy⟩

/-! ### The leaves of the canonical tree (R191, R198) -/

/-- The path to a symbol's leaf is as long as the leaf is deep. -/
theorem mem_leaves_of_path {a : ArenaTree} {sym : Symbol} {p : Bits} (h : path a.shape sym = some p)
    (d : Nat) : (sym, d + p.length) ∈ a.leaves d := by
  induction a generalizing d p with
  | leaf idx t =>
    simp only [ArenaTree.shape, path_leaf] at h
    split at h
    · next ht =>
      cases h
      simp [ArenaTree.leaves, ht]
    · cases h
  | node idx l r ihl ihr =>
    simp only [ArenaTree.shape, path] at h
    split at h
    · next q hq =>
      cases h
      exact List.mem_append_left _ (Nat.succ_add_eq_add_succ d q.length ▸ ihl hq (d + 1))
    · obtain ⟨q, hq, rfl⟩ := Option.map_eq_some_iff.mp h
      exact List.mem_append_right _ (Nat.succ_add_eq_add_succ d q.length ▸ ihr hq (d + 1))

/-- A symbol with a leaf has a path. -/
theorem path_ne_none_of_mem {a : ArenaTree} {sym : Symbol} (h : sym ∈ symbolsOf a) :
    path a.shape sym ≠ none := by
  induction a with
  | leaf idx t =>
    rw [symbolsOf_leaf, List.mem_singleton] at h
    simp [ArenaTree.shape, path_leaf, h]
  | node idx l r ihl ihr =>
    rw [symbolsOf_node, List.mem_append] at h
    simp only [ArenaTree.shape, path]
    split
    · simp
    · next hl => simpa using ihr (h.resolve_left fun hm => ihl hm hl)

/-- The number of leaves of a tree. -/
def leafCount : Tree → Nat
  | .leaf _ => 1
  | .node l r => leafCount l + leafCount r

theorem leafCount_pos (T : Tree) : 0 < leafCount T := by
  induction T with
  | leaf => exact Nat.one_pos
  | node l r ihl ihr => exact Nat.add_pos_left ihl _

/-- A path is shorter than the tree has leaves (R184c). -/
theorem path_length_lt_leafCount {T : Tree} {sym : Symbol} {p : Bits} (h : path T sym = some p) :
    p.length < leafCount T := by
  induction T generalizing p with
  | leaf t =>
    rw [path_leaf] at h
    split at h
    · cases h
      exact Nat.one_pos
    · cases h
  | node l r ihl ihr =>
    have hl := leafCount_pos l
    have hr := leafCount_pos r
    simp only [path] at h
    simp only [leafCount]
    split at h
    · next q hq =>
      cases h
      have := ihl hq
      simp only [List.length_cons]
      omega
    · obtain ⟨q, hq, rfl⟩ := Option.map_eq_some_iff.mp h
      have := ihr hq
      simp only [List.length_cons]
      omega

/-- Pairing an even list keeps every leaf. -/
theorem leafCount_pairUp : (l : List Tree) → l.length % 2 = 0 →
    ((pairUp l).map leafCount).sum = (l.map leafCount).sum
  | [], _ => rfl
  | [_], h => by simp at h
  | a :: b :: rest, h => by
    have ih := leafCount_pairUp rest (by simp only [List.length_cons] at h; omega)
    simp only [pairUp, List.map_cons, List.sum_cons, leafCount, ih]
    omega

theorem leafCount_leavesAt (len : Vector (BitVec 9) 257) (L : Nat) :
    ((leavesAt len L).map leafCount).sum = lengthCount len L := by
  have h1 : leafCount ∘ Tree.leaf = fun _ => 1 := rfl
  simp [leavesAt_eq, lengthCount, h1]

/-- The levels 1 to L add one leaf for each symbol of those lengths. -/
theorem leafCount_buildLevels {len : Vector (BitVec 9) 257} {L : Nat} {carried left : List Tree}
    (h : buildLevels len L carried = .ok left) :
    (left.map leafCount).sum =
      (carried.map leafCount).sum + ∑ j ∈ Finset.Ioc 0 L, lengthCount len j := by
  induction L generalizing carried with
  | zero =>
    cases h
    simp
  | succ L ih =>
    rcases Nat.mod_two_eq_zero_or_one (carried ++ leavesAt len (L + 1)).length with h2 | h2
    · rw [buildLevels_even h2] at h
      rw [ih h, leafCount_pairUp _ h2, List.map_append, List.sum_append, leafCount_leavesAt,
        Finset.sum_Ioc_succ_top (Nat.zero_le L)]
      omega
    · rw [buildLevels_odd h2] at h
      cases h

theorem lengthCount_eq_card (len : Vector (BitVec 9) 257) (L : Nat) :
    lengthCount len L = (Finset.univ.filter fun s : Symbol => len[s].toNat = L).card := by
  have hnodup : (allSymbols.filter fun s => len[s].toNat = L).Nodup := (List.nodup_finRange 257).filter _
  rw [lengthCount, ← List.toFinset_card_of_nodup hnodup]
  congr 1
  ext s
  simp [allSymbols]

/-- The length classes are disjoint, so together they hold the 257 symbols at most. -/
theorem sum_lengthCount_le (len : Vector (BitVec 9) 257) (L : Nat) :
    ∑ j ∈ Finset.Ioc 0 L, lengthCount len j ≤ 257 := by
  simp only [lengthCount_eq_card]
  rw [Finset.sum_card_fiberwise_eq_card_filter]
  exact (Finset.card_filter_le _ _).trans_eq (Finset.card_fin 257)

theorem leafCount_canonicalTree_le {len : Vector (BitVec 9) 257} {T : Tree}
    (h : canonicalTree len = .ok T) : leafCount T ≤ 257 := by
  have hsum := leafCount_buildLevels (canonicalTree_eq_ok h)
  have hle := sum_lengthCount_le len (maxLength len)
  simp only [List.map_cons, List.map_nil, List.sum_cons, List.sum_nil] at hsum
  omega

/-! ### The codes of a canonical tree (R193, R194) -/

/-- The code of a symbol in use: the path to its leaf, as long as the length, whose number is I_L plus the
symbol's rank (R194). -/
structure CanonicalCode (len : Vector (BitVec 9) 257) (T : Tree) (sym : Symbol) (p : Bits)
    (start : Nat) : Prop where
  onPath : path T sym = some p
  lengthEq : p.length = len[sym].toNat
  startEq : (start : ℚ) = 2 ^ len[sym].toNat * tailWeight len len[sym].toNat
  valueEq : bitsToNat p = start + rank len sym

theorem len_toNat_pos {len : Vector (BitVec 9) 257} {sym : Symbol} (h : len[sym] ≠ 0) :
    0 < len[sym].toNat :=
  Nat.pos_of_ne_zero fun h0 => h (BitVec.eq_of_toNat_eq h0)

theorem path_of_unused {len : Vector (BitVec 9) 257} {T : Tree} (h : canonicalTree len = .ok T)
    {sym : Symbol} (h0 : len[sym] = 0) : path T sym = none :=
  (canonicalTree_levelInv h).shallow sym (by rw [h0]; rfl) T List.mem_cons_self

/-- The loop's invariant at level 0, where the one tree left is the canonical tree. -/
theorem exists_canonicalCode {len : Vector (BitVec 9) 257} {T : Tree} (h : canonicalTree len = .ok T)
    {sym : Symbol} (h0 : len[sym] ≠ 0) : ∃ p start, CanonicalCode len T sym p start := by
  obtain ⟨i, p, hleaf, hlen, start, hstart, hvalue⟩ :=
    (canonicalTree_levelInv h).deep sym (len_toNat_pos h0)
  obtain ⟨t, ht, hpath⟩ := hleaf.get
  obtain ⟨hi, ht'⟩ := List.getElem?_eq_some_iff.mp ht
  obtain rfl : i = 0 := by simpa using hi
  obtain rfl : T = t := ht'
  exact ⟨p, start, hpath, hlen, hstart, by simpa using hvalue⟩

theorem codeTable_of_canonicalCode {len : Vector (BitVec 9) 257} {T : Tree} {sym : Symbol} {p : Bits}
    {start : Nat} (h : CanonicalCode len T sym p start) : (codeTable T)[sym] = p := by
  rw [codeTable_getElem, h.onPath, Option.getD_some]

/-- A canonical tree has no room for a length above 256 (R197). -/
theorem length_le_of_canonicalTree {len : Vector (BitVec 9) 257} {T : Tree}
    (h : canonicalTree len = .ok T) (sym : Symbol) : len[sym].toNat ≤ 256 := by
  by_cases h0 : len[sym] = 0
  · simp [h0]
  · obtain ⟨p, start, hp⟩ := exists_canonicalCode h h0
    have hlt := path_length_lt_leafCount hp.onPath
    have hle := leafCount_canonicalTree_le h
    rw [hp.lengthEq] at hlt
    omega

/-- Settles O40: a canonical tree has 257 leaves at most, so no path in it is longer than 256. -/
theorem lengthsAbove256FailBuild : Obligations.LengthsAbove256FailBuild := by
  refine ⟨fun s sym hs hlong => ?_, fun s t hs h ht sym => ?_⟩
  · rcases hT : canonicalTree s.len with c | T
    · refine ⟨c, exec_build_of_error hs hT, ?_⟩
      rcases canonicalTree_error hT with ⟨L, hc, -⟩ | ⟨left, hc, -⟩
      · exact .inl ⟨L, hc⟩
      · exact .inr ⟨_, hc⟩
    · exact absurd (length_le_of_canonicalTree hT sym) (Nat.not_le_of_lt hlong)
  · obtain ⟨T, hT, rfl⟩ := build_succeeded hs h ht
    exact (codeTable_length hT sym).trans_le (length_le_of_canonicalTree hT sym)

/-- LEN is the depth table of any layout of its canonical tree (R198). -/
theorem depthTable_of_canonicalTree {a : ArenaTree} {len : Vector (BitVec 9) 257}
    (h : canonicalTree len = .ok a.shape) (hd : ((a.leaves 0).map Prod.fst).Nodup) :
    DepthTable a len := by
  refine ⟨fun sym d he => ?_, fun sym hm => ?_⟩
  · have h0 : len[sym] ≠ 0 := fun h0 =>
      path_ne_none_of_mem (mem_symbolsOf.mpr ⟨d, he⟩) (path_of_unused h h0)
    obtain ⟨p, start, hp⟩ := exists_canonicalCode h h0
    have hmem := mem_leaves_of_path hp.onPath 0
    have heq := List.inj_on_of_nodup_map hd hmem he rfl
    rw [← hp.lengthEq]
    simpa using congrArg Prod.snd heq
  · by_contra h0
    obtain ⟨p, start, hp⟩ := exists_canonicalCode h h0
    exact hm (mem_symbolsOf.mpr ⟨_, mem_leaves_of_path hp.onPath 0⟩)

/-- Settles O37: the path to a symbol has the symbol's length, and LEN is the depth table of the canonical
tree, which is unique. -/
theorem canonicalDepthsEqualTheLengths : Obligations.CanonicalDepthsEqualTheLengths := by
  intro s t hs h ht
  obtain ⟨T, hT, rfl⟩ := build_succeeded hs h ht
  refine ⟨T, rfl, fun sym h0 => ?_, codeTable_length hT, fun node a ha hshape => ?_⟩
  · obtain ⟨p, start, hp⟩ := exists_canonicalCode hT h0
    exact ⟨p, hp.onPath, hp.lengthEq⟩
  · subst hshape
    obtain ⟨depths, hd, ht⟩ := depthTable_of_holdsTree ha
    rw [hd, ← depthTable_unique (fun _ => Iff.rfl) ht (depthTable_of_canonicalTree hT ha.distinctSymbols)]
    rfl

/-! ### The closed form (R194) -/

/-- No entry holds a length above 511. -/
theorem tailWeight_eq_zero (len : Vector (BitVec 9) 257) {L : Nat} (h : 511 ≤ L) :
    tailWeight len L = 0 := by
  refine List.sum_eq_zero fun x hx => ?_
  obtain ⟨e, -, rfl⟩ := List.mem_map.mp hx
  exact if_neg (by have := e.2.isLt; omega)

theorem leavesAt_length (len : Vector (BitVec 9) 257) (L : Nat) :
    (leavesAt len L).length = lengthCount len L := by
  rw [leavesAt_eq, List.length_map]
  rfl

/-- The levels up to n add up to the weight between L and n. -/
theorem sum_levels (len : Vector (BitVec 9) 257) (L n : Nat) :
    ((List.range (n + 1)).map fun j =>
      if L < j then (lengthCount len j : ℚ) * (2 ^ L / 2 ^ j) else 0).sum =
      2 ^ L * (tailWeight len L - tailWeight len (max L n)) := by
  induction n with
  | zero => simp
  | succ n ih =>
    rw [List.range_succ, List.map_append, List.sum_append, ih, List.map_singleton, List.sum_singleton]
    rcases Nat.lt_or_ge L (n + 1) with h | h
    · rw [if_pos h, max_eq_right (Nat.le_of_lt_succ h), max_eq_right h.le, tailWeight_eq len n,
        leavesAt_length]
      ring
    · rw [if_neg (Nat.not_lt.mpr h), max_eq_left (by omega), max_eq_left h]
      ring

/-- I_L is the weight of the longer symbols, in nodes of depth L (R194). -/
theorem startCode_eq (len : Vector (BitVec 9) 257) (L : Nat) :
    startCode len L = 2 ^ L * tailWeight len L := by
  rw [startCode, sum_levels, tailWeight_eq_zero len (le_max_right L 511), sub_zero]

/-- Settles O38: the number of the code is I_L plus the rank, and a code is the code of its number. -/
theorem codeIsStartCodePlusRank : Obligations.CodeIsStartCodePlusRank := by
  intro s t hs h ht sym h0
  obtain ⟨T, hT, rfl⟩ := build_succeeded hs h ht
  obtain ⟨p, start, hp⟩ := exists_canonicalCode hT h0
  have hcode : (codeTable T)[sym] = p := codeTable_of_canonicalCode hp
  refine ⟨start, hp.startEq.trans (startCode_eq _ _).symm, ?_, ?_⟩
  · rw [← hp.valueEq, ← hp.lengthEq]
    exact bitsToNat_lt p
  · rw [← hp.valueEq, ← hp.lengthEq, readAsCode_bitsToNat]
    exact hcode

/-! ### Order and prefixes (R199) -/

/-- Within a length class the rank increases with the symbol. -/
theorem rank_lt_rank {len : Vector (BitVec 9) 257} {a b : Symbol} (hl : len[a] = len[b]) (hab : a < b) :
    rank len a < rank len b := by
  have hsub : (allSymbols.filter fun t => t < a ∧ len[t] = len[a]).Sublist
      (allSymbols.filter fun t => t < b ∧ len[t] = len[b]) :=
    List.monotone_filter_right _ fun t ht => by
      simp only [decide_eq_true_eq] at ht ⊢
      exact ⟨ht.1.trans hab, ht.2.trans hl⟩
  refine lt_of_not_ge fun hge => ?_
  have hmem : a ∈ allSymbols.filter fun t => t < b ∧ len[t] = len[b] := by
    simpa [allSymbols] using ⟨hab, hl⟩
  rw [← hsub.eq_of_length_le hge] at hmem
  simp at hmem

theorem rank_lt_lengthCount (len : Vector (BitVec 9) 257) (sym : Symbol) :
    rank len sym < lengthCount len len[sym].toNat :=
  (List.getElem?_eq_some_iff.mp (class_getElem_rank len sym)).1

theorem bitsToNat_append (p q : Bits) :
    bitsToNat (p ++ q) = bitsToNat p * 2 ^ q.length + bitsToNat q := by
  induction p with
  | nil => simp
  | cons b p ih =>
    rw [List.cons_append, bitsToNat_cons, bitsToNat_cons, ih, List.length_append, pow_add]
    ring

theorem tailWeight_antitone (len : Vector (BitVec 9) 257) : Antitone (tailWeight len) := by
  refine antitone_nat_of_succ_le fun L => ?_
  rw [tailWeight_eq len L]
  exact le_add_of_nonneg_right (by positivity)

/-- A code's number is below the weight of its class and the longer ones, in nodes of its depth. -/
theorem bitsToNat_lt_tailWeight {len : Vector (BitVec 9) 257} {T : Tree} {sym : Symbol} {p : Bits} {start L : Nat}
    (h : CanonicalCode len T sym p start) (hL : L < len[sym].toNat) :
    (bitsToNat p : ℚ) < 2 ^ len[sym].toNat * tailWeight len L := by
  obtain ⟨n, hn⟩ : ∃ n, len[sym].toNat = n + 1 := ⟨len[sym].toNat - 1, by omega⟩
  have hrank : (rank len sym : ℚ) < lengthCount len (n + 1) := by
    exact_mod_cast hn ▸ rank_lt_lengthCount len sym
  have hstart := h.startEq
  rw [hn] at hL hstart ⊢
  calc (bitsToNat p : ℚ)
      = start + rank len sym := by rw [h.valueEq]; push_cast; rfl
    _ < start + lengthCount len (n + 1) := by linarith
    _ = 2 ^ (n + 1) * tailWeight len n := by
        rw [hstart, tailWeight_eq len n, leavesAt_length]
        field_simp
    _ ≤ 2 ^ (n + 1) * tailWeight len L :=
        mul_le_mul_of_nonneg_left (tailWeight_antitone len (Nat.le_of_lt_succ hL)) (by positivity)

/-- A code is greater than the first bits of every longer code (R199c). -/
theorem bitsToNat_take_lt {len : Vector (BitVec 9) 257} {T : Tree} {a b : Symbol} {p q : Bits} {x y : Nat}
    (ha : CanonicalCode len T a p x) (hb : CanonicalCode len T b q y)
    (hl : len[a].toNat < len[b].toNat) : bitsToNat (q.take len[a].toNat) < bitsToNat p := by
  obtain ⟨n, hn⟩ : ∃ n, len[b].toNat = len[a].toNat + n := ⟨_, (Nat.add_sub_of_le hl.le).symm⟩
  have hdrop : (q.drop len[a].toNat).length = n := by
    rw [List.length_drop, hb.lengthEq, hn, Nat.add_sub_cancel_left]
  have hq : bitsToNat q < x * 2 ^ n := by
    have hlt := bitsToNat_lt_tailWeight hb hl
    rw [hn, pow_add, mul_right_comm, ← ha.startEq] at hlt
    exact_mod_cast hlt
  have hle : bitsToNat (q.take len[a].toNat) * 2 ^ n ≤ bitsToNat q := by
    conv_rhs => rw [← List.take_append_drop len[a].toNat q, bitsToNat_append, hdrop]
    exact Nat.le_add_right _ _
  calc bitsToNat (q.take len[a].toNat)
      < x := Nat.lt_of_mul_lt_mul_right (hle.trans_lt hq)
    _ ≤ bitsToNat p := ha.valueEq ▸ Nat.le_add_right _ _

/-- A symbol whose path starts another's is that symbol: bits lead from the root to one leaf only (R199a). -/
theorem eq_of_path_isPrefix {T : Tree} {a b : Symbol} {p q : Bits} (ha : path T a = some p)
    (hb : path T b = some q) (h : p <+: q) : a = b := by
  obtain ⟨r, rfl⟩ := h
  have hab : some (a, r) = some (b, []) := by
    rw [← descend_path ha, ← descend_path hb, List.append_nil]
  exact congrArg Prod.fst (Option.some.inj hab)

/-- Settles O39, from the paths of two codes (`eq_of_path_isPrefix`), the order of ranks and the weight of the
longer codes (`bitsToNat_take_lt`). -/
theorem codeIsPrefixFreeAndOrdered : Obligations.CodeIsPrefixFreeAndOrdered := by
  intro s t hs h ht a b ha0 hb0
  obtain ⟨T, hT, rfl⟩ := build_succeeded hs h ht
  obtain ⟨p, x, ha⟩ := exists_canonicalCode hT ha0
  obtain ⟨q, y, hb⟩ := exists_canonicalCode hT hb0
  simp only [codeTable_of_canonicalCode ha, codeTable_of_canonicalCode hb]
  refine ⟨fun hab hpre => hab (eq_of_path_isPrefix ha.onPath hb.onPath hpre), fun hl hab => ?_,
    bitsToNat_take_lt ha hb⟩
  have hxy : x = y := by
    have hx := ha.startEq
    rw [hl, ← hb.startEq] at hx
    exact_mod_cast hx
  rw [ha.valueEq, hb.valueEq, hxy]
  exact Nat.add_lt_add_left (rank_lt_rank hl hab) y

end Sys2Proof.Machine

/-! ## Family 42_bitwriter: the bitpacker's primitives, where each bit lies, and WRBIT -/

namespace Sys2Proof.Machine

open Sys2Proof.Safety

/-! ### The partial byte as a number (R222, R226) -/

/-- BITCNT below 7 counts one bit more without a wrap. -/
theorem bitcnt_add_one_toNat {s : State} (h : s.bitcnt.toNat < 7) :
    (s.bitcnt + 1).toNat = s.bitcnt.toNat + 1 :=
  BitVec.toNat_add_of_lt (show s.bitcnt.toNat + 1 < 8 by omega)

/-- Shifting a bit in doubles the accumulator and adds the bit, as long as bit 7 is clear. -/
theorem shiftIn_toNat {acc : Byte} (h : acc.toNat < 2 ^ 7) (b : Bool) :
    (shiftIn acc b).toNat = 2 * acc.toNat + b.toNat := by
  have hs : (acc <<< 1).toNat = 2 ^ 1 * acc.toNat := by
    rw [BitVec.toNat_shiftLeft, Nat.shiftLeft_eq]
    omega
  have hb : ((BitVec.ofBool b).setWidth 8).toNat = b.toNat := by cases b <;> rfl
  rw [shiftIn, BitVec.toNat_or, hs, hb, ← Nat.two_pow_add_eq_or_of_lt b.toNat_lt, pow_one]

/-- The bits of the partial byte are the code of ACC on BITCNT bits. -/
theorem pendingBits_eq_readAsCode (s : State) :
    pendingBits s = readAsCode (BitVec.ofNat s.bitcnt.toNat s.acc.toNat) :=
  (readAsCode_ofNat _ _).symm

theorem bitsToNat_pendingBits {s : State} (h : s.acc.toNat < 2 ^ s.bitcnt.toNat) :
    bitsToNat (pendingBits s) = s.acc.toNat := by
  rw [pendingBits_eq_readAsCode, bitsToNat_readAsCode, BitVec.toNat_ofNat, Nat.mod_eq_of_lt h]

/-! ### EmitByte, PutBit and CloseStream (R221, R222, R224) -/

/-- Settles O41. -/
theorem emitByteAppendsAndCounts : Obligations.EmitByteAppendsAndCounts := fun s x =>
  ⟨emitByte s x, rfl, emitByte_out s x, BitVec.toNat_add s.outcnt 1, rfl⟩

/-- Settles O42, from the two forms of PutBit and the value of the accumulator shifted. -/
theorem theEighthBitEmitsTheByte : Obligations.TheEighthBitEmitsTheByte := by
  refine fun s b hacc => ⟨fun h => ?_, fun h => ?_⟩
  · have h7 : s.acc.toNat < 2 ^ 7 := hacc.trans_le (Nat.pow_le_pow_right (by decide) h.le)
    exact ⟨_, putBit_partial b h, shiftIn_toNat h7 b, bitcnt_add_one_toNat h, rfl⟩
  · exact ⟨shiftIn s.acc b, shiftIn_toNat (h ▸ hacc) b, putBit_full b h⟩

theorem closeStream_of_aligned {s : State} (h : s.bitcnt = 0) : closeStream s = s := by
  simp [closeStream, h]

theorem closeStream_of_partial {s : State} (h : s.bitcnt ≠ 0) :
    closeStream s = { emitByte s (s.acc <<< (8 - s.bitcnt.toNat)) with acc := 0, bitcnt := 0 } :=
  if_pos (Nat.pos_of_ne_zero fun h0 => h (BitVec.eq_of_toNat_eq h0))

/-- Settles O43, from `closeStream_eq_putBits` and CloseStream's two cases. -/
theorem closeStreamPadsWithZeroBits : Obligations.CloseStreamPadsWithZeroBits := by
  refine fun s => ⟨closeStream_eq_putBits s, closeStream_bitcnt s, closeStream_of_aligned, fun h => ?_⟩
  rw [closeStream_of_partial h]
  exact ⟨rfl, rfl⟩

/-! ### Where each bit of the stream lies (R225, R226) -/

theorem bitStream_of_aligned {s : State} (h : s.bitcnt = 0) : bitStream s = unpack s.out := by
  simp [bitStream, pendingBits, h]

/-- An empty bitpacker has been passed no bit. -/
theorem bitStream_of_empty {s : State} (hout : s.out = []) (hcnt : s.bitcnt = 0) : bitStream s = [] := by
  rw [bitStream_of_aligned hcnt, hout, unpack_nil]

/-- The partial byte is the stream without its whole bytes. -/
theorem pendingBits_eq_drop (s : State) : pendingBits s = (bitStream s).drop (8 * s.out.length) := by
  rw [bitStream, ← unpack_length, List.drop_left]

/-- Every bit of a whole byte is the stream's bit at its place, bit 7 first (R225). -/
theorem out_getLsbD {s : State} {k : Nat} (h : k < 8 * s.out.length) :
    (s.out.getD (k / 8) 0).getLsbD (7 - k % 8) = (bitStream s).getD k false := by
  rw [← unpack_getD, bitStream, List.getD_append _ _ _ _ (by rwa [unpack_length])]

/-- Every bit of the packed bytes is the sequence's bit at its place, and zero after the last. -/
theorem pack_getLsbD (p : Bits) (k : Nat) :
    ((pack p).getD (k / 8) 0).getLsbD (7 - k % 8) = p.getD k false := by
  rw [← unpack_getD, unpack_pack]
  rcases Nat.lt_or_ge k p.length with h | h
  · exact List.getD_append _ _ _ _ h
  · rw [List.getD_append_right _ _ _ _ h, List.getD_eq_default _ _ h, List.getD_eq_getElem?_getD,
      List.getElem?_getD_replicate_default_eq]

/-- CloseStream leaves the packing of every bit passed (R226). -/
theorem closeStream_out (s : State) : (closeStream s).out = pack (bitStream s) := by
  apply unpack_injective
  have hmod : (bitStream s).length % 8 = s.bitcnt.toNat := by
    have := bitcnt_lt s
    rw [bitStream_length]
    omega
  rw [← bitStream_of_aligned (closeStream_bitcnt s), (closeStream_appends s).stream, unpack_pack, hmod]

/-- Settles O44: the stream of an empty bitpacker after `p` is `p` (`putBits_appends`, by induction over the
bits), and each clause reads `out`, BITCNT or ACC off the stream. -/
theorem bitsArePackedMostSignificantFirst : Obligations.BitsArePackedMostSignificantFirst := by
  intro s p hout hcnt hacc
  have happ := putBits_appends s p
  have hstream : bitStream (putBits s p) = p := by
    rw [happ.stream, bitStream_of_empty hout hcnt, List.nil_append]
  have hpartial : (putBits s p).acc.toNat < 2 ^ (putBits s p).bitcnt.toNat :=
    happ.partialByte (by simp [hacc, hcnt])
  obtain ⟨hlen, hbits⟩ := appends_lengths happ
  simp only [hout, hcnt, List.length_nil, show (0 : BitVec 3).toNat = 0 from rfl, Nat.zero_add] at hlen hbits
  refine ⟨hlen, hbits, ?_, ?_, pack_length p, fun k _ => pack_getLsbD p k, fun k hk => ?_⟩
  · rw [← bitsToNat_pendingBits hpartial, pendingBits_eq_drop, hstream, hlen]
  · rw [closeStream_out, hstream]
  · rw [out_getLsbD (by rwa [hlen]), hstream]

/-! ### WRBIT (R230) -/

theorem accepts_wrbit (v : Byte) {s : State} (hs : s.state = .ready ∨ s.state = .stream) :
    accepts (.wrbit v) s.state = .performs :=
  accepts_eq_performs_iff.mpr (by simpa [acceptingStates] using hs)

/-- Settles O45: the value is checked, and a bit goes to PutBit (`putBit_appends`). -/
theorem wrbitAppendsOneBit : Obligations.WrbitAppendsOneBit := by
  refine fun s v hs => ⟨fun hv => ⟨putBit s (v == 1), ?_, putBit_appends s _⟩, fun hv => ?_⟩
  · exact exec_completes (accepts_wrbit v hs) (by rw [effectOf, bitOperand_eq_ok hv]; rfl)
  · exact exec_raises (accepts_wrbit v hs) (by rw [effectOf, bitOperand_eq_error hv]; rfl)

end Sys2Proof.Machine

/-! ## Family 43_encoder: HEADER, BYTE and FINISH, the transitions of STATE, and the completed stream -/

namespace Sys2Proof.Machine

open Sys2Proof.Safety

/-! ### Rules of the operations the encoder uses -/

theorem tablesOf_putBits (s : State) (p : Bits) : tablesOf (putBits s p) = tablesOf s :=
  appends_tablesOf (putBits_appends s p)

@[simp] theorem putBits_len (s : State) (p : Bits) : (putBits s p).len = s.len :=
  (tablesOf_eq_iff.mp (tablesOf_putBits s p)).1

@[simp] theorem putBits_code (s : State) (p : Bits) : (putBits s p).code = s.code :=
  (tablesOf_eq_iff.mp (tablesOf_putBits s p)).2.2.1

theorem codeOf_of_ne_zero {s : State} {sym : Symbol} (h : s.len[sym] ≠ 0) :
    codeOf s sym = .ok s.code[sym] := if_neg h

theorem codeOf_of_eq_zero {s : State} {sym : Symbol} (h : s.len[sym] = 0) :
    codeOf s sym = .error (.noCode sym) := if_pos h

/-- An accumulator with no pending bit is empty. -/
theorem acc_eq_zero_of_aligned {s : State} (h : s.acc.toNat < 2 ^ s.bitcnt.toNat) (h0 : s.bitcnt = 0) :
    s.acc = 0 :=
  BitVec.eq_of_toNat_eq (Nat.lt_one_iff.mp (by simpa [h0] using h))

/-! ### BYTE and FINISH (R245, R250) -/

theorem accepts_byte (b : Byte) {s : State} (hs : s.state = .stream) :
    accepts (.byte b) s.state = .performs := by rw [hs]; rfl

theorem accepts_finish {s : State} (hs : s.state = .stream) :
    accepts .finish s.state = .performs := by rw [hs]; rfl

theorem exec_byte {s : State} {b : Byte} (hs : s.state = .stream) (h : s.len[byteSymbol b] ≠ 0) :
    exec (.byte b) s = .next (putBits s s.code[byteSymbol b]) :=
  exec_completes (accepts_byte b hs) (by rw [effectOf, codeOf_of_ne_zero h]; rfl)

theorem exec_finish {s : State} (hs : s.state = .stream) (h : s.len[Config.EOS] ≠ 0) :
    exec .finish s =
      .next { closeStream (putBits s s.code[Config.EOS]) with state := .done } :=
  exec_completes (accepts_finish hs) (by rw [effectOf, codeOf_of_ne_zero h]; rfl)

/-- Settles O49, on either side of the check for a code. -/
theorem byteAppendsItsCode : Obligations.ByteAppendsItsCode := by
  refine fun s b hs => ⟨fun h => ⟨_, exec_byte hs h, putBits_appends s _⟩, fun h => ?_⟩
  exact exec_raises (accepts_byte b hs) (by rw [effectOf, codeOf_of_eq_zero h]; rfl)

/-- Settles O50: the code, then the zero bits of CloseStream (`closeStream_appends`), of which there are
fewer than eight; the stream is then aligned, so no bit is left in ACC. -/
theorem finishClosesTheStream : Obligations.FinishClosesTheStream := by
  refine fun s hs => ⟨fun h => ?_, fun h => ?_⟩
  · have happ := appends_trans (putBits_appends s s.code[Config.EOS]) (closeStream_appends _)
    exact ⟨_, _, exec_finish hs h, Nat.mod_lt _ (by decide), happ, closeStream_bitcnt _,
      fun hacc => acc_eq_zero_of_aligned (happ.partialByte hacc) (closeStream_bitcnt _)⟩
  · exact exec_raises (accepts_finish hs) (by rw [effectOf, codeOf_of_eq_zero h]; rfl)

/-! ### HEADER (R241) -/

theorem accepts_header {s : State} (hs : s.state = .ready) :
    accepts .header s.state = .performs := by rw [hs]; rfl

/-- HEADER without a long length writes every entry. -/
theorem exec_header {s : State} (hs : s.state = .ready) (h : ∀ sym : Symbol, s.len[sym].toNat < 256) :
    exec .header s = .next { putBits s (headerBits s.len) with state := .stream } := by
  have hloop : headerEntries (lenEntries s.len) s = .ok (putBits s (headerBits s.len)) :=
    headerEntries_eq_ok s fun e he => mem_lenEntries.mp he ▸ h e.1
  exact exec_completes (accepts_header hs) (by rw [effectOf, hloop]; rfl)

/-- The header's 2056 bits are 257 whole bytes, so BITCNT is as before. -/
theorem appends_headerBits_lengths {s t : State} {len : Vector (BitVec 9) 257}
    (h : Appends s (headerBits len) t) : t.out.length = s.out.length + 257 ∧ t.bitcnt = s.bitcnt := by
  obtain ⟨hout, hbit⟩ := appends_lengths h
  rw [headerBits_length] at hout hbit
  have hlt := bitcnt_lt s
  exact ⟨by omega, BitVec.eq_of_toNat_eq (by omega)⟩

/-- Settles O46: every entry is written, and 2056 bits keep BITCNT. -/
theorem headerWritesTheLengthTable : Obligations.HeaderWritesTheLengthTable := by
  intro s hs h
  have happ := putBits_appends s (headerBits s.len)
  obtain ⟨hout, hbit⟩ := appends_headerBits_lengths happ
  exact ⟨_, exec_header hs h, happ, hbit, hout⟩

/-- The entries before a symbol's, its own, and those after it. -/
theorem lenEntries_split (len : Vector (BitVec 9) 257) (sym : Symbol) :
    lenEntries len =
      (lenEntries len).take sym.val ++ (sym, len[sym]) :: (lenEntries len).drop (sym.val + 1) := by
  have hlt : sym.val < (lenEntries len).length := by rw [lenEntries_length]; exact sym.isLt
  have hget : (lenEntries len)[sym.val] = (sym, len[sym]) := by simp [lenEntries_eq, allSymbols]
  rw [← hget, ← List.drop_eq_getElem_cons hlt, List.take_append_drop]

/-- The entries before a symbol's are those of the smaller symbols. -/
theorem lt_of_mem_take_lenEntries {len : Vector (BitVec 9) 257} {n : Nat} {e : Symbol × BitVec 9}
    (h : e ∈ (lenEntries len).take n) : e.1.val < n := by
  rw [lenEntries_eq] at h
  obtain ⟨k, hk, rfl⟩ := List.mem_iff_getElem.mp h
  have hkn : k < n := by simp at hk; exact hk.1
  simpa [allSymbols] using hkn

/-- The entries before a symbol's take eight bits each. -/
theorem headerBits_take (len : Vector (BitVec 9) 257) (sym : Symbol) :
    (headerBits len).take (8 * sym.val) =
      ((lenEntries len).take sym.val).flatMap fun e => readAsCode (e.2.setWidth 8) := by
  have hlen : (((lenEntries len).take sym.val).flatMap fun e => readAsCode (e.2.setWidth 8)).length =
      8 * sym.val := by
    rw [flatMap_entry_length, List.length_take, lenEntries_length, min_eq_left sym.isLt.le]
  rw [headerBits, lenEntries_split len sym, List.flatMap_append, ← hlen, List.take_left,
    ← lenEntries_split len sym]

/-- Settles O47: HEADER's loop stops at the entry of the first long length (`headerEntries_eq_error`). -/
theorem headerStopsAtTheFirstLongLength : Obligations.HeaderStopsAtTheFirstLongLength := by
  intro s sym hs hlong hshort
  have hbefore : ∀ e ∈ (lenEntries s.len).take sym.val, e.2.toNat < 256 := fun e he => by
    rw [← mem_lenEntries.mp (List.mem_of_mem_take he)]
    exact hshort e.1 (lt_of_mem_take_lenEntries he)
  have hloop := headerEntries_eq_error (post := (lenEntries s.len).drop (sym.val + 1)) (sym := sym) s
    hbefore hlong
  rw [← lenEntries_split, ← headerBits_take] at hloop
  exact ⟨_, exec_raises (accepts_header hs) (by rw [effectOf, hloop]; rfl), putBits_appends s _⟩

/-! ### The header as bytes (R242) -/

/-- The header an aligned HEADER writes: one byte a symbol. -/
def headerBytes (len : Vector (BitVec 9) 257) : List Byte := (lenEntries len).map fun e => e.2.setWidth 8

theorem headerBits_eq_unpack (len : Vector (BitVec 9) 257) : headerBits len = unpack (headerBytes len) := by
  rw [unpack, headerBytes, List.flatMap_map]
  rfl

theorem headerBytes_length (len : Vector (BitVec 9) 257) : (headerBytes len).length = 257 := by
  rw [headerBytes, List.length_map, lenEntries_length]

/-- A length below 256 is kept by its header byte. -/
theorem headerBytes_getD {len : Vector (BitVec 9) 257} {sym : Symbol} (h : len[sym].toNat < 256) :
    ((headerBytes len).getD sym.val 0).toNat = len[sym].toNat := by
  have hlt : sym.val < (headerBytes len).length := by rw [headerBytes_length]; exact sym.isLt
  have hget : (headerBytes len)[sym.val] = len[sym].setWidth 8 := by
    simp [headerBytes, lenEntries_eq, allSymbols]
  rw [List.getD_eq_getElem _ _ hlt, hget, BitVec.toNat_setWidth, Nat.mod_eq_of_lt h]

/-- From an aligned bitpacker the header is appended as bytes. -/
theorem putBits_headerBits_out {s : State} (h : s.bitcnt = 0) :
    (putBits s (headerBits s.len)).out = s.out ++ headerBytes s.len := by
  have happ := putBits_appends s (headerBits s.len)
  have hbit : (putBits s (headerBits s.len)).bitcnt = 0 := (appends_headerBits_lengths happ).2.trans h
  apply unpack_injective
  rw [← bitStream_of_aligned hbit, happ.stream, bitStream_of_aligned h, unpack_append,
    headerBits_eq_unpack]

/-- Settles O48: an aligned HEADER appends `headerBytes`, and BUILD leaves the empty output of IDLE. -/
theorem alignedHeaderBytesAreTheLengths : Obligations.AlignedHeaderBytesAreTheLengths := by
  refine ⟨fun s hinv hs hbit h => ?_, fun s t hinv hs ht htr => ?_⟩
  · have happ := putBits_appends s (headerBits s.len)
    obtain ⟨hout, hbit'⟩ := appends_headerBits_lengths happ
    have hacc := acc_eq_zero_of_aligned (happ.partialByte hinv.partialByte) (hbit'.trans hbit)
    refine ⟨_, exec_header hs h, hout, hbit'.trans hbit, hacc, fun sym => ?_⟩
    change ((putBits s (headerBits s.len)).out.getD _ 0).toNat = _
    rw [putBits_headerBits_out hbit, List.getD_append_right _ _ _ _ (Nat.le_add_right _ _),
      Nat.add_sub_cancel_left, headerBytes_getD (h sym)]
  · obtain ⟨T, -, rfl⟩ := build_succeeded hs ht htr
    obtain ⟨hbit, hout⟩ := hinv.idleEmpty hs
    exact ⟨hbit, hout, rfl⟩

/-! ### The transitions of STATE (R262) -/

/-- A command that completes takes the transition of its rule, or none. -/
theorem completed_transition {i : Instr} {s t : State} (hs : s.state ∈ acceptingStates i)
    (h : Completed i s t) :
    t.state = s.state ∨ (i = .build ∧ s.state = .idle ∧ t.state = .ready) ∨
      (i = .header ∧ s.state = .ready ∧ t.state = .stream) ∨
      (i = .finish ∧ s.state = .stream ∧ t.state = .done) ∨ (i = .sreset ∧ t.state = .idle) := by
  cases i with
  | nop => exact .inl (congrArg State.state h)
  | sreset => exact .inr (.inr (.inr (.inr ⟨rfl, congrArg State.state h⟩)))
  | ldlen => obtain ⟨k, -, rfl⟩ := h; exact .inl rfl
  | ldleaf => obtain ⟨k, l, -, -, rfl⟩ := h; exact .inl rfl
  | ldint => obtain ⟨k, l, r, -, -, -, rfl⟩ := h; exact .inl rfl
  | derive => obtain ⟨d, -, rfl⟩ := h; exact .inl rfl
  | build => obtain ⟨T, -, rfl⟩ := h; exact .inr (.inl ⟨rfl, List.mem_singleton.mp hs, rfl⟩)
  | header => obtain ⟨u, -, rfl⟩ := h; exact .inr (.inr (.inl ⟨rfl, List.mem_singleton.mp hs, rfl⟩))
  | byte => obtain ⟨-, rfl⟩ := h; exact .inl (putBits_state _ _)
  | finish => obtain ⟨-, rfl⟩ := h; exact .inr (.inr (.inr (.inl ⟨rfl, List.mem_singleton.mp hs, rfl⟩)))
  | wrbit => obtain ⟨-, rfl⟩ := h; exact .inl (putBit_state _ _)

/-- A command is ignored in ERROR only (R152). -/
theorem eq_error_of_ignored {i : Instr} {c : Ctl} (h : accepts i c = .ignored) : c = .error := by
  by_contra hc
  by_cases hm : c ∈ acceptingStates i
  · exact nomatch (accepts_eq_performs_iff.mpr hm).symm.trans h
  · exact nomatch ((accepts_of_not_mem hm).trans (if_neg hc)).symm.trans h

/-- Outside ERROR a command completes in a state of its row, or enters ERROR. -/
theorem exec_completed_or_error {i : Instr} {s t : State} (hs : s.state ≠ .error)
    (h : exec i s = .next t) :
    (s.state ∈ acceptingStates i ∧ Completed i s t) ∨ t.state = .error := by
  rcases exec_cases h with ⟨ha, -⟩ | ⟨-, rfl⟩ | ⟨ha, hc⟩ | ⟨-, c, u, -, rfl⟩
  · exact absurd (eq_error_of_ignored ha) hs
  · exact .inr rfl
  · exact .inl ⟨accepts_eq_performs_iff.mp ha, hc⟩
  · exact .inr rfl

/-- No command changes the host's side or, but for SRESET, the count of delivered bytes. -/
theorem exec_keeps_host {i : Instr} {s t : State} (h : exec i s = .next t) :
    t.host = s.host ∧ (i ≠ .sreset → t.delivered = s.delivered) := by
  by_cases hr : i = .sreset
  · subst hr
    rw [exec_sreset] at h
    cases h
    exact ⟨rfl, fun hne => absurd rfl hne⟩
  · obtain ⟨p, u, ha, ho⟩ := exec_grows h hr
    obtain ⟨-, -, -, -, hdel, hhost⟩ := outputOf_eq_iff.mp ho
    exact ⟨hhost.trans (appends_host ha), fun _ => hdel.trans (appends_delivered ha)⟩

/-- In ERROR a command leaves STATE, or is SRESET. -/
theorem exec_transition_of_error {i : Instr} {s t : State} (hs : s.state = .error)
    (h : exec i s = .next t) : t.state = s.state ∨ (i = .sreset ∧ t.state = .idle) := by
  rw [exec_of_error hs] at h
  cases h
  split
  · next hi => exact .inr ⟨hi, rfl⟩
  · exact .inl rfl

/-- Settles O58: in ERROR only SRESET changes STATE, and elsewhere a command takes its transition
(`completed_transition`) or enters ERROR. -/
theorem stateChangesOnlyByTheTransitions : Obligations.StateChangesOnlyByTheTransitions := by
  refine fun i s t h => ⟨?_, exec_keeps_host h⟩
  by_cases hs : s.state = .error
  · exact (exec_transition_of_error hs h).imp_right fun ht => .inr (.inr (.inr (.inr ht)))
  · rcases exec_completed_or_error hs h with ⟨hm, hc⟩ | ht
    · exact (completed_transition hm hc).imp_right .inr
    · exact .inr (.inl ⟨hs, ht⟩)

/-! ### Packing whole bytes, and reading the header back (R240, R255) -/

theorem byteOfBits_readAsCode (x : Byte) : byteOfBits (readAsCode x) = x := by
  refine readAsCode_injective ?_
  rw [readAsCode_byteOfBits (by simp)]
  simp

/-- Whole bytes at the beginning of a sequence are packed as they are. -/
theorem pack_unpack_append (l : List Byte) (q : Bits) : pack (unpack l ++ q) = l ++ pack q := by
  induction l with
  | nil => rfl
  | cons x l ih =>
    have hu : unpack (x :: l) = readAsCode x ++ unpack l := rfl
    rw [hu, List.append_assoc, pack_cons (by simp), byteOfBits_readAsCode, ih, List.cons_append]

/-- A stream is the header bytes and the packed payload (R240). -/
theorem pack_headerBits_append (len : Vector (BitVec 9) 257) (q : Bits) :
    pack (headerBits len ++ q) = headerBytes len ++ pack q := by
  rw [headerBits_eq_unpack, pack_unpack_append]

/-- The decoder reads the length table back (R255). -/
theorem readHeader_headerBytes {len : Vector (BitVec 9) 257} (h : ∀ sym : Symbol, len[sym].toNat < 256)
    (rest : List Byte) : readHeader (headerBytes len ++ rest) = len := by
  have key : ∀ sym : Symbol, (readHeader (headerBytes len ++ rest))[sym] = len[sym] := fun sym => by
    have hlt : sym.val < (headerBytes len).length := by rw [headerBytes_length]; exact sym.isLt
    have hrow : (readHeader (headerBytes len ++ rest))[sym] =
        ((headerBytes len ++ rest).getD sym.val 0).setWidth 9 := by
      simp only [readHeader, Fin.getElem_fin, Vector.getElem_ofFn]
    rw [hrow, List.getD_append _ _ _ _ hlt]
    refine BitVec.eq_of_toNat_eq ?_
    rw [BitVec.toNat_setWidth, headerBytes_getD (h sym), Nat.mod_eq_of_lt len[sym].isLt]
  exact Vector.ext fun i hi => key ⟨i, hi⟩

/-! ### The payload (R240) and its decoding (R255) -/

theorem payloadBits_nil (code : Vector Bits 257) : payloadBits code [] = code[Config.EOS] := rfl

theorem payloadBits_cons (code : Vector Bits 257) (b : Byte) (data : List Byte) :
    payloadBits code (b :: data) = code[byteSymbol b] ++ payloadBits code data := by
  simp [payloadBits]

/-- The payload takes the lengths of its symbols (R253). -/
theorem payloadBits_length {len : Vector (BitVec 9) 257} {T : Tree} (h : canonicalTree len = .ok T)
    (data : List Byte) : (payloadBits (codeTable T) data).length =
      (data.map fun b => len[byteSymbol b].toNat).sum + len[Config.EOS].toNat := by
  induction data with
  | nil => simpa [payloadBits_nil] using codeTable_length h Config.EOS
  | cons b data ih =>
    rw [payloadBits_cons, List.length_append, ih, codeTable_length h, List.map_cons, List.sum_cons,
      Nat.add_assoc]

/-- Every byte takes at least one bit of the payload. -/
theorem length_le_payloadBits {len : Vector (BitVec 9) 257} {T : Tree} (h : canonicalTree len = .ok T)
    {data : List Byte} (hdata : ∀ b ∈ data, len[byteSymbol b] ≠ 0) :
    data.length ≤ (payloadBits (codeTable T) data).length := by
  have hsum := List.length_le_sum_of_one_le (data.map fun b => len[byteSymbol b].toNat) fun n hn => by
    obtain ⟨b, hb, rfl⟩ := List.mem_map.mp hn
    exact len_toNat_pos (hdata b hb)
  rw [List.length_map] at hsum
  rw [payloadBits_length h]
  omega

/-- A symbol in use has its code as its path. -/
theorem path_eq_codeTable {len : Vector (BitVec 9) 257} {T : Tree} (h : canonicalTree len = .ok T)
    {sym : Symbol} (h0 : len[sym] ≠ 0) : path T sym = some (codeTable T)[sym] := by
  obtain ⟨p, start, hp⟩ := exists_canonicalCode h h0
  rw [codeTable_of_canonicalCode hp, hp.onPath]

/-- A byte never names EOS (R260). -/
theorem byteSymbol_ne_EOS (b : Byte) : byteSymbol b ≠ Config.EOS := by
  intro h
  have hv : (byteSymbol b).val = 256 := by rw [h]; rfl
  have hlt : (byteSymbol b).val < 256 := b.isLt
  omega

theorem ofNat_byteSymbol (b : Byte) : BitVec.ofNat 8 (byteSymbol b).val = b := by
  simp [byteSymbol]

theorem decodePayload_of_EOS {T : Tree} {p rest : Bits} (fuel : Nat)
    (h : descend T p = some (Config.EOS, rest)) : decodePayload T (fuel + 1) p = some [] := by
  simp only [decodePayload, h, if_true]

theorem decodePayload_of_byte {T : Tree} {b : Byte} {p rest : Bits} (fuel : Nat)
    (h : descend T p = some (byteSymbol b, rest)) :
    decodePayload T (fuel + 1) p = (decodePayload T fuel rest).map (b :: ·) := by
  simp only [decodePayload, h, if_neg (byteSymbol_ne_EOS b), ofNat_byteSymbol]

/-- The decoder recovers the bytes from a payload, whatever bits follow it (R255). -/
theorem decodePayload_payloadBits {len : Vector (BitVec 9) 257} {T : Tree}
    (hT : canonicalTree len = .ok T) (heos : len[Config.EOS] ≠ 0) {data : List Byte}
    (hdata : ∀ b ∈ data, len[byteSymbol b] ≠ 0) (rest : Bits) {fuel : Nat} (hf : data.length < fuel) :
    decodePayload T fuel (payloadBits (codeTable T) data ++ rest) = some data := by
  induction data generalizing fuel with
  | nil =>
    obtain ⟨f, rfl⟩ : ∃ f, fuel = f + 1 := ⟨fuel - 1, by simp only [List.length_nil] at hf; omega⟩
    rw [payloadBits_nil, decodePayload_of_EOS f (descend_path (path_eq_codeTable hT heos))]
  | cons b data ih =>
    obtain ⟨f, rfl⟩ : ∃ f, fuel = f + 1 := ⟨fuel - 1, by omega⟩
    have hb : len[byteSymbol b] ≠ 0 := hdata b List.mem_cons_self
    rw [payloadBits_cons, List.append_assoc,
      decodePayload_of_byte f (descend_path (path_eq_codeTable hT hb)),
      ih (fun c hc => hdata c (List.mem_cons_of_mem b hc)) (by simpa using hf), Option.map_some]

/-- Settles O52: the header bytes give the table back, the table its canonical tree, and the tree the bytes
of the payload, whose padding comes after EOS. -/
theorem streamDeterminesTheInput : Obligations.StreamDeterminesTheInput := by
  intro len data stream h
  obtain ⟨henc, T, hT, rfl⟩ := encodeStream_eq_some.mp h
  obtain ⟨hshort, heos, hdata⟩ := encodable_iff.mp henc
  have hpayload : (headerBytes len ++ pack (payloadBits (codeTable T) data)).drop 257 =
      pack (payloadBits (codeTable T) data) := List.drop_left' (headerBytes_length len)
  rw [pack_headerBits_append, decodeStream_of_tree (readHeader_headerBytes hshort _) hT, hpayload,
    unpack_pack]
  refine decodePayload_payloadBits hT heos hdata _ ?_
  have hle := length_le_payloadBits hT hdata
  rw [List.length_append]
  omega

/-! ### Running commands one after another (R93) -/

theorem runCommands_cons {i : Instr} {s t : State} (h : exec i s = .next t) (rest : List Instr) :
    runCommands (i :: rest) s = runCommands rest t := by
  simp only [runCommands, h]

/-- A run always answers a next state. -/
theorem runCommands_next (is : List Instr) (s : State) : ∃ t, runCommands is s = .next t := by
  induction is generalizing s with
  | nil => exact ⟨s, rfl⟩
  | cons i is ih =>
    obtain ⟨u, hu⟩ := exec_next i s
    rw [runCommands_cons hu]
    exact ih u

theorem runCommands_append {is : List Instr} {s t : State} (h : runCommands is s = .next t)
    (rest : List Instr) : runCommands (is ++ rest) s = runCommands rest t := by
  induction is generalizing s with
  | nil =>
    cases h
    rfl
  | cons i is ih =>
    obtain ⟨u, hu⟩ := exec_next i s
    rw [runCommands_cons hu] at h
    rw [List.cons_append, runCommands_cons hu, ih h]

/-- Without SRESET a run that is in ERROR stays there (R283). -/
theorem runCommands_of_error {is : List Instr} {s : State} (hs : s.state = .error)
    (his : .sreset ∉ is) : runCommands is s = .next s := by
  induction is with
  | nil => rfl
  | cons i is ih =>
    obtain ⟨hi, his⟩ := List.ne_and_not_mem_of_not_mem_cons his
    have he : exec i s = .next s := by rw [exec_of_error hs, if_neg (Ne.symm hi)]
    rw [runCommands_cons he, ih his]

/-! ### A run of the encoder that completes (R253) -/

/-- BYTE after BYTE appends the codes in order. -/
theorem runCommands_bytes {s : State} {data : List Byte} (hs : s.state = .stream)
    (hdata : ∀ b ∈ data, s.len[byteSymbol b] ≠ 0) :
    runCommands (data.map .byte) s = .next (putBits s (data.flatMap fun b => s.code[byteSymbol b])) := by
  induction data generalizing s with
  | nil => rfl
  | cons b data ih =>
    have hb : s.len[byteSymbol b] ≠ 0 := hdata b List.mem_cons_self
    rw [List.map_cons, runCommands_cons (exec_byte hs hb), ih (by rwa [putBits_state]) (fun c hc => ?_),
      putBits_code, ← putBits_append, List.flatMap_cons]
    rw [putBits_len]
    exact hdata c (List.mem_cons_of_mem b hc)

/-- From STREAM the input and FINISH pack the bits pending before them and the payload. -/
theorem runCommands_payload {s : State} {data : List Byte} (hs : s.state = .stream)
    (heos : s.len[Config.EOS] ≠ 0) (hdata : ∀ b ∈ data, s.len[byteSymbol b] ≠ 0) :
    ∃ t, runCommands (data.map .byte ++ [.finish]) s = .next t ∧ t.state = .done ∧
      t.out = pack (bitStream s ++ payloadBits s.code data) := by
  have hbytes := runCommands_bytes hs hdata
  have hfinish := exec_finish (s := putBits s (data.flatMap fun b => s.code[byteSymbol b]))
    (by rwa [putBits_state]) (by rwa [putBits_len])
  rw [putBits_code, ← putBits_append] at hfinish
  refine ⟨_, (runCommands_append hbytes _).trans (runCommands_cons hfinish []), rfl, ?_⟩
  exact (closeStream_out _).trans (congrArg pack (putBits_appends s (payloadBits s.code data)).stream)

/-- HEADER as a step of a run: the entries go to the stream, and the tables stay. -/
theorem exec_header_stream {s : State} (hs : s.state = .ready)
    (h : ∀ sym : Symbol, s.len[sym].toNat < 256) :
    ∃ u, exec .header s = .next u ∧ u.state = .stream ∧ u.len = s.len ∧ u.code = s.code ∧
      bitStream u = bitStream s ++ headerBits s.len :=
  ⟨_, exec_header hs h, rfl, putBits_len s _, putBits_code s _, (putBits_appends s _).stream⟩

/-- From READY an encodable table and input give the header and the payload. -/
theorem runCommands_header {s : State} {data : List Byte} (hs : s.state = .ready)
    (henc : encodable s.len data = true) :
    ∃ t, runCommands (.header :: (data.map .byte ++ [.finish])) s = .next t ∧ t.state = .done ∧
      t.out = pack (bitStream s ++ (headerBits s.len ++ payloadBits s.code data)) := by
  obtain ⟨hshort, heos, hdata⟩ := encodable_iff.mp henc
  obtain ⟨u, hu, hstate, hlen, hcode, hstream⟩ := exec_header_stream hs hshort
  rw [← hlen] at heos hdata
  rw [runCommands_cons hu, ← List.append_assoc, ← hstream, ← hcode]
  exact runCommands_payload hstate heos hdata

theorem encodeCommands_eq (data : List Byte) :
    encodeCommands data = .build :: .header :: (data.map .byte ++ [.finish]) := rfl

/-- From IDLE the code is the one BUILD reads off the canonical tree. -/
theorem runCommands_encodeCommands {s : State} {T : Tree} {data : List Byte} (hs : s.state = .idle)
    (hT : canonicalTree s.len = .ok T) (henc : encodable s.len data = true) :
    ∃ t, runCommands (encodeCommands data) s = .next t ∧ t.state = .done ∧
      t.out = pack (bitStream s ++ (headerBits s.len ++ payloadBits (codeTable T) data)) := by
  rw [encodeCommands_eq, runCommands_cons (exec_build_of_ok hs hT)]
  exact runCommands_header rfl henc

/-! ### A run of the encoder that ends outside ERROR -/

/-- An encoder that completes leaves LEN. -/
theorem completed_len_of_encoder {i : Instr} {s t : State} (h : Completed i s t) (hi : IsEncoder i) :
    t.len = s.len := by
  obtain ⟨p, u, ha, ht⟩ := completed_appends h hi
  rw [ht]
  exact (tablesOf_eq_iff.mp (appends_tablesOf ha)).1

/-- The first command of a run that ends outside ERROR completed. -/
theorem runCommands_cons_completed {i : Instr} {is : List Instr} {s t : State} (hs : s.state ≠ .error)
    (his : .sreset ∉ is) (h : runCommands (i :: is) s = .next t) (ht : t.state ≠ .error) :
    ∃ u, Completed i s u ∧ u.state ≠ .error ∧ runCommands is u = .next t := by
  obtain ⟨u, hu⟩ := exec_next i s
  rw [runCommands_cons hu] at h
  have hne : u.state ≠ .error := fun he => by
    rw [runCommands_of_error he his] at h
    cases h
    exact ht he
  exact ⟨u, ((exec_completed_or_error hs hu).resolve_right hne).2, hne, h⟩

theorem sreset_not_mem_payload (data : List Byte) :
    Instr.sreset ∉ data.map Instr.byte ++ [.finish] := by
  simp

/-- Every byte of a payload that ends outside ERROR has a code, and so has EOS. -/
theorem codes_of_runCommands_payload {s t : State} {data : List Byte} (hs : s.state ≠ .error)
    (h : runCommands (data.map .byte ++ [.finish]) s = .next t) (ht : t.state ≠ .error) :
    s.len[Config.EOS] ≠ 0 ∧ ∀ b ∈ data, s.len[byteSymbol b] ≠ 0 := by
  induction data generalizing s with
  | nil =>
    obtain ⟨u, hc, -⟩ := runCommands_cons_completed hs List.not_mem_nil h ht
    exact ⟨hc.1, nofun⟩
  | cons b data ih =>
    obtain ⟨u, hc, hu, hrest⟩ := runCommands_cons_completed hs (sreset_not_mem_payload data) h ht
    obtain ⟨heos, hdata⟩ := ih hu hrest
    rw [completed_len_of_encoder hc (.inr (.inl ⟨b, rfl⟩))] at heos hdata
    exact ⟨heos, List.forall_mem_cons.mpr ⟨hc.1, hdata⟩⟩

/-- A run that ends outside ERROR has met a table and an input that can be encoded. -/
theorem encodable_of_runCommands {s t : State} {data : List Byte} (hs : s.state ≠ .error)
    (h : runCommands (encodeCommands data) s = .next t) (ht : t.state ≠ .error) :
    kraftSum s.len = 1 ∧ encodable s.len data = true := by
  have hpayload := sreset_not_mem_payload data
  obtain ⟨u, ⟨T, hT, rfl⟩, hne, hu⟩ := runCommands_cons_completed hs (by simp) h ht
  obtain ⟨v, hv, hvne, hrun⟩ := runCommands_cons_completed hne hpayload hu ht
  obtain ⟨heos, hdata⟩ := codes_of_runCommands_payload hvne hrun ht
  rw [completed_len_of_encoder hv (.inl rfl)] at heos hdata
  obtain ⟨w, hw, -⟩ := hv
  exact ⟨canonicalTree_kraftSum hT, encodable_iff.mpr ⟨(headerEntries_ok hw).2, heos, hdata⟩⟩

/-- A stream exists on Kraft equality only, and for an encodable input. -/
theorem encodeStream_eq_none {len : Vector (BitVec 9) 257} {data : List Byte}
    (h : ¬ (kraftSum len = 1 ∧ encodable len data = true)) : encodeStream len data = none := by
  refine Option.eq_none_iff_forall_ne_some.mpr fun stream hs => ?_
  obtain ⟨henc, T, hT, -⟩ := encodeStream_eq_some.mp hs
  exact h ⟨canonicalTree_kraftSum hT, henc⟩

/-- Settles O51: from the empty bitpacker of IDLE a run packs the header and the payload
(`runCommands_encodeCommands`), and one that does not end in ERROR was over an encodable table and input
(`encodable_of_runCommands`). -/
theorem completedStreamIsTheEncoding : Obligations.CompletedStreamIsTheEncoding := by
  intro s data hinv hs
  rw [← encodable_iff]
  refine ⟨fun ⟨hkraft, henc⟩ => ?_, fun hno => ⟨encodeStream_eq_none hno, ?_⟩⟩
  · obtain ⟨T, hT⟩ := canonicalTree_ok_iff.mpr hkraft
    obtain ⟨hbit, hout⟩ := hinv.idleEmpty hs
    obtain ⟨t, hrun, hdone, htout⟩ := runCommands_encodeCommands hs hT henc
    rw [bitStream_of_empty hout hbit, List.nil_append] at htout
    refine ⟨t, hrun, hdone, encodeStream_eq_some.mpr ⟨henc, T, hT, htout⟩, ?_⟩
    rw [htout, pack_length, List.length_append, headerBits_length, payloadBits_length hT]
    omega
  · obtain ⟨t, ht⟩ := runCommands_next (encodeCommands data) s
    have hne : s.state ≠ .error := by simp [hs]
    exact ⟨t, ht, by_contra fun he => hno (encodable_of_runCommands hne ht he)⟩

end Sys2Proof.Machine

/-! ## Family 60_exceptions: the error entry, the ERROR state and the arguments of errors -/

namespace Sys2Proof

/-! ### The words the decoder refuses (R120) -/

theorem Decoded.eq_of_need_eq_illegal {op : Nat} {p : Prop} [Decidable p] {i : Instr} {v : IllegalWord}
    (h : Decoded.need op p i = .illegal v) : v = .reservedBits op := by
  by_cases hp : p
  · exact nomatch (need_of hp i).symm.trans h
  · exact (Decoded.illegal.inj ((need_of_not hp i).symm.trans h)).symm

/-- Both verdicts carry the word's opcode. The decoder's line h_11 is that of the reserved opcodes; the
other ten check reserved fields. -/
theorem illegal_of_decode {w : Word} {v : IllegalWord} (h : decode w = .illegal v) :
    v = .reservedOpcode (field w 31 28) ∨ v = .reservedBits (field w 31 28) := by
  unfold decode at h
  split at h
  case isTrue => cases h
  case isFalse =>
    dsimp only at h
    split at h
    case h_11 => exact .inl (Decoded.illegal.inj h).symm
    all_goals exact .inr (Decoded.eq_of_need_eq_illegal h)

end Sys2Proof

namespace Sys2Proof.Machine

open Sys2Proof.Safety

/-! ### The step in ERROR (R283, R284) -/

/-- The two host actions that reset the machine: the hardware reset, and writing SRESET's word to CMD
(R284, R310). -/
def IsReset (a : HostAction) : Prop := a = .hardReset ∨ a = .busWrite 4 0x04 0xB0000000#32

/-- Both resets reset from every state. -/
theorem hostStep_of_isReset {a : HostAction} (h : IsReset a) (s : State) :
    hostStep a s = .next (resetCore s) := by
  obtain rfl | rfl := h
  · rfl
  · have hd : decode 0xB0000000#32 = .command .sreset := by decide
    calc busWrite 4 0x04 0xB0000000#32 s
        = executeWord 0xB0000000#32 s := busWrite_cmd 4 _ s (by decide)
      _ = exec .sreset s := executeWord_of_command hd s
      _ = .next (resetCore s) := exec_sreset s

/-- In ERROR the decoder is not asked: a word is SRESET's, or it is ignored (R283). -/
theorem executeWord_of_error {s : State} (hs : s.state = .error) {w : Word} (hw : w ≠ 0xB0000000#32) :
    executeWord w s = .next s := by
  rw [executeWord, if_pos hs, if_neg hw]

/-- `t` is `s` but for what serving the host changes: its side, which a read writes, and the count of the
bytes the sink has taken (R82, R84). -/
def OnlyHostServed (s t : State) : Prop := t = { s with delivered := t.delivered, host := t.host }

theorem onlyHostServed_takeByte (s : State) : OnlyHostServed s (takeByte s) := by
  rcases hx : s.out[s.delivered]? with _ | x
  · rw [takeByte_of_none hx]
    rfl
  · rw [takeByte_of_some hx]
    rfl

/-- In ERROR an action of the host resets, or it serves the host and changes nothing else. -/
theorem hostStep_of_error {a : HostAction} {s t : State} (hs : s.state = .error)
    (h : hostStep a s = .next t) : (IsReset a ∧ t = resetCore s) ∨ OnlyHostServed s t := by
  by_cases ha : IsReset a
  · rw [hostStep_of_isReset ha] at h
    exact .inl ⟨ha, (Host.Outcome.next.inj h).symm⟩
  right
  cases a with
  | hardReset => exact absurd (.inl rfl) ha
  | takeByte =>
    rw [← Host.Outcome.next.inj h]
    exact onlyHostServed_takeByte s
  | busRead bytes offset =>
    by_cases hadm : admitted bytes offset = true
    · cases (busRead_admitted s hadm).symm.trans h
      rfl
    · exact nomatch (busRead_not_admitted s hadm).symm.trans h
  | busWrite bytes offset data =>
    by_cases hadm : admitted bytes offset = true
    · by_cases hcmd : offset = 0x04
      · subst hcmd
        obtain ⟨rfl, -⟩ := admitted_iff.mp hadm
        have hw : data ≠ 0xB0000000#32 := fun hw => ha (.inr (by rw [hw]))
        cases (executeWord_of_error hs hw).symm.trans ((busWrite_cmd 4 data s hadm).symm.trans h)
        rfl
      · cases (busWrite_off_cmd data s hadm hcmd).symm.trans h
        rfl
    · exact nomatch (busWrite_not_admitted data s hadm).symm.trans h

/-- A step from ERROR performs a reset, or it serves the host and changes nothing else. -/
theorem step_of_error {s t : State} (hs : s.state = .error) (h : step s = .next t) :
    (∃ a rest, s.host.queue = a :: rest ∧ IsReset a ∧ t = resetCore (withQueue s rest)) ∨
      OnlyHostServed s t := by
  rcases step_cases h with rfl | ⟨a, rest, hq, ha⟩
  · exact .inr rfl
  · have hs' : (withQueue s rest).state = .error := hs
    rcases hostStep_of_error hs' ha with ⟨hr, ht⟩ | ht
    · exact .inl ⟨a, rest, hq, hr, ht⟩
    · exact .inr ht

/-- The queue empty, the machine waits (R295). -/
theorem step_of_empty_queue {s : State} (h : s.host.queue = []) : step s = .next s := by
  simp only [step, nextAction, h]

/-! ### The argument of an illegal word -/

/-- The argument of an illegal word is its opcode (R121, R122). -/
theorem illegalCause_argument {w : Word} {v : IllegalWord} (h : decode w = .illegal v) :
    (illegalCause v).argument = field w 31 28 := by
  rcases illegal_of_decode h with rfl | rfl <;> rfl

/-! ### The bound on ROOT_COUNT (R191) -/

theorem two_le_leafCount_pairUp : (l : List Tree) → ∀ T ∈ pairUp l, 2 ≤ leafCount T
  | [], T, h => absurd h List.not_mem_nil
  | [_], T, h => absurd h List.not_mem_nil
  | a :: b :: rest, T, h => by
    rcases List.mem_cons.mp h with rfl | h
    · exact Nat.add_le_add (leafCount_pos a) (leafCount_pos b)
    · exact two_le_leafCount_pairUp rest T h

/-- What the levels leave was paired, so each tree of it has two leaves or more. -/
theorem two_le_leafCount_buildLevels {len : Vector (BitVec 9) 257} {L : Nat} {carried left : List Tree}
    (hc : ∀ T ∈ carried, 2 ≤ leafCount T) (h : buildLevels len L carried = .ok left) :
    ∀ T ∈ left, 2 ≤ leafCount T := by
  induction L generalizing carried with
  | zero =>
    cases h
    exact hc
  | succ L ih =>
    rcases Nat.mod_two_eq_zero_or_one (carried ++ leavesAt len (L + 1)).length with h2 | h2
    · rw [buildLevels_even h2] at h
      exact ih (two_le_leafCount_pairUp _) h
    · rw [buildLevels_odd h2] at h
      cases h

/-- The trees left after level 1 share the 257 symbols, two or more each. -/
theorem length_buildLevels_le {len : Vector (BitVec 9) 257} {L : Nat} {left : List Tree}
    (h : buildLevels len L [] = .ok left) : left.length ≤ 128 := by
  have hsum : (left.map leafCount).sum = 0 + ∑ j ∈ Finset.Ioc 0 L, lengthCount len j :=
    leafCount_buildLevels h
  have hle := sum_lengthCount_le len L
  have htwo := (left.map leafCount).card_nsmul_le_sum 2
    (List.forall_mem_map.mpr (two_le_leafCount_buildLevels (by simp) h))
  rw [List.length_map, smul_eq_mul] at htwo
  omega

/-- M is the largest of some 9-bit numbers. -/
theorem maxLength_lt (len : Vector (BitVec 9) 257) : maxLength len < 512 :=
  List.foldlRecOn (motive := (· < 512)) (lenEntries len) _ (by decide)
    fun _ hm e _ => max_lt hm e.2.isLt

/-! ### The arguments of the errors a command raises (R272) -/

/-- The argument fits ERRARG, and a ROOT_COUNT is of 128 nodes at most. -/
def FitsErrarg (c : ErrorCause) : Prop := c.argument < 1024 ∧ ∀ n, c = .rootCount n → n ≤ 128

theorem errarg_toNat {c : ErrorCause} (h : c.argument < 1024) : c.errarg.toNat = c.argument :=
  Nat.mod_eq_of_lt h

theorem fitsErrarg_symbolRange {sym : Nat} (h : sym < 512) : FitsErrarg (.symbolRange sym) :=
  ⟨show sym < 1024 by omega, nofun⟩

theorem fitsErrarg_nodeRange {idx : Nat} (h : idx < 1024) : FitsErrarg (.nodeRange idx) := ⟨h, nofun⟩

theorem fitsErrarg_noCode (sym : Symbol) : FitsErrarg (.noCode sym) :=
  ⟨show sym.val < 1024 by omega, nofun⟩

theorem fitsErrarg_canonicalTree {len : Vector (BitVec 9) 257} {c : ErrorCause}
    (h : canonicalTree len = .error c) : FitsErrarg c := by
  rcases canonicalTree_error h with ⟨L, rfl, -, hL⟩ | ⟨left, rfl, -, hb⟩
  · have hM := maxLength_lt len
    exact ⟨show L < 1024 by omega, nofun⟩
  · have hlen := length_buildLevels_le hb
    refine ⟨show left.length < 1024 by omega, fun n hn => ?_⟩
    rwa [← ErrorCause.rootCount.inj hn]

theorem fitsErrarg_headerEntries {es : List (Symbol × BitVec 9)} {s u : State} {c : ErrorCause}
    (h : headerEntries es s = .error (c, u)) : FitsErrarg c := by
  rcases headerEntries_cases es s with ⟨t, p, ht, -⟩ | ⟨sym, t, p, ht, -⟩
  · exact nomatch ht.symm.trans h
  · cases ht.symm.trans h
    exact ⟨show sym.val < 1024 by omega, nofun⟩

/-- An operand that fits its field, a symbol, an index and a level all fit ten bits. -/
theorem raised_fitsErrarg {i : Instr} {s u : State} {c : ErrorCause} (hi : i.wellFormed = true)
    (h : Raised i s c u) : FitsErrarg c := by
  cases i with
  | nop => exact h.elim
  | sreset => exact h.elim
  | ldlen sym len =>
    obtain ⟨-, -, rfl⟩ := h
    exact fitsErrarg_symbolRange (of_decide_eq_true hi)
  | ldleaf idx sym =>
    have hw : idx < 1024 ∧ sym < 512 := by simpa [Instr.wellFormed, fitsSym, fitsIdx] using hi
    obtain ⟨-, ⟨-, rfl⟩ | ⟨-, -, rfl⟩⟩ := h
    · exact fitsErrarg_nodeRange hw.1
    · exact fitsErrarg_symbolRange hw.2
  | ldint idx left right =>
    have hw : (idx < 1024 ∧ left < 1024) ∧ right < 1024 := by
      simpa [Instr.wellFormed, fitsIdx] using hi
    obtain ⟨-, ⟨-, rfl⟩ | ⟨-, -, rfl⟩ | ⟨-, -, -, rfl⟩⟩ := h
    · exact fitsErrarg_nodeRange hw.1.1
    · exact fitsErrarg_nodeRange hw.1.2
    · exact fitsErrarg_nodeRange hw.2
  | derive =>
    obtain ⟨-, -, harg, hne⟩ := deriveDepths_error h.2
    exact ⟨harg, fun n hn => absurd hn (hne n)⟩
  | build => exact fitsErrarg_canonicalTree h.2
  | header => exact fitsErrarg_headerEntries h
  | byte b =>
    obtain ⟨-, -, rfl⟩ := h
    exact fitsErrarg_noCode _
  | finish =>
    obtain ⟨-, -, rfl⟩ := h
    exact fitsErrarg_noCode _
  | wrbit v =>
    obtain ⟨-, -, rfl⟩ := h
    exact ⟨show v.toNat < 1024 by omega, nofun⟩

/-- A command that goes to ERROR was turned away, or one of its checks raised. -/
theorem exec_error_cases {i : Instr} {s t : State} (hs : s.state ≠ .error) (h : exec i s = .next t)
    (ht : t.state = .error) :
    (s.state ∉ acceptingStates i ∧ t = raiseError (encode i) (.wrongState s.state) s) ∨
      (s.state ∈ acceptingStates i ∧ ∃ c u, Raised i s c u ∧ t = raiseError (encode i) c u) := by
  rcases exec_cases h with ⟨-, rfl⟩ | ⟨ha, hr⟩ | ⟨ha, hc⟩ | ⟨ha, hr⟩
  · exact absurd ht hs
  · have hn : s.state ∉ acceptingStates i := fun hm =>
      nomatch (accepts_eq_performs_iff.mpr hm).symm.trans ha
    exact .inl ⟨hn, hr⟩
  · exact absurd ht (completed_state_ne_error (accepts_eq_performs_iff.mp ha) hc)
  · exact .inr ⟨accepts_eq_performs_iff.mp ha, hr⟩

/-! ### The obligations of 60_exceptions.md -/

/-- Settles O21: both resets give the reset state (`hostStep_of_isReset`), and a step from ERROR that is
neither keeps STATE (`step_of_error`). -/
theorem onlyAResetLeavesError : Obligations.OnlyAResetLeavesError := by
  refine fun s hs => ⟨fun rest a ha hq => ?_, fun t h ht => ?_⟩
  · exact ⟨_, (step_of_queue hq).trans (hostStep_of_isReset ha _), rfl, rfl⟩
  · rcases step_of_error hs h with ⟨a, rest, hq, ha, rfl⟩ | hserved
    · refine ⟨⟨rest, ?_⟩, by rw [hq]; rfl⟩
      rw [hq]
      exact ha.imp (congrArg (· :: rest)) (congrArg (· :: rest))
    · exact absurd ((congrArg State.state hserved).trans hs) ht

/-- Settles O22: a step from ERROR resets, which leaves ERROR, or serves the host (`step_of_error`). -/
theorem firstErrorIsKept : Obligations.FirstErrorIsKept := by
  intro s t hs h ht
  rcases step_of_error hs h with ⟨a, rest, -, -, rfl⟩ | hserved
  · exact nomatch ht
  · rw [hserved]
    exact ⟨rfl, rfl, rfl, rfl⟩

/-- Settles O24: each cause a command raises fits (`raised_fitsErrarg`), so ERRARG keeps it whole, and the
number of a control state and an opcode are smaller still. -/
theorem errorArgumentsFitErrarg : Obligations.ErrorArgumentsFitErrarg := by
  refine ⟨fun i s u c hi h => raised_fitsErrarg hi h, fun i s t hi hs h ht => ?_, fun w v h => ?_⟩
  · rcases exec_error_cases hs h ht with ⟨hm, rfl⟩ | ⟨hm, c, u, hc, rfl⟩
    · have hn := number_lt s.state
      have hfit : (ErrorCause.wrongState s.state).argument < 1024 :=
        show s.state.number < 1024 by omega
      exact ⟨_, s, .inl ⟨hm, rfl, rfl⟩, rfl, errarg_toNat hfit⟩
    · exact ⟨c, u, .inr ⟨hm, hc⟩, rfl, errarg_toNat (raised_fitsErrarg hi hc).1⟩
  · rw [illegalCause_argument h]
    exact field_lt w 31 28

/-- Settles O8. -/
theorem waitingCoreHoldsItsState : Obligations.WaitingCoreHoldsItsState := fun _ => step_of_empty_queue

/-- Settles O17: `raiseError` writes the five fields, and STATUS shows its fields
(`statusHoldsItsFields`) of the state before and after. -/
theorem raisingAnErrorLatchesIt : Obligations.RaisingAnErrorLatchesIt := by
  intro w c s
  obtain ⟨hstate, herr, hcode, hbit, -, hacc, -⟩ := statusHoldsItsFields (raiseError w c s)
  obtain ⟨-, -, -, hbit', -, hacc', -⟩ := statusHoldsItsFields s
  exact ⟨rfl, hstate, herr.mpr rfl, hcode, hbit.trans hbit'.symm, hacc.trans hacc'.symm, rfl⟩

/-- Settles O18, row by row of R272's table. -/
theorem errorNumbersAreTheTables : Obligations.ErrorNumbersAreTheTables := by
  refine ⟨?symbolRange, ?nodeRange, ?bitValue, ?noCode, ?lengthTooLong, ?rootNotInternal, ?emptyNode,
    ?nodeRevisited, ?duplicateSymbol, ?oddLevel, ?rootCount, ?reservedOpcode, ?reservedBits, ?wrongState⟩
  case rootNotInternal => exact ⟨rfl, rfl, rfl⟩
  case wrongState => exact fun ctl => ⟨rfl, rfl, by cases ctl <;> rfl⟩
  all_goals exact fun _ => ⟨rfl, rfl, rfl⟩

/-- Settles O20: the word is ignored (`executeWord_of_error`), and the read answers from the state it
leaves as it is. -/
theorem errorStateIgnoresEveryOtherWord : Obligations.ErrorStateIgnoresEveryOtherWord := by
  refine fun s rest hs => ⟨fun w hw hq => ?_, fun offset hal hin hq => ?_⟩
  · have hs' : (withQueue s rest).state = .error := hs
    calc step s
        = busWrite 4 0x04 w (withQueue s rest) := step_of_queue hq
      _ = executeWord w (withQueue s rest) := busWrite_cmd 4 w _ (by decide)
      _ = .next (withQueue s rest) := executeWord_of_error hs' hw
  · exact (step_of_queue hq).trans (busRead_admitted _ (admitted_iff.mpr ⟨rfl, hal, hin⟩))

end Sys2Proof.Machine

/-! ## Family 70_reset_and_hazards: the two resets, and the most bytes a command emits -/

namespace Sys2Proof.Machine

open Sys2Proof.Safety

/-! ### The most bytes a command emits (R323) -/

/-- Eight bits for each byte of the bound are few enough: the at most 7 pending bits fill no further byte. -/
theorem appends_out_length_le {s t : State} {p : Bits} {n : Nat} (h : Appends s p t)
    (hp : p.length ≤ 8 * n) : t.out.length ≤ s.out.length + n := by
  obtain ⟨hout, -⟩ := appends_lengths h
  have hbit := bitcnt_lt s
  omega

/-- In STREAM no code has 256 bits: HEADER has met no length of 256 or more (R200, R241). -/
theorem code_length_le_of_stream {s : State} (h : Inv s) (hs : s.state = .stream) (sym : Symbol) :
    s.code[sym].length ≤ 255 := by
  rw [(h.coded (.inr (.inl hs))).2 sym]
  exact Nat.le_of_lt_succ (h.headerPassed (.inl hs) sym)

/-- HEADER's loop emits at most one byte per entry, whether it ends or raises (R241). -/
theorem headerEntries_out_length_le {s u : State}
    (h : headerEntries (lenEntries s.len) s = .ok u ∨
      ∃ c, headerEntries (lenEntries s.len) s = .error (c, u)) :
    u.out.length ≤ s.out.length + 257 := by
  rcases headerEntries_cases (lenEntries s.len) s with
    ⟨v, p, hv, ha, hp, -⟩ | ⟨sym, v, p, hv, ha, hp, -⟩ <;> rw [lenEntries_length] at hp
  · obtain rfl : v = u := by simpa [hv] using h
    exact appends_out_length_le ha hp.le
  · obtain rfl : v = u := by simpa [hv] using h
    exact appends_out_length_le ha hp

/-- A command that completes emits no more than its bound. FINISH passes on at most 255 bits of a code and
the 7 bits that may pad it. -/
theorem completed_out_length_le {i : Instr} {s t : State} (h : Inv s)
    (hs : s.state ∈ acceptingStates i) (hc : Completed i s t) :
    t.out.length ≤ s.out.length + emissionBound i := by
  by_cases hr : i = .sreset
  · subst hr
    rw [show t = resetCore s from hc]
    exact Nat.zero_le _
  by_cases hi : IsEncoder i
  · rcases hi with rfl | ⟨b, rfl⟩ | rfl | ⟨v, rfl⟩
    · obtain ⟨u, hu, rfl⟩ := hc
      change u.out.length ≤ s.out.length + 257
      exact headerEntries_out_length_le (.inl hu)
    · obtain ⟨-, rfl⟩ := hc
      have hcode := code_length_le_of_stream h (List.mem_singleton.mp hs) (byteSymbol b)
      exact appends_out_length_le (n := 32) (putBits_appends s _) (by omega)
    · obtain ⟨-, rfl⟩ := hc
      have hcode := code_length_le_of_stream h (List.mem_singleton.mp hs) Config.EOS
      change (closeStream (putBits s s.code[Config.EOS])).out.length ≤ s.out.length + 33
      refine appends_out_length_le (appends_trans (putBits_appends s _) (closeStream_appends _)) ?_
      rw [List.length_append, List.length_replicate]
      omega
    · obtain ⟨-, rfl⟩ := hc
      exact appends_out_length_le (n := 1) (putBit_appends s _) (by simp)
  · rw [(outputOf_eq_iff.mp (completed_outputOf hc hi hr)).1]
    exact Nat.le_add_right _ _

/-- A command that raises has emitted no more than its bound: HEADER the entries before the long length,
any other command nothing (R151). -/
theorem raised_out_length_le {i : Instr} {s u : State} {c : ErrorCause} (h : Raised i s c u) :
    u.out.length ≤ s.out.length + emissionBound i := by
  by_cases hi : i = .header
  · subst hi
    exact headerEntries_out_length_le (.inr ⟨c, h⟩)
  · rw [raised_at h hi]
    exact Nat.le_add_right _ _

/-! ### The obligations of 70_reset_and_hazards.md -/

/-- Settles O59: ignored or turned away a command emits nothing, and completing or raising it keeps its
bound. -/
theorem emissionIsBounded : Obligations.EmissionIsBounded := by
  intro i s t h he
  rcases exec_cases he with ⟨-, rfl⟩ | ⟨-, rfl⟩ | ⟨ha, hc⟩ | ⟨-, c, u, hc, rfl⟩
  · exact Nat.le_add_right _ _
  · exact Nat.le_add_right _ _
  · exact completed_out_length_le h (accepts_eq_performs_iff.mp ha) hc
  · rw [raiseError_out]
    exact raised_out_length_le hc

/-- Settles O11: both actions run `resetCore` (`hostStep_of_isReset`), once they are off the queue. -/
theorem bothResetsGiveTheResetState : Obligations.BothResetsGiveTheResetState := by
  intro s rest a ha hq
  have hstep : step s = .next (resetCore (withQueue s rest)) :=
    (step_of_queue hq).trans (hostStep_of_isReset ha _)
  exact ⟨_, hstep, rfl, rfl, fun sym => ⟨reset_len sym, reset_code sym⟩, reset_node,
    rfl, rfl, rfl, rfl, rfl, rfl, rfl, rfl⟩

end Sys2Proof.Machine

/-! ## Family 80_host_interface: the reference Tree Builder -/

namespace Sys2Proof.Machine

/-! ### The symbols at the leaves of a tree -/

theorem symbols_node (a b : Tree) : (Tree.node a b).symbols = a.symbols ++ b.symbols := rfl

/-- A tree with two leaves has an internal root. -/
theorem exists_eq_node_of_two_le {T : Tree} (h : 2 ≤ T.symbols.length) : ∃ a b, T = .node a b := by
  cases T with
  | leaf s => exact absurd h (by simp [Tree.symbols])
  | node a b => exact ⟨a, b, rfl⟩

/-- A symbol with a leaf has a path (R193). -/
theorem exists_path_of_mem_symbols {T : Tree} {s : Symbol} (h : s ∈ T.symbols) :
    ∃ p, path T s = some p := by
  induction T with
  | leaf t =>
    obtain rfl : s = t := List.mem_singleton.mp h
    exact ⟨[], by rw [path_leaf, if_pos rfl]⟩
  | node a b iha ihb =>
    rw [symbols_node, List.mem_append] at h
    simp only [path]
    split
    · exact ⟨_, rfl⟩
    · next ha =>
      have hna : s ∉ a.symbols := fun hs => (iha hs).elim fun _ hp => nomatch ha.symm.trans hp
      obtain ⟨p, hp⟩ := ihb (h.resolve_left hna)
      exact ⟨true :: p, by rw [hp, Option.map_some]⟩

/-! ### The queue, up to its order

The key order decides the shape of the tree. What symbols the tree has does not depend on it, so the queue
is followed up to permutation. -/

/-- The queue's entry for the leaf of a symbol (R351). -/
def leafEntry (f : Vector Nat 257) (s : Symbol) : QueueEntry where
  freq := f[s]
  key := s.val
  tree := .leaf s

/-- The symbols of all trees in the queue. -/
def queueSymbols (q : List QueueEntry) : List Symbol := q.flatMap fun e => e.tree.symbols

theorem queueSymbols_cons (e : QueueEntry) (q : List QueueEntry) :
    queueSymbols (e :: q) = e.tree.symbols ++ queueSymbols q := List.flatMap_cons

theorem queueSymbols_leaves (f : Vector Nat 257) (l : List Symbol) :
    queueSymbols (l.map (leafEntry f)) = l := by
  rw [queueSymbols, List.flatMap_map]
  exact List.flatMap_singleton' l

theorem queueSymbols_perm {q r : List QueueEntry} (h : q.Perm r) :
    (queueSymbols q).Perm (queueSymbols r) := h.flatMap_right _

theorem enqueue_perm (e : QueueEntry) (q : List QueueEntry) : (enqueue e q).Perm (e :: q) := by
  induction q with
  | nil => exact .refl _
  | cons x rest ih =>
    rw [enqueue]
    split
    · exact .refl _
    · exact (ih.cons x).trans (.swap e x rest)

/-- A merge keeps the symbols of the queue. -/
theorem queueSymbols_enqueue_merge (x y : QueueEntry) (rest : List QueueEntry) :
    (queueSymbols (enqueue (mergeEntries x y) rest)).Perm (queueSymbols (x :: y :: rest)) := by
  refine (queueSymbols_perm (enqueue_perm _ _)).trans (.of_eq ?_)
  simp only [queueSymbols_cons, mergeEntries, symbols_node, List.append_assoc]

/-! ### The three steps of R351 -/

/-- Step 1 queues the leaves of the symbols that occur. -/
theorem leafQueue_perm (f : Vector Nat 257) :
    (leafQueue f).Perm ((allSymbols.filter fun s => 0 < f[s]).map (leafEntry f)) := by
  have key : ∀ (l : List Symbol) (q : List QueueEntry),
      (l.foldl (fun q s => if 0 < f[s] then enqueue (leafEntry f s) q else q) q).Perm
        ((l.filter fun s => 0 < f[s]).map (leafEntry f) ++ q) := by
    intro l
    induction l with
    | nil => exact fun q => .refl q
    | cons s l ih =>
      intro q
      rw [List.foldl_cons]
      by_cases hs : 0 < f[s]
      · rw [if_pos hs, List.filter_cons_of_pos (by simpa using hs)]
        exact (ih _).trans (((enqueue_perm _ q).append_left _).trans List.perm_middle)
      · rw [if_neg hs, List.filter_cons_of_neg (by simpa using hs)]
        exact ih q
  exact List.append_nil (List.map _ _) ▸ key allSymbols []

/-- Step 2 adds leaves of symbols that do not occur, and stops only at two entries or when there is no
such symbol left. -/
theorem padQueue_perm (f : Vector Nat 257) (l : List Symbol) (q : List QueueEntry) :
    ∃ z : List Symbol, z.Sublist (l.filter fun s => f[s] = 0) ∧
      (padQueue f l q).Perm (z.map (leafEntry f) ++ q) ∧
      (2 ≤ z.length + q.length ∨ z = l.filter fun s => f[s] = 0) := by
  induction l generalizing q with
  | nil => exact ⟨[], .slnil, .refl q, .inr rfl⟩
  | cons s l ih =>
    rw [padQueue]
    by_cases hq : 2 ≤ q.length
    · rw [if_pos hq]
      exact ⟨[], List.nil_sublist _, .refl q, .inl (by simpa using hq)⟩
    · rw [if_neg hq]
      by_cases hs : f[s] = 0
      · obtain ⟨z, hz, hperm, hend⟩ := ih (enqueue (leafEntry f s) q)
        have henq := enqueue_perm (leafEntry f s) q
        have hentry : leafEntry f s = { freq := 0, key := s.val, tree := .leaf s } := by
          rw [leafEntry, hs]
        rw [if_pos hs, List.filter_cons_of_pos (by simpa using hs), ← hentry]
        refine ⟨s :: z, hz.cons_cons s,
          hperm.trans ((henq.append_left _).trans List.perm_middle), hend.imp (fun h => ?_) (congrArg _)⟩
        rw [henq.length_eq, List.length_cons] at h
        rw [List.length_cons]
        omega
      · rw [if_neg hs, List.filter_cons_of_neg (by simpa using hs)]
        exact ih q

/-- The symbols that occur and those that do not are 257 together. -/
theorem occurring_length_add (f : Vector Nat 257) :
    (allSymbols.filter fun s => f[s] = 0).length + (allSymbols.filter fun s => 0 < f[s]).length = 257 := by
  have h := List.length_eq_length_filter_add (l := allSymbols) fun s => decide (f[s] = 0)
  simp only [allSymbols, List.length_finRange, ← decide_not, ← Nat.pos_iff_ne_zero] at h ⊢
  exact h.symm

/-- Before the merges the queue holds leaves of at least two distinct symbols, with all that occur among
them (R351, R354). -/
theorem exists_paddedQueue_perm (f : Vector Nat 257) :
    ∃ l : List Symbol, (padQueue f allSymbols (leafQueue f)).Perm (l.map (leafEntry f)) ∧
      l.Nodup ∧ 2 ≤ l.length ∧ ∀ s : Symbol, 0 < f[s] → s ∈ l := by
  obtain ⟨z, hz, hperm, hend⟩ := padQueue_perm f allSymbols (leafQueue f)
  have hleaf := leafQueue_perm f
  have hnodup : allSymbols.Nodup := List.nodup_finRange 257
  refine ⟨z ++ allSymbols.filter fun s => 0 < f[s], ?_, ?_, ?_, fun s hs => ?_⟩
  · rw [List.map_append]
    exact hperm.trans (hleaf.append_left _)
  · refine ((hnodup.filter _).sublist hz).append (hnodup.filter _) fun s hsz hs => ?_
    have h0 : f[s] = 0 := by simpa using (List.mem_filter.mp (hz.subset hsz)).2
    have hpos : 0 < f[s] := by simpa using (List.mem_filter.mp hs).2
    omega
  · rw [List.length_append]
    rcases hend with h | rfl
    · rwa [hleaf.length_eq, List.length_map] at h
    · rw [occurring_length_add]
      decide
  · exact List.mem_append_right _ (List.mem_filter.mpr ⟨List.mem_finRange s, by simpa using hs⟩)

/-- Step 3 leaves one entry, whose tree has the symbols of the queue: every merge shortens the queue by
one. -/
theorem mergeQueue_eq_singleton {fuel : Nat} {q : List QueueEntry} (hq : q ≠ [])
    (hfuel : q.length ≤ fuel + 1) :
    ∃ e, mergeQueue fuel q = [e] ∧ e.tree.symbols.Perm (queueSymbols q) := by
  induction fuel generalizing q with
  | zero =>
    obtain ⟨e, rfl⟩ := List.length_eq_one_iff.mp (hfuel.antisymm (List.length_pos_iff.mpr hq))
    exact ⟨e, rfl, .of_eq (List.append_nil _).symm⟩
  | succ fuel ih =>
    match q with
    | [] => exact absurd rfl hq
    | [e] => exact ⟨e, rfl, .of_eq (List.append_nil _).symm⟩
    | x :: y :: rest =>
      have hlen := (enqueue_perm (mergeEntries x y) rest).length_eq
      obtain ⟨e, he, hsym⟩ := ih (q := enqueue (mergeEntries x y) rest)
        (List.ne_nil_of_length_pos (by rw [hlen]; exact Nat.succ_pos _))
        (by rw [hlen]; exact Nat.le_of_succ_le_succ hfuel)
      exact ⟨e, he, hsym.trans (queueSymbols_enqueue_merge x y rest)⟩

/-! ### The obligation of 80_host_interface.md -/

/-- `BuildTree` gives a tree over at least two distinct symbols, with all that occur among them. -/
theorem exists_buildTree_eq_some (f : Vector Nat 257) :
    ∃ T, buildTree f = some T ∧ T.symbols.Nodup ∧ 2 ≤ T.symbols.length ∧
      ∀ s : Symbol, 0 < f[s] → s ∈ T.symbols := by
  obtain ⟨l, hpad, hnodup, htwo, hocc⟩ := exists_paddedQueue_perm f
  have hlen : (padQueue f allSymbols (leafQueue f)).length = l.length := by
    rw [hpad.length_eq, List.length_map]
  obtain ⟨e, he, hsym⟩ := mergeQueue_eq_singleton (fuel := (padQueue f allSymbols (leafQueue f)).length)
    (List.ne_nil_of_length_pos (by omega)) (Nat.le_succ _)
  have hl : e.tree.symbols.Perm l :=
    hsym.trans ((queueSymbols_perm hpad).trans (.of_eq (queueSymbols_leaves f l)))
  refine ⟨e.tree, ?_, hl.nodup_iff.mpr hnodup, by rwa [hl.length_eq],
    fun s hs => hl.mem_iff.mpr (hocc s hs)⟩
  simp only [buildTree, he]

/-- For empty input symbol 0 pads the queue beside EOS (R354). -/
theorem buildTree_frequencies_nil :
    buildTree (frequencies []) = some (.node (.leaf 0) (.leaf 256)) := by
  decide +kernel

/-- Settles O60: a tree over two symbols has an internal root, and a symbol at a leaf has a path. -/
theorem treeBuilderAlwaysGivesATree : Obligations.TreeBuilderAlwaysGivesATree := by
  refine ⟨fun f => ?_, buildTree_frequencies_nil⟩
  obtain ⟨T, hT, hnodup, htwo, hocc⟩ := exists_buildTree_eq_some f
  obtain ⟨a, b, rfl⟩ := exists_eq_node_of_two_le htwo
  exact ⟨a, b, hT, hnodup, fun s hs => exists_path_of_mem_symbols (hocc s hs)⟩

end Sys2Proof.Machine
